-- ==== Sys2Proof/Word.lean ====
section
/-! DEFINITION. The word types of the framer (00_scope.md R10: a byte is 8 bits, bit 0 is the least significant). -/

namespace Sys2Proof

/-- A byte of a wire format or of a buffer. -/
abbrev Byte := BitVec 8

/-- A 32-bit register word of the register space (10_state.md R24). -/
abbrev Word := BitVec 32

/-- A 64-bit command word, `CMD64` (30_encoding.md R80). -/
abbrev CmdWord := BitVec 64

end Sys2Proof
end

