-- ==== Sys2Proof/Config.lean ====
section
/-! DEFINITION. What an implementation fixes: the constants of 00_scope.md R7, the parameters of R8, and the values the spec
leaves open (the configuration functions of R14, the unspecified bytes of BUF_OUT), which are opaque: nothing can evaluate
them. -/

namespace Sys2Proof

/-- The parameters of 00_scope.md R8, "A model takes each as an argument". `State.params` carries the argument (log 4);
`Params.wf` (WellFormed.lean) is the constraint R8 puts on it. -/
structure Params where
  minPacketLen : Nat
  maxPacketLen : Nat
  maxInfoLen   : Nat
  bufCap       : Nat
  deriving DecidableEq, Repr

/-- The defaults of R8. -/
def Params.default : Params :=
  { minPacketLen := 15, maxPacketLen := 1039, maxInfoLen := 256, bufCap := 2048 }

namespace Config

/-! Constants of R7. -/

abbrev minAddrs : Nat := 2
abbrev maxAddrs : Nat := 10
abbrev callMax : Nat := 6
abbrev addrOctets : Nat := 7
abbrev il2pHdrLen : Nat := 13
abbrev il2pHdrParity : Nat := 2
abbrev il2pMaxPayload : Nat := 1023
abbrev rsMaxSymbols : Nat := 255
abbrev paritySet : List Nat := [2, 4, 6, 8, 16]
abbrev type0MinLen : Nat := 14
abbrev pidNoL3 : Byte := 0xF0

/-- `Scramble` of R14 on the byte strings of one length, with `Descramble` as its inverse. A length-preserving function with a
left inverse on the finite set of strings of one length is a permutation of it, so this is all R14 says (log 5). -/
opaque scrambler : (n : Nat) → Equiv.Perm (List.Vector Byte n)

/-- `RsParity(k, s)` of R14: k parity bytes for the data s (log 5). -/
opaque rsParityBytes : (k : Nat) → List Byte → List.Vector Byte k

/-- What `RsDecode(k, c)` of R14 answers for a string that is no codeword: `Fail`, or a string of the same length with a count
of at most k/2 corrections (log 5). -/
opaque rsDecodeOther : (k : Nat) → (c : List Byte) → Option (List.Vector Byte c.length × Fin (k / 2 + 1))

/-- A byte of BUF_OUT at or above BUF_OUT_LEN (10_state.md R29, U1, U2: any value), given the generation of the buffer's
contents and the byte's index (log 2). -/
opaque unspecifiedByte : Nat → Nat → Byte

end Config

end Sys2Proof
end

