-- ==== Sys2Proof/Syntax.lean ====
section
/-! DEFINITION. The framer's commands, one constructor per row of spec/opcode_table.json (30_encoding.md R83), with the fields
the command's own rule names (R81), and the frame types of R90. -/

namespace Sys2Proof

/-- The frame types of R90, in the order of their codes 0..15. -/
inductive FrameType where
  | uSabme | uSabm | uDisc | uDm | uUa | uFrmr | uUi | uXid | uTest
  | sRr | sRnr | sRej | sSrej
  | iFrame
  | uUnknown | notAx25
  deriving DecidableEq, Repr

/-- A command with its operands. Every field has the width R80 gives it, so every term is an encodable command. -/
inductive Instr where
  | nop
  | xfer
  | diagClear
  | addrEncode (ssid : BitVec 4) (hbit last : Bool)
  | addrDecode
  | addrRead (n : BitVec 4)
  | addrSet (n ssid : BitVec 4) (hbit : Bool)
  | addrInsert (n ssid : BitVec 4) (hbit : Bool)
  | addrRemove (n : BitVec 4)
  | frameLoad (m128 : Bool)
  | framePack
  | frameClassify
  | buildU (sel : BitVec 4) (cr pf : Bool) (pid : Byte) (m128 : Bool)
  | buildS (sel : BitVec 4) (cr pf : Bool) (nr : BitVec 7) (m128 : Bool)
  | buildI (cr pf : Bool) (nr ns : BitVec 7) (pid : Byte) (m128 : Bool)
  | fcsCalc
  | fcsGen
  | fcsCheck
  | framePackFcs
  | hdr1Enc (maxFec : Bool)
  | hdr0Enc (maxFec : Bool)
  | hdrAttr
  | hdr1Dec
  | hdrClarify
  | hdrEmit
  | plan (count : BitVec 10) (maxFec : Bool)
  | il2pEncode (maxFec : Bool)
  | il2pDecode (m128 : Bool)
  deriving DecidableEq, Repr

/-- Every field of the one command format but RSV, as R80 lays it out; an absent field is 0. -/
structure CmdFields where
  op     : Byte
  pid    : Byte := 0
  sel    : BitVec 4 := 0
  cr     : Bool := false
  pf     : Bool := false
  nr     : BitVec 7 := 0
  ns     : BitVec 7 := 0
  m128   : Bool := false
  maxFec : Bool := false
  hbit   : Bool := false
  ssid   : BitVec 4 := 0
  count  : BitVec 10 := 0
  last   : Bool := false
  deriving DecidableEq, Repr

end Sys2Proof
end

