-- ==== Sys2Proof/WellFormed.lean ====
section
/-! DEFINITION. Well-formedness checks: the constraints of 00_scope.md R8 on the parameters, and of 30_encoding.md R82 and R84 on
a command word. A term of `Instr` needs no check: its fields have the widths of R80. -/

namespace Sys2Proof

/-- The constraints of R8. -/
def Params.wf (p : Params) : Bool :=
  decide (1 ≤ p.minPacketLen) && decide (p.minPacketLen ≤ p.maxPacketLen)
    && decide (1039 ≤ p.maxPacketLen) && decide (p.maxPacketLen + 2 ≤ p.bufCap)
    && decide (1 ≤ p.maxInfoLen) && decide (p.maxInfoLen + 73 ≤ p.maxPacketLen)
    && decide (1118 ≤ p.bufCap) && decide (p.bufCap ≤ 2048)

/-- The opcodes R83 assigns. -/
def assignedOpcodes : List Nat :=
  [0x00, 0x01, 0x02] ++ [0x10, 0x11, 0x12, 0x13, 0x14, 0x15] ++ [0x20, 0x21, 0x22, 0x23, 0x24, 0x25]
    ++ [0x30, 0x31, 0x32, 0x33] ++ [0x40, 0x41, 0x42, 0x43, 0x44, 0x45] ++ [0x50] ++ [0x60, 0x61]

/-- A legal command word: RSV is 0 (R82) and OP is assigned (R84). "A decoder needs only OP and RSV to classify a word" (R85). -/
def CmdWord.wf (w : CmdWord) : Bool :=
  decide (w.extractLsb' 54 10 = 0) && assignedOpcodes.contains (w.extractLsb' 0 8).toNat

end Sys2Proof
end

