-- ==== Sys2Proof/Decode.lean ====
section
/-! DEFINITION. Decoding and encoding of command words (30_encoding.md R80 to R85). -/

namespace Sys2Proof

/-- Why a command word is illegal; either way the command ends ILLEGAL_CMD. -/
inductive Reject where
  /-- CMD[63:54] is not 0 (R82). -/
  | reservedBits
  /-- OP is not in the table of R83 (R84). -/
  | unassignedOpcode
  deriving DecidableEq, Repr

/-- CMD[63:54], which must be 0 (R82). -/
def CmdWord.rsv (w : CmdWord) : BitVec 10 := w.extractLsb' 54 10

/-- Operand assembly (R81): every field at its place of R80. -/
def CmdWord.fields (w : CmdWord) : CmdFields where
  op     := w.extractLsb' 0 8
  pid    := w.extractLsb' 8 8
  sel    := w.extractLsb' 16 4
  cr     := w.getLsbD 20
  pf     := w.getLsbD 21
  nr     := w.extractLsb' 22 7
  ns     := w.extractLsb' 29 7
  m128   := w.getLsbD 36
  maxFec := w.getLsbD 37
  hbit   := w.getLsbD 38
  ssid   := w.extractLsb' 39 4
  count  := w.extractLsb' 43 10
  last   := w.getLsbD 53

/-- The opcode map of R83; each command takes the fields its own rule names and ignores the rest (R81). -/
def CmdFields.instr (f : CmdFields) : Except Reject Instr :=
  match f.op.toNat with
  | 0x00 => .ok .nop
  | 0x01 => .ok .xfer
  | 0x02 => .ok .diagClear
  | 0x10 => .ok (.addrEncode f.ssid f.hbit f.last)
  | 0x11 => .ok .addrDecode
  | 0x12 => .ok (.addrRead f.sel)
  | 0x13 => .ok (.addrSet f.sel f.ssid f.hbit)
  | 0x14 => .ok (.addrInsert f.sel f.ssid f.hbit)
  | 0x15 => .ok (.addrRemove f.sel)
  | 0x20 => .ok (.frameLoad f.m128)
  | 0x21 => .ok .framePack
  | 0x22 => .ok .frameClassify
  | 0x23 => .ok (.buildU f.sel f.cr f.pf f.pid f.m128)
  | 0x24 => .ok (.buildS f.sel f.cr f.pf f.nr f.m128)
  | 0x25 => .ok (.buildI f.cr f.pf f.nr f.ns f.pid f.m128)
  | 0x30 => .ok .fcsCalc
  | 0x31 => .ok .fcsGen
  | 0x32 => .ok .fcsCheck
  | 0x33 => .ok .framePackFcs
  | 0x40 => .ok (.hdr1Enc f.maxFec)
  | 0x41 => .ok (.hdr0Enc f.maxFec)
  | 0x42 => .ok .hdrAttr
  | 0x43 => .ok .hdr1Dec
  | 0x44 => .ok .hdrClarify
  | 0x45 => .ok .hdrEmit
  | 0x50 => .ok (.plan f.count f.maxFec)
  | 0x60 => .ok (.il2pEncode f.maxFec)
  | 0x61 => .ok (.il2pDecode f.m128)
  | _    => .error .unassignedOpcode

/-- Decode one command word (R82 to R85); total, and an illegal word is rejected by name. -/
def decode (w : CmdWord) : Except Reject Instr :=
  if w.rsv = 0 then w.fields.instr else .error .reservedBits

/-- The command word of R80 with the given fields and RSV 0. -/
def CmdFields.word (f : CmdFields) : CmdWord :=
  0#10 ++ BitVec.ofBool f.last ++ f.count ++ f.ssid ++ BitVec.ofBool f.hbit ++ BitVec.ofBool f.maxFec
    ++ BitVec.ofBool f.m128 ++ f.ns ++ f.nr ++ BitVec.ofBool f.pf ++ BitVec.ofBool f.cr ++ f.sel ++ f.pid ++ f.op

/-- The fields of a command: its opcode (R83) and the operands its rule names; every other field 0 (R86). -/
def Instr.fields : Instr → CmdFields
  | .nop => { op := 0x00 }
  | .xfer => { op := 0x01 }
  | .diagClear => { op := 0x02 }
  | .addrEncode ssid hbit last => { op := 0x10, ssid := ssid, hbit := hbit, last := last }
  | .addrDecode => { op := 0x11 }
  | .addrRead n => { op := 0x12, sel := n }
  | .addrSet n ssid hbit => { op := 0x13, sel := n, ssid := ssid, hbit := hbit }
  | .addrInsert n ssid hbit => { op := 0x14, sel := n, ssid := ssid, hbit := hbit }
  | .addrRemove n => { op := 0x15, sel := n }
  | .frameLoad m128 => { op := 0x20, m128 := m128 }
  | .framePack => { op := 0x21 }
  | .frameClassify => { op := 0x22 }
  | .buildU sel cr pf pid m128 => { op := 0x23, sel := sel, cr := cr, pf := pf, pid := pid, m128 := m128 }
  | .buildS sel cr pf nr m128 => { op := 0x24, sel := sel, cr := cr, pf := pf, nr := nr, m128 := m128 }
  | .buildI cr pf nr ns pid m128 => { op := 0x25, cr := cr, pf := pf, nr := nr, ns := ns, pid := pid, m128 := m128 }
  | .fcsCalc => { op := 0x30 }
  | .fcsGen => { op := 0x31 }
  | .fcsCheck => { op := 0x32 }
  | .framePackFcs => { op := 0x33 }
  | .hdr1Enc maxFec => { op := 0x40, maxFec := maxFec }
  | .hdr0Enc maxFec => { op := 0x41, maxFec := maxFec }
  | .hdrAttr => { op := 0x42 }
  | .hdr1Dec => { op := 0x43 }
  | .hdrClarify => { op := 0x44 }
  | .hdrEmit => { op := 0x45 }
  | .plan count maxFec => { op := 0x50, count := count, maxFec := maxFec }
  | .il2pEncode maxFec => { op := 0x60, maxFec := maxFec }
  | .il2pDecode m128 => { op := 0x61, m128 := m128 }

/-- The command word of a command, its unnamed fields and RSV 0. -/
def encode (i : Instr) : CmdWord := i.fields.word

/-- The bits a command's word is read at: OP, RSV and the fields its rule names (the "source_fields" of
spec/opcode_table.json). Every other bit is ignored (R81). -/
def Instr.namedBits (i : Instr) : CmdWord :=
  let sel  : CmdWord := 0x00000000000F0000
  let hbit : CmdWord := 0x0000004000000000
  let ssid : CmdWord := 0x0000078000000000
  let cr   : CmdWord := 0x0000000000100000
  let pf   : CmdWord := 0x0000000000200000
  let pid  : CmdWord := 0x000000000000FF00
  let nr   : CmdWord := 0x000000001FC00000
  let ns   : CmdWord := 0x0000000FE0000000
  let m128 : CmdWord := 0x0000001000000000
  let maxFec : CmdWord := 0x0000002000000000
  let count : CmdWord := 0x001FF80000000000
  let last : CmdWord := 0x0020000000000000
  0xFFC00000000000FF ||| match i with
  | .addrEncode _ _ _ => ssid ||| hbit ||| last
  | .addrRead _ | .addrRemove _ => sel
  | .addrSet _ _ _ | .addrInsert _ _ _ => sel ||| ssid ||| hbit
  | .frameLoad _ | .il2pDecode _ => m128
  | .buildU _ _ _ _ _ => sel ||| cr ||| pf ||| pid ||| m128
  | .buildS _ _ _ _ _ => sel ||| cr ||| pf ||| nr ||| m128
  | .buildI _ _ _ _ _ _ => cr ||| pf ||| nr ||| ns ||| pid ||| m128
  | .hdr1Enc _ | .hdr0Enc _ | .il2pEncode _ => maxFec
  | .plan _ _ => count ||| maxFec
  | .nop | .xfer | .diagClear | .addrDecode | .framePack | .frameClassify | .fcsCalc | .fcsGen | .fcsCheck
  | .framePackFcs | .hdrAttr | .hdr1Dec | .hdrClarify | .hdrEmit => 0

/-- The command word of a row of spec/opcode_table.json: `nbits` bits of `w`, every bit above them 0. CMD_LO is bits 31:0 and
CMD_HI bits 63:32 (10_state.md R25), so the table's numbering is the command word's own; a word longer than 64 bits is none. -/
def tableWord (nbits w : Nat) : Option CmdWord :=
  let v := w % 2 ^ nbits
  if v < 2 ^ 64 then some (BitVec.ofNat 64 v) else none

/-- What the decoder reads from a word of spec/opcode_table.json. -/
def decodeTableWord (nbits w : Nat) : Option Instr :=
  match tableWord nbits w with
  | some c =>
    match decode c with
    | .ok i => some i
    | .error _ => none
  | none => none

end Sys2Proof
end

