-- ==== Sys2Proof/Machine/State.lean ====
section
/-! DEFINITION. The framer's state as plain data (10_state.md), its faults and refusals, and the state after reset
(70_reset_and_hazards.md R310). -/

namespace Sys2Proof.Machine

/-- Byte-addressed storage: (index, byte) pairs, indexes strictly rising, no pair holding what an unlisted index reads as. -/
abbrev Memory := List Host.Cell

/-- The raw 7-octet image of an address, A[0..6] (30_encoding.md R92). -/
structure AddrImage where
  a0 : Byte
  a1 : Byte
  a2 : Byte
  a3 : Byte
  a4 : Byte
  a5 : Byte
  a6 : Byte
  deriving DecidableEq, Repr

/-- The working frame FRAME (10_state.md R22). `addrs` holds ADDR[0..NADDR) and `rest` holds REST[0..REST_LEN): NADDR and
REST_LEN are their lengths (log 3). -/
structure Frame where
  valid  : Bool
  mod128 : Bool
  addrs  : List AddrImage
  rest   : List Byte
  deriving DecidableEq, Repr

/-- FRAME.NADDR. -/
abbrev Frame.naddr (f : Frame) : Nat := f.addrs.length

/-- FRAME.REST_LEN. -/
abbrev Frame.restLen (f : Frame) : Nat := f.rest.length

/-- FRAME_LEN = 7·NADDR + REST_LEN (R23). -/
abbrev Frame.len (f : Frame) : Nat := 7 * f.naddr + f.restLen

/-- RES_CLASS (R24, R30). -/
structure ResClass where
  ftype : FrameType
  cr    : BitVec 2
  pf    : Bool
  nrV   : Bool
  nsV   : Bool
  nr    : BitVec 7
  ns    : BitVec 7
  deriving DecidableEq, Repr

/-- RES_ADDR (R24, R31). -/
structure ResAddr where
  ssid    : BitVec 4
  bit7    : Bool
  rsv     : BitVec 2
  last    : Bool
  callLen : BitVec 3
  deriving DecidableEq, Repr

/-- RES_HDR (R24, R32): `hdrType` is true for header type 1. -/
structure ResHdr where
  hdrType : Bool
  maxFec  : Bool
  count   : BitVec 10
  deriving DecidableEq, Repr

/-- PLAN_SIZES and PLAN_COUNTS (R24, R33). -/
structure PlanRegs where
  smallSize  : BitVec 8
  largeSize  : BitVec 8
  smallCount : BitVec 5
  largeCount : BitVec 5
  blockCount : BitVec 5
  parity     : BitVec 5
  deriving DecidableEq, Repr

/-- The 13-byte header register HDR[0..12] (R36). -/
abbrev Hdr := Vector Byte 13

/-- The values of STATUS.CODE (60_exceptions.md R280); no other code is ever written. -/
inductive StatusCode where
  | ok | illegalCmd | noFrame | badLen | badAddrBlock | badIndex | badCall | badFtype
  | notEncodable | tooLong | hdrReject | fecFail | fcsMismatch
  deriving DecidableEq, Repr

/-- The sticky bits of DIAG (60_exceptions.md R283), in the order of their numbers 0..5. -/
inductive DiagBit where
  | pidSubst | infoDiscarded | infoTruncated | crIllegal | seqMasked | hdrSuspicious
  deriving DecidableEq, Repr

/-- What the outside does to the framer: the host's accesses of 20_memory.md R66, of any address and width it may try, and the
platform's reset (70_reset_and_hazards.md R311). -/
inductive HostAction where
  | read (addr width : Nat)
  | write (addr width : Nat) (value : Word)
  | reset
  deriving DecidableEq, Repr

/-- The framer's state. `params`, `host`, `readData` and `outGen` are the model's own fields; the rest is the spec's. -/
structure State where
  /-- The model's argument of 00_scope.md R8; no step changes it (log 4). -/
  params     : Params
  /-- The host and platform actions still to come, oldest first (log 6). -/
  host       : List HostAction
  /-- The word the last MemRead returned to the host (log 6). -/
  readData   : Word
  cmdLo      : Word
  cmdHi      : Word
  /-- STATUS.CODE (R26). -/
  code       : StatusCode
  /-- STATUS.BUSY, never 1 between steps (R25, log 10). -/
  busy       : Bool
  diag       : BitVec 6
  /-- The bytes of BUF_IN by index (R28). -/
  bufIn      : Memory
  bufInLen   : BitVec 12
  /-- BUF_OUT[0..BUF_OUT_LEN) (R29); BUF_OUT_LEN is its length (log 3). -/
  bufOut     : List Byte
  /-- Which unspecified bytes stand in BUF_OUT at and above BUF_OUT_LEN (log 2). -/
  outGen     : Nat
  frame      : Frame
  resClass   : ResClass
  resAddr    : ResAddr
  resHdr     : ResHdr
  resInfoLen : BitVec 11
  plan       : PlanRegs
  fcs        : BitVec 16
  corrHdr    : BitVec 8
  corrPay    : BitVec 8
  hdr        : Hdr
  deriving DecidableEq, Repr

/-- Why the machine takes no step. Only a host access outside 20_memory.md R66 is stuck ("a model gives such an access no step
(the host is stuck)"), so every one of these is raised by `step` on the oldest host access and is safe. -/
inductive Fault where
  /-- The access is not 4 bytes wide (R66, U7). Safe. -/
  | accessWidth
  /-- The offset is not a multiple of 4 (R66, U7). Safe. -/
  | misaligned
  /-- The offset is above 0x2FFF, outside the register space (R60, log 9). Safe. -/
  | outsideSpace
  deriving DecidableEq, Repr

/-- Why the model gives an instruction no meaning. -/
inductive Refusal where
  /-- Raised by `exec` for an instruction that has no meaning in this model yet. Safe. No arm raises it. -/
  | notModelled (mnemonic : String)
  deriving DecidableEq, Repr

/-- The empty plan, every field 0 (44_il2p_plan.md R240). -/
def PlanRegs.empty : PlanRegs := ⟨0, 0, 0, 0, 0, 0⟩

/-- The framer right after reset (R310), with the default parameters of R8 and no host action waiting. Every register has the
value R310 gives; BUF_IN lists no byte (log 1). -/
def State.reset : State where
  params     := Params.default
  host       := []
  readData   := 0
  cmdLo      := 0
  cmdHi      := 0
  code       := .ok
  busy       := false
  diag       := 0
  bufIn      := []
  bufInLen   := 0
  bufOut     := []
  outGen     := 0
  frame      := { valid := false, mod128 := false, addrs := [], rest := [] }
  resClass   := { ftype := .uSabme, cr := 0, pf := false, nrV := false, nsV := false, nr := 0, ns := 0 }
  resAddr    := { ssid := 0, bit7 := false, rsv := 0, last := false, callLen := 0 }
  resHdr     := { hdrType := false, maxFec := false, count := 0 }
  resInfoLen := 0
  plan       := PlanRegs.empty
  fcs        := 0
  corrHdr    := 0
  corrPay    := 0
  hdr        := #v[0, 0, 0, 0, 0, 0, 0, 0, 0, 0, 0, 0, 0]

end Sys2Proof.Machine
end

