-- ==== Sys2Proof/Machine/Ops.lean ====
section
/-! DEFINITION. The named operations: bits of bytes, the byte storage of BUF_IN, the output string, ending a command
(00_scope.md R11), and the configuration functions of R14. -/

namespace Sys2Proof.Machine

/-! ### Bits and bytes (R10) -/

/-- `b[p] <- v`. -/
def setBit (b : Byte) (p : Nat) (v : Bool) : Byte :=
  if v then b ||| (1#8 <<< p) else b &&& ~~~(1#8 <<< p)

/-- A bit as a byte. -/
def bitByte (v : Bool) : Byte := if v then 1 else 0

/-- The little-endian word of four bytes (20_memory.md R62). -/
def wordOfBytes (b0 b1 b2 b3 : Byte) : Word := b3 ++ b2 ++ b1 ++ b0

/-- Byte j of a word, bits 8j+7:8j (R62). -/
def byteOfWord (w : Word) (j : Nat) : Byte := w.extractLsb' (8 * j) 8

/-! ### The byte storage of BUF_IN -/

/-- What an index that nothing has written reads as. R310 leaves the contents after reset open: 0 (log 1). -/
def unlistedByte : Byte := 0

namespace Memory

/-- Read one byte. -/
def read : Memory → Nat → Byte
  | [], _ => unlistedByte
  | (k, v) :: m, a => if k = a then v else if a < k then unlistedByte else read m a

/-- Write one byte, keeping the canonical form. -/
def write : Memory → Nat → Byte → Memory
  | [], a, b => if b = unlistedByte then [] else [(a, b)]
  | (k, v) :: m, a, b =>
    if k < a then (k, v) :: write m a b
    else if k = a then (if b = unlistedByte then m else (a, b) :: m)
    else (if b = unlistedByte then (k, v) :: m else (a, b) :: (k, v) :: m)

/-- Every listed index is at least `lo`, indexes rise strictly, and no listed byte is what an unlisted index reads as. -/
def wfFrom : Nat → Memory → Bool
  | _, [] => true
  | lo, (k, v) :: m => decide (lo ≤ k) && decide (v ≠ unlistedByte) && wfFrom (k + 1) m

/-- The canonical form. -/
def wf (m : Memory) : Bool := wfFrom 0 m

/-- No index at or above `cap` is listed. -/
def below (cap : Nat) (m : Memory) : Bool := m.all fun c => decide (c.1 < cap)

/-- The n bytes from index a on. -/
def readBytes (m : Memory) : Nat → Nat → List Byte
  | _, 0 => []
  | a, n + 1 => read m a :: readBytes m (a + 1) n

/-- Write a byte string from index a on; an index at or above `cap` ignores the write (20_memory.md R61). -/
def writeBytes (cap : Nat) (m : Memory) : Nat → List Byte → Memory
  | _, [] => m
  | a, b :: bs => writeBytes cap (if a < cap then write m a b else m) (a + 1) bs

end Memory

/-! ### Buffers and the end of a command -/

/-- BUF_OUT_LEN.LEN. -/
def State.bufOutLen (s : State) : BitVec 12 := BitVec.ofNat 12 s.bufOut.length

/-- `BufOut <- bs` (R11, 10_state.md R29): the bytes at and above len(bs) become unspecified ones (log 2). -/
def State.putOut (s : State) (bs : List Byte) : State :=
  { s with bufOut := bs, outGen := s.outGen + 1 }

/-- STATUS.CODE <- c. -/
def State.setCode (s : State) (c : StatusCode) : State := { s with code := c }

/-- `ok` (R11): STATUS.CODE <- OK, and all writes of the command are committed. -/
def ok (s : State) : Host.Outcome State Fault Refusal := .next (s.setCode .ok)

/-- `fail(c)` (R11, 60_exceptions.md R281): STATUS.CODE <- c on the state before the command, which may carry the writes the
command's rule marks as kept. -/
def fail (c : StatusCode) (s : State) : Host.Outcome State Fault Refusal := .next (s.setCode c)

/-! ### The configuration functions (R14) -/

/-- `Scramble(s)`. -/
def scramble (s : List Byte) : List Byte := (Config.scrambler s.length ⟨s, rfl⟩).val

/-- `Descramble(s)`. -/
def descramble (s : List Byte) : List Byte := ((Config.scrambler s.length).symm ⟨s, rfl⟩).val

/-- `RsParity(k, s)`. -/
def rsParity (k : Nat) (s : List Byte) : List Byte := (Config.rsParityBytes k s).val

/-- `RsDecode(k, c)`: `none` is `Fail`. On its domain a codeword decodes to itself with no correction, which is R14's contract;
what any other string decodes to is left open (log 5). -/
def rsDecode (k : Nat) (c : List Byte) : Option (List Byte × Nat) :=
  if k ∈ Config.paritySet ∧ k ≤ c.length ∧ c.length ≤ Config.rsMaxSymbols
      ∧ c = c.take (c.length - k) ++ rsParity k (c.take (c.length - k)) then
    some (c, 0)
  else
    (Config.rsDecodeOther k c).map fun r => (r.1.val, r.2.val)

end Sys2Proof.Machine
end

