-- ==== Sys2Proof/Machine/Operands.lean ====
section
/-! DEFINITION. The operand forms of the commands: the input string of BUF_IN, callsigns, address images, the address block, and
frame-type codes. -/

namespace Sys2Proof.Machine

/-! ### BUF_IN as an operand (10_state.md R28) -/

/-- BUF_IN[0..BUF_IN_LEN.LEN). -/
def State.inBytes (s : State) : List Byte := Memory.readBytes s.bufIn 0 s.bufInLen.toNat

/-- The common check of 60_exceptions.md R282 step 2. -/
def State.inTooLong (s : State) : Bool := decide (s.params.bufCap < s.bufInLen.toNat)

/-- A command that reads BUF_IN: BAD_LEN when BUF_IN_LEN.LEN > BUF_CAP (R282), before the command's own checks. -/
def withInput (s : State) (body : List Byte → Host.Outcome State Fault Refusal) : Host.Outcome State Fault Refusal :=
  if s.inTooLong then fail .badLen s else body s.inBytes

/-! ### Callsigns (00_scope.md R13, 40_address.md R121) -/

/-- `[A-Z0-9]`. -/
def isCallChar (c : Byte) : Bool :=
  (decide (0x30 ≤ c.toNat) && decide (c.toNat ≤ 0x39)) || (decide (0x41 ≤ c.toNat) && decide (c.toNat ≤ 0x5A))

/-- The blank. -/
def blankChar : Byte := 0x20

/-- `ValidCall(s)` (R121). -/
def validCall (s : List Byte) : Bool := decide (s.length ≤ Config.callMax) && s.all isCallChar

/-- A string without its trailing blanks. -/
def stripBlanks (s : List Byte) : List Byte := (s.reverse.dropWhile (· == blankChar)).reverse

/-! ### Address images (30_encoding.md R92) -/

/-- The seven octets in order. -/
def AddrImage.bytes (a : AddrImage) : List Byte := [a.a0, a.a1, a.a2, a.a3, a.a4, a.a5, a.a6]

/-- The image a string begins with. -/
def AddrImage.ofBytes (s : List Byte) : AddrImage where
  a0 := s.getD 0 0
  a1 := s.getD 1 0
  a2 := s.getD 2 0
  a3 := s.getD 3 0
  a4 := s.getD 4 0
  a5 := s.getD 5 0
  a6 := s.getD 6 0

/-- The six character codes A[j] >> 1. -/
def AddrImage.chars (a : AddrImage) : List Byte :=
  [a.a0 >>> 1, a.a1 >>> 1, a.a2 >>> 1, a.a3 >>> 1, a.a4 >>> 1, a.a5 >>> 1]

/-- A[6][7], the C or H bit. -/
def AddrImage.bit7 (a : AddrImage) : Bool := a.a6.getLsbD 7

/-- A[6][6:5], the reserved bits. -/
def AddrImage.rsv (a : AddrImage) : BitVec 2 := a.a6.extractLsb' 5 2

/-- A[6][4:1], the SSID. -/
def AddrImage.ssid (a : AddrImage) : BitVec 4 := a.a6.extractLsb' 1 4

/-- A[6][0], the last-address marker. -/
def AddrImage.last (a : AddrImage) : Bool := a.a6.getLsbD 0

/-- The image with A[6][7] replaced. -/
def AddrImage.withBit7 (a : AddrImage) (v : Bool) : AddrImage := { a with a6 := setBit a.a6 7 v }

/-- The image with A[6][0] replaced. -/
def AddrImage.withLast (a : AddrImage) (v : Bool) : AddrImage := { a with a6 := setBit a.a6 0 v }

/-! ### The address block of a byte string (41_frame.md R143, R150 step 1) -/

/-- `FindAddrBlock(s)`: the number of addresses, 0 or 2..10. -/
def findAddrBlock (s : List Byte) : Nat :=
  match s.findIdx? (fun b => b.getLsbD 0) with
  | none => 0
  | some i =>
    let l := i + 1
    if l % Config.addrOctets = 0 ∧ Config.minAddrs ≤ l / Config.addrOctets ∧ l / Config.addrOctets ≤ Config.maxAddrs then
      l / Config.addrOctets
    else 0

/-- The images s[7n..7n+7) for n < k. -/
def imagesOf : Nat → List Byte → List AddrImage
  | 0, _ => []
  | k + 1, s => AddrImage.ofBytes s :: imagesOf k (s.drop Config.addrOctets)

/-! ### Frame types (30_encoding.md R90) -/

end Sys2Proof.Machine

namespace Sys2Proof

/-- The code of R90. -/
def FrameType.code : FrameType → BitVec 4
  | .uSabme => 0
  | .uSabm => 1
  | .uDisc => 2
  | .uDm => 3
  | .uUa => 4
  | .uFrmr => 5
  | .uUi => 6
  | .uXid => 7
  | .uTest => 8
  | .sRr => 9
  | .sRnr => 10
  | .sRej => 11
  | .sSrej => 12
  | .iFrame => 13
  | .uUnknown => 14
  | .notAx25 => 15

/-- The type of a code of R90. -/
def FrameType.ofCode (c : BitVec 4) : FrameType :=
  match c.toNat with
  | 0 => .uSabme
  | 1 => .uSabm
  | 2 => .uDisc
  | 3 => .uDm
  | 4 => .uUa
  | 5 => .uFrmr
  | 6 => .uUi
  | 7 => .uXid
  | 8 => .uTest
  | 9 => .sRr
  | 10 => .sRnr
  | 11 => .sRej
  | 12 => .sSrej
  | 13 => .iFrame
  | 14 => .uUnknown
  | _ => .notAx25

/-- May carry information (R90; U_UNKNOWN is "yes (not checked)", NOT_AX25 does not arise). -/
def FrameType.mayCarryInfo : FrameType → Bool
  | .uFrmr | .uUi | .uXid | .uTest | .sSrej | .iFrame | .uUnknown => true
  | .uSabme | .uSabm | .uDisc | .uDm | .uUa | .sRr | .sRnr | .sRej | .notAx25 => false

/-- Has a PID byte (R90, R97). -/
def FrameType.hasPid : FrameType → Bool
  | .uUi | .iFrame => true
  | .uSabme | .uSabm | .uDisc | .uDm | .uUa | .uFrmr | .uXid | .uTest | .sRr | .sRnr | .sRej | .sSrej | .uUnknown
  | .notAx25 => false

/-- The value of a U control byte with P/F = 0 (R93, `UCTL`). It is asked for U types only. -/
def FrameType.uctl : FrameType → Byte
  | .uSabme => 0x6F
  | .uSabm => 0x2F
  | .uDisc => 0x43
  | .uDm => 0x0F
  | .uUa => 0x63
  | .uFrmr => 0x87
  | .uUi => 0x03
  | .uXid => 0xAF
  | .uTest => 0xE3
  | .sRr | .sRnr | .sRej | .sSrej | .iFrame | .uUnknown | .notAx25 => 0

/-- The nine U types of R93. -/
def FrameType.uTypes : List FrameType :=
  [.uSabme, .uSabm, .uDisc, .uDm, .uUa, .uFrmr, .uUi, .uXid, .uTest]

/-- The SS code of an S control byte (R94), which is also the IL2P S opcode (43_il2p_header.md R208): S type - S_RR. It is asked
for S types only. -/
def FrameType.ss : FrameType → BitVec 2
  | .sRr => 0
  | .sRnr => 1
  | .sRej => 2
  | .sSrej => 3
  | .uSabme | .uSabm | .uDisc | .uDm | .uUa | .uFrmr | .uUi | .uXid | .uTest | .iFrame | .uUnknown | .notAx25 => 0

/-- The S type of an SS code, S_RR + ss. -/
def FrameType.ofSs (ss : BitVec 2) : FrameType :=
  match ss.toNat with
  | 0 => .sRr
  | 1 => .sRnr
  | 2 => .sRej
  | _ => .sSrej

end Sys2Proof
end

