-- ==== Sys2Proof/Machine/Flags.lean ====
section
/-! DEFINITION. STATUS.CODE values (60_exceptions.md R280), DIAG bits (R283), and the builder rules of 41_frame.md R150 that set
them. -/

namespace Sys2Proof.Machine

/-- The byte of STATUS.CODE (R280). -/
def StatusCode.byte : StatusCode → Byte
  | .ok => 0x00
  | .illegalCmd => 0x01
  | .noFrame => 0x02
  | .badLen => 0x03
  | .badAddrBlock => 0x04
  | .badIndex => 0x05
  | .badCall => 0x06
  | .badFtype => 0x07
  | .notEncodable => 0x08
  | .tooLong => 0x09
  | .hdrReject => 0x0A
  | .fecFail => 0x0B
  | .fcsMismatch => 0x0C

/-- The bit of DIAG (R283). -/
def DiagBit.mask : DiagBit → BitVec 6
  | .pidSubst => 0x01
  | .infoDiscarded => 0x02
  | .infoTruncated => 0x04
  | .crIllegal => 0x08
  | .seqMasked => 0x10
  | .hdrSuspicious => 0x20

/-- The bit if the condition holds, else none. -/
def diagIf (c : Bool) (b : DiagBit) : BitVec 6 := if c then b.mask else 0

/-- `diag(...)`: set the given bits, which are sticky (10_state.md R27). -/
def State.addDiag (s : State) (bits : BitVec 6) : State := { s with diag := s.diag ||| bits }

/-- The PID a built frame may not have (R97, R150 step 3). -/
def pidBad (pid : Byte) : Bool := pid == 0x00 || pid == 0xFF

/-- R150 step 3: the PID used. -/
def substPid (pid : Byte) : Byte := if pidBad pid then Config.pidNoL3 else pid

/-- MODULO (30_encoding.md R81). -/
def modulo (m128 : Bool) : Nat := if m128 then 128 else 8

/-- A sequence number at or above the modulus (R150 step 6). -/
def seqBad (m128 : Bool) (n : BitVec 7) : Bool := decide (modulo m128 ≤ n.toNat)

/-- R150 step 6: the sequence number used, N & (MODULO - 1) when N is out of range. -/
def maskSeq (m128 : Bool) (n : BitVec 7) : BitVec 7 :=
  if seqBad m128 n then n &&& BitVec.ofNat 7 (modulo m128 - 1) else n

/-- Information over MAX_INFO_LEN (R150 step 4). -/
def infoOver (p : Params) (info : List Byte) : Bool := decide (p.maxInfoLen < info.length)

/-- R150 steps 4 and 5: the information put in a frame of type `ft`. -/
def builtInfo (p : Params) (ft : FrameType) (info : List Byte) : List Byte :=
  if ft.mayCarryInfo then (if infoOver p info then info.take p.maxInfoLen else info) else []

/-- R150 steps 4 and 5: the DIAG bit for the information given. -/
def infoDiag (p : Params) (ft : FrameType) (info : List Byte) : BitVec 6 :=
  if ft.mayCarryInfo then diagIf (infoOver p info) .infoTruncated else diagIf (decide (info ≠ [])) .infoDiscarded

/-- The command/response legality of R151 for U types and of R152 for SREJ. -/
def crIllegal (ft : FrameType) (cr : Bool) : Bool :=
  match ft with
  | .uSabme | .uSabm | .uDisc => !cr
  | .uDm | .uUa | .uFrmr | .sSrej => cr
  | .uUi | .uXid | .uTest | .sRr | .sRnr | .sRej | .iFrame | .uUnknown | .notAx25 => false

end Sys2Proof.Machine
end

