-- ==== Sys2Proof/Machine/Address.lean ====
section
/-! DEFINITION. The address family (40_address.md). -/

namespace Sys2Proof.Machine

/-! ### Address functions -/

/-- What `AddrDecode` returns beside the callsign characters (R122). The callsign is the six characters without trailing blanks
(log 12). -/
def addrDecodeCall (a : AddrImage) : List Byte := stripBlanks a.chars

/-- The RES_ADDR fields of an image (R122, 10_state.md R31), with LAST given by the caller. -/
def addrFields (a : AddrImage) (last : Bool) : ResAddr where
  ssid    := a.ssid
  bit7    := a.bit7
  rsv     := a.rsv
  last    := last
  callLen := BitVec.ofNat 3 (addrDecodeCall a).length

/-- Octet j of an encoded callsign: `(j < len(call) ? call[j] : 0x20) << 1` (R123). -/
def callOctet (call : List Byte) (j : Nat) : Byte := call.getD j blankChar <<< 1

/-- Octet 6 of an encoded address: `bit7 << 7 | 0b11 << 5 | ssid << 1 | last` (R123). -/
def flagsOctet (ssid : BitVec 4) (bit7 last : Bool) : Byte :=
  bitByte bit7 <<< 7 ||| 0b11#8 <<< 5 ||| ssid.setWidth 8 <<< 1 ||| bitByte last

/-- `AddrEncode(call, ssid, bit7, last)` (R123). -/
def addrEncode (call : List Byte) (ssid : BitVec 4) (bit7 last : Bool) : AddrImage where
  a0 := callOctet call 0
  a1 := callOctet call 1
  a2 := callOctet call 2
  a3 := callOctet call 3
  a4 := callOctet call 4
  a5 := callOctet call 5
  a6 := flagsOctet ssid bit7 last

/-! ### Commands -/

/-- ADDR_ENCODE (R124). -/
def execAddrEncode (ssid : BitVec 4) (hbit last : Bool) (s : State) : Host.Outcome State Fault Refusal :=
  withInput s fun call =>
    if validCall call then ok (s.putOut (addrEncode call ssid hbit last).bytes) else fail .badCall s

/-- ADDR_DECODE (R125). -/
def execAddrDecode (s : State) : Host.Outcome State Fault Refusal :=
  withInput s fun b =>
    if b.length = Config.addrOctets then
      let a := AddrImage.ofBytes b
      ok ({ s with resAddr := addrFields a a.last }.putOut (addrDecodeCall a))
    else fail .badLen s

/-- ADDR_READ (R126): LAST is the marker the frame would be packed with. -/
def execAddrRead (n : BitVec 4) (s : State) : Host.Outcome State Fault Refusal :=
  if s.frame.valid then
    match s.frame.addrs[n.toNat]? with
    | none => fail .badIndex s
    | some a =>
      ok ({ s with resAddr := addrFields a (decide (n.toNat + 1 = s.frame.naddr)) }.putOut (addrDecodeCall a))
  else fail .noFrame s

/-- ADDR_SET (R127): the C bit of the destination and the source is kept, HBIT is the H bit of a repeater. -/
def execAddrSet (n ssid : BitVec 4) (hbit : Bool) (s : State) : Host.Outcome State Fault Refusal :=
  withInput s fun call =>
    if s.frame.valid then
      match s.frame.addrs[n.toNat]? with
      | none => fail .badIndex s
      | some a =>
        if validCall call then
          let b7 := if n.toNat ≤ 1 then a.bit7 else hbit
          ok { s with frame := { s.frame with
            addrs := s.frame.addrs.set n.toNat (addrEncode call ssid b7 false) } }
        else fail .badCall s
    else fail .noFrame s

/-- The list with `a` inserted at position n, the entries at and after n one place up. -/
def insertAt (l : List AddrImage) (n : Nat) (a : AddrImage) : List AddrImage := l.take n ++ a :: l.drop n

/-- The list without its entry n, the entries after it one place down. -/
def removeAt (l : List AddrImage) (n : Nat) : List AddrImage := l.take n ++ l.drop (n + 1)

/-- ADDR_INSERT (R128): only at repeater positions 2..NADDR. -/
def execAddrInsert (n ssid : BitVec 4) (hbit : Bool) (s : State) : Host.Outcome State Fault Refusal :=
  withInput s fun call =>
    if s.frame.valid then
      if s.frame.naddr < Config.minAddrs ∨ s.frame.naddr = Config.maxAddrs ∨ n.toNat < 2 ∨ s.frame.naddr < n.toNat then
        fail .badIndex s
      else if s.params.maxPacketLen < s.frame.len + Config.addrOctets then fail .badLen s
      else if validCall call then
        ok { s with frame := { s.frame with
          addrs := insertAt s.frame.addrs n.toNat (addrEncode call ssid hbit false) } }
      else fail .badCall s
    else fail .noFrame s

/-- ADDR_REMOVE (R129): only a repeater. -/
def execAddrRemove (n : BitVec 4) (s : State) : Host.Outcome State Fault Refusal :=
  if s.frame.valid then
    if n.toNat < 2 ∨ s.frame.naddr ≤ n.toNat then fail .badIndex s
    else ok { s with frame := { s.frame with addrs := removeAt s.frame.addrs n.toNat } }
  else fail .noFrame s

end Sys2Proof.Machine
end

