-- ==== Sys2Proof/Machine/Frame.lean ====
section
/-! DEFINITION. The frame family: parse, pack, classify and build (41_frame.md R143 to R153), over the AX.25 control field of
30_encoding.md R93 to R96. -/

namespace Sys2Proof.Machine

/-! ### Parse and pack -/

/-- The frame FRAME_LOAD makes of a byte string (R145). -/
def loadFrame (s : List Byte) (m128 : Bool) : Frame :=
  let k := findAddrBlock s
  { valid := true, mod128 := m128, addrs := imagesOf k s, rest := s.drop (Config.addrOctets * k) }

/-- A length FRAME_LOAD accepts (R145). -/
def loadable (p : Params) (n : Nat) : Bool := decide (p.minPacketLen ≤ n) && decide (n ≤ p.maxPacketLen)

/-- The address block with the last-address marker derived from position (R144, 10_state.md R23). -/
def packAddrs : List AddrImage → List Byte
  | [] => []
  | [a] => (a.withLast true).bytes
  | a :: b :: as => (a.withLast false).bytes ++ packAddrs (b :: as)

/-- `Pack(FRAME)` (R144). -/
def pack (f : Frame) : List Byte := packAddrs f.addrs ++ f.rest

/-! ### Classification -/

/-- What `Classify(FRAME)` returns (R148); `nr` and `ns` are absent where nr_v and ns_v are 0. -/
structure FrameClass where
  ftype  : FrameType
  cr     : BitVec 2
  pf     : Bool
  nr     : Option (BitVec 7)
  ns     : Option (BitVec 7)
  ctlLen : Nat
  hasPid : Bool
  deriving DecidableEq, Repr

/-- The first line of R148: `Cdest << 1 | Csrc`, 0 with no addresses (30_encoding.md R91). -/
def crPair (addrs : List AddrImage) : BitVec 2 :=
  match addrs with
  | d :: t :: _ => BitVec.ofBool d.bit7 ++ BitVec.ofBool t.bit7
  | _ => 0

/-- The class of a frame that is no AX.25 frame; it carries the cr of the first line. -/
def notAx25Class (cr : BitVec 2) : FrameClass :=
  { ftype := .notAx25, cr := cr, pf := false, nr := none, ns := none, ctlLen := 0, hasPid := false }

/-- The U type whose value in R93 is the control byte with P/F cleared, else U_UNKNOWN. -/
def uTypeOf (c0 : Byte) : FrameType :=
  (FrameType.uTypes.find? fun t => t.uctl == c0 &&& 0xEF).getD .uUnknown

/-- A U frame, one control byte in either modulo. -/
def classifyU (cr : BitVec 2) (c0 : Byte) : FrameClass :=
  let t := uTypeOf c0
  { ftype := t, cr := cr, pf := c0.getLsbD 4, nr := none, ns := none, ctlLen := 1, hasPid := t.hasPid }

/-- An I or S frame in modulo 8 (R94): `t` is its type, `ns` its N(S). -/
def classify8 (cr : BitVec 2) (t : FrameType) (c0 : Byte) (ns : Option (BitVec 7)) : FrameClass :=
  { ftype := t, cr := cr, pf := c0.getLsbD 4, nr := some ((c0.extractLsb' 5 3).setWidth 7), ns := ns, ctlLen := 1,
    hasPid := t.hasPid }

/-- An I or S frame in modulo 128 (R95), with its second control byte. -/
def classify128 (cr : BitVec 2) (t : FrameType) (c1 : Byte) (ns : Option (BitVec 7)) : FrameClass :=
  { ftype := t, cr := cr, pf := c1.getLsbD 0, nr := some (c1.extractLsb' 1 7), ns := ns, ctlLen := 2, hasPid := t.hasPid }

/-- `Classify(FRAME)` (R148). -/
def classify (f : Frame) : FrameClass :=
  let cr := crPair f.addrs
  match f.addrs, f.rest with
  | [], _ => notAx25Class cr
  | _ :: _, [] => notAx25Class cr
  | _ :: _, c0 :: more =>
    if c0.getLsbD 0 && c0.getLsbD 1 then classifyU cr c0
    else if c0.getLsbD 0 = false then
      if f.mod128 then
        match more with
        | [] => notAx25Class cr
        | c1 :: _ => classify128 cr .iFrame c1 (some (c0.extractLsb' 1 7))
      else classify8 cr .iFrame c0 (some ((c0.extractLsb' 1 3).setWidth 7))
    else
      let t := FrameType.ofSs (c0.extractLsb' 2 2)
      if f.mod128 then
        match more with
        | [] => notAx25Class cr
        | c1 :: _ => classify128 cr t c1 none
      else classify8 cr t c0 none

/-- `Info(FRAME)` (R149). -/
def infoOf (f : Frame) : List Byte :=
  let c := classify f
  f.rest.drop (c.ctlLen + (if c.hasPid then 1 else 0))

/-- `PidOf(FRAME)` (R149): absent without a PID byte. -/
def pidOf (f : Frame) : Option Byte :=
  let c := classify f
  if c.hasPid then f.rest[c.ctlLen]? else none

/-- RES_CLASS of a class (R147). -/
def FrameClass.regs (c : FrameClass) : ResClass where
  ftype := c.ftype
  cr    := c.cr
  pf    := c.pf
  nrV   := c.nr.isSome
  nsV   := c.ns.isSome
  nr    := c.nr.getD 0
  ns    := c.ns.getD 0

/-! ### Builders -/

/-- A built frame and the DIAG bits of its contract violations. -/
structure Built where
  frame : Frame
  diag  : BitVec 6
  deriving DecidableEq, Repr

/-- R150 step 2: ADDR[0][6][7] = CR and ADDR[1][6][7] = 1 - CR. -/
def setCBits (cr : Bool) : List AddrImage → List AddrImage
  | d :: t :: as => d.withBit7 cr :: t.withBit7 (!cr) :: as
  | as => as

/-- R150 step 7. -/
def builtFrame (images : List AddrImage) (cr m128 : Bool) (rest : List Byte) : Frame :=
  { valid := true, mod128 := m128, addrs := setCBits cr images, rest := rest }

/-- The U control byte (30_encoding.md R93): `UCTL[ft] | PF << 4`. -/
def uControl (ft : FrameType) (pf : Bool) : Byte := ft.uctl ||| bitByte pf <<< 4

/-- The S control field (R94, R95). -/
def sControl (ft : FrameType) (pf : Bool) (nr : BitVec 7) (m128 : Bool) : List Byte :=
  if m128 then
    [ft.ss.setWidth 8 <<< 2 ||| 0b01#8, nr.setWidth 8 <<< 1 ||| bitByte pf]
  else
    [nr.setWidth 8 <<< 5 ||| bitByte pf <<< 4 ||| ft.ss.setWidth 8 <<< 2 ||| 0b01#8]

/-- The I control field (R94, R95). -/
def iControl (pf : Bool) (nr ns : BitVec 7) (m128 : Bool) : List Byte :=
  if m128 then
    [ns.setWidth 8 <<< 1, nr.setWidth 8 <<< 1 ||| bitByte pf]
  else
    [nr.setWidth 8 <<< 5 ||| bitByte pf <<< 4 ||| ns.setWidth 8 <<< 1]

/-- BUILD_U after R150 step 1 (R151), for a U type. -/
def buildU (p : Params) (ft : FrameType) (cr pf : Bool) (pid : Byte) (m128 : Bool) (images : List AddrImage)
    (info : List Byte) : Built where
  frame := builtFrame images cr m128
    (uControl ft pf :: (if ft.hasPid then [substPid pid] else []) ++ builtInfo p ft info)
  diag := diagIf (crIllegal ft cr) .crIllegal ||| diagIf (ft.hasPid && pidBad pid) .pidSubst ||| infoDiag p ft info

/-- BUILD_S after R150 step 1 (R152), for an S type. -/
def buildS (p : Params) (ft : FrameType) (cr pf : Bool) (nr : BitVec 7) (m128 : Bool) (images : List AddrImage)
    (info : List Byte) : Built where
  frame := builtFrame images cr m128 (sControl ft pf (maskSeq m128 nr) m128 ++ builtInfo p ft info)
  diag := diagIf (seqBad m128 nr) .seqMasked ||| diagIf (crIllegal ft cr) .crIllegal ||| infoDiag p ft info

/-- BUILD_I after R150 step 1 (R153). -/
def buildI (p : Params) (cr pf : Bool) (nr ns : BitVec 7) (pid : Byte) (m128 : Bool) (images : List AddrImage)
    (info : List Byte) : Built where
  frame := builtFrame images cr m128
    (iControl pf (maskSeq m128 nr) (maskSeq m128 ns) m128 ++ [substPid pid] ++ builtInfo p .iFrame info)
  diag := diagIf (seqBad m128 nr || seqBad m128 ns) .seqMasked ||| diagIf (pidBad pid) .pidSubst
    ||| infoDiag p .iFrame info

/-- R150 steps 1 and 7: split BUF_IN into images and information, then commit what the builder makes of them. -/
def buildFrom (s : State) (b : List Byte) (build : List AddrImage → List Byte → Built) :
    Host.Outcome State Fault Refusal :=
  if findAddrBlock b = 0 then fail .badAddrBlock s
  else
    let r := build (imagesOf (findAddrBlock b) b) (b.drop (Config.addrOctets * findAddrBlock b))
    ok ({ s with frame := r.frame }.addDiag r.diag)

/-! ### Commands -/

/-- FRAME_LOAD (R145). -/
def execFrameLoad (m128 : Bool) (s : State) : Host.Outcome State Fault Refusal :=
  withInput s fun b =>
    if loadable s.params b.length then ok { s with frame := loadFrame b m128 } else fail .badLen s

/-- FRAME_PACK (R146). -/
def execFramePack (s : State) : Host.Outcome State Fault Refusal :=
  if s.frame.valid then ok (s.putOut (pack s.frame)) else fail .noFrame s

/-- FRAME_CLASSIFY (R147). -/
def execFrameClassify (s : State) : Host.Outcome State Fault Refusal :=
  if s.frame.valid then ok { s with resClass := (classify s.frame).regs } else fail .noFrame s

/-- BUILD_U (R151): BAD_FTYPE is checked before R150 step 1. -/
def execBuildU (sel : BitVec 4) (cr pf : Bool) (pid : Byte) (m128 : Bool) (s : State) :
    Host.Outcome State Fault Refusal :=
  withInput s fun b =>
    if 8 < sel.toNat then fail .badFtype s
    else buildFrom s b (buildU s.params (FrameType.ofCode sel) cr pf pid m128)

/-- BUILD_S (R152). -/
def execBuildS (sel : BitVec 4) (cr pf : Bool) (nr : BitVec 7) (m128 : Bool) (s : State) :
    Host.Outcome State Fault Refusal :=
  withInput s fun b =>
    if sel.toNat < 9 ∨ 12 < sel.toNat then fail .badFtype s
    else buildFrom s b (buildS s.params (FrameType.ofCode sel) cr pf nr m128)

/-- BUILD_I (R153). -/
def execBuildI (cr pf : Bool) (nr ns : BitVec 7) (pid : Byte) (m128 : Bool) (s : State) :
    Host.Outcome State Fault Refusal :=
  withInput s fun b => buildFrom s b (buildI s.params cr pf nr ns pid m128)

end Sys2Proof.Machine
end

