-- ==== Sys2Proof/Machine/Fcs.lean ====
section
/-! DEFINITION. The frame check sequence family (42_fcs.md). -/

namespace Sys2Proof.Machine

/-- One of the eight shifts per byte (R180). -/
def crcShift (c : BitVec 16) : BitVec 16 := if c.getLsbD 0 then (c >>> 1) ^^^ 0x8408 else c >>> 1

/-- One byte of the loop of R180. -/
def crcByte (c : BitVec 16) (b : Byte) : BitVec 16 := Nat.repeat crcShift 8 (c ^^^ b.setWidth 16)

/-- `FcsReg(s)` (R180): the loop without the final complement. -/
def fcsReg (s : List Byte) : BitVec 16 := s.foldl crcByte 0xFFFF

/-- `Fcs(s)` (R180). -/
def fcs (s : List Byte) : BitVec 16 := fcsReg s ^^^ 0xFFFF

/-- The two FCS bytes, low-order byte first (R181). -/
def fcsBytes (f : BitVec 16) : List Byte := [f.extractLsb' 0 8, f.extractLsb' 8 8]

/-- FCS_CALC (R182). -/
def execFcsCalc (s : State) : Host.Outcome State Fault Refusal :=
  withInput s fun b => ok { s with fcs := fcs b }

/-- FCS_GEN (R183). -/
def execFcsGen (s : State) : Host.Outcome State Fault Refusal :=
  withInput s fun b =>
    if s.params.bufCap < b.length + 2 then fail .badLen s
    else ok ({ s with fcs := fcs b }.putOut (b ++ fcsBytes (fcs b)))

/-- FCS_CHECK (R184). -/
def execFcsCheck (s : State) : Host.Outcome State Fault Refusal :=
  withInput s fun t =>
    if t.length < 2 then fail .badLen s
    else
      let f := fcs (t.take (t.length - 2))
      if t.drop (t.length - 2) = fcsBytes f then ok { s with fcs := f } else fail .fcsMismatch s

/-- FRAME_PACK_FCS (R185). -/
def execFramePackFcs (s : State) : Host.Outcome State Fault Refusal :=
  if s.frame.valid then
    let b := pack s.frame
    ok ({ s with fcs := fcs b }.putOut (b ++ fcsBytes (fcs b)))
  else fail .noFrame s

end Sys2Proof.Machine
end

