-- ==== Sys2Proof/Machine/Housekeeping.lean ====
section
/-! DEFINITION. The housekeeping commands NOP, XFER and DIAG_CLEAR (41_frame.md R140 to R142). -/

namespace Sys2Proof.Machine

/-- NOP (R140). -/
def execNop (s : State) : Host.Outcome State Fault Refusal := ok s

/-- XFER (R141): BUF_IN[0..BUF_OUT_LEN) <- BUF_OUT, BUF_IN_LEN <- BUF_OUT_LEN. It does not read BUF_IN (60_exceptions.md R282). -/
def execXfer (s : State) : Host.Outcome State Fault Refusal :=
  ok { s with bufIn := Memory.writeBytes s.params.bufCap s.bufIn 0 s.bufOut, bufInLen := s.bufOutLen }

/-- DIAG_CLEAR (R142). -/
def execDiagClear (s : State) : Host.Outcome State Fault Refusal := ok { s with diag := 0 }

end Sys2Proof.Machine
end

