-- ==== Sys2Proof/Machine/Header.lean ====
section
/-! DEFINITION. The IL2P header codec (43_il2p_header.md). -/

namespace Sys2Proof.Machine

/-! ### Bytes and bit planes of HDR (R200 to R204) -/

/-- HDR[i]. -/
def hdrByte (h : Hdr) (i : Nat) : Byte := h.getD i 0

/-- HDR[i] <- b. -/
def setHdrByte (h : Hdr) (i : Nat) (b : Byte) : Hdr := h.setIfInBounds i b

/-- HDR[i][p]. -/
def hdrBit (h : Hdr) (i p : Nat) : Bool := (hdrByte h i).getLsbD p

/-- HDR[i][p] <- v. -/
def setHdrBit (h : Hdr) (i p : Nat) (v : Bool) : Hdr := setHdrByte h i (setBit (hdrByte h i) p v)

/-- `PutPlane(h, p, f, w, v)` (R201): bit p of byte f+i takes bit w-1-i of v, so the last byte takes bit 0. -/
def putPlane (h : Hdr) (p f : Nat) : (w : Nat) → BitVec w → Hdr
  | 0, _ => h
  | w + 1, v => setHdrBit (putPlane h p f w (v.extractLsb' 1 w)) (f + w) p (v.getLsbD 0)

/-- `GetPlane(h, p, f, w)` (R201). -/
def getPlane (h : Hdr) (p f : Nat) : (w : Nat) → BitVec w
  | 0 => 0#0
  | w + 1 => (getPlane h p f w).concat (hdrBit h (f + w) p)

/-- `FEC(h)` (R202). -/
def hdrFec (h : Hdr) : Bool := hdrBit h 0 7

/-- `HDR_TYPE(h)` (R202). -/
def hdrType (h : Hdr) : Bool := hdrBit h 1 7

/-- `COUNT(h)` (R202). -/
def hdrCount (h : Hdr) : BitVec 10 := getPlane h 7 2 10

/-- `UI(h)` (R203). -/
def hdrUi (h : Hdr) : Bool := hdrBit h 0 6

/-- `PID4(h)` (R203). -/
def hdrPid4 (h : Hdr) : BitVec 4 := getPlane h 6 1 4

/-- `CTL7(h)` (R203). -/
def hdrCtl7 (h : Hdr) : BitVec 7 := getPlane h 6 5 7

/-- The fields RES_HDR shows of a header (R212). -/
def hdrAttrs (h : Hdr) : ResHdr := { hdrType := hdrType h, maxFec := hdrFec h, count := hdrCount h }

/-- Thirteen zero bytes. -/
def zeroHdr : Hdr := #v[0, 0, 0, 0, 0, 0, 0, 0, 0, 0, 0, 0, 0]

/-- The header as a byte string, HDR[0] first. -/
def hdrBytes (h : Hdr) : List Byte := h.toList

/-- The header of a byte string's first 13 bytes. -/
def hdrOfBytes (b : List Byte) : Hdr :=
  #v[b.getD 0 0, b.getD 1 0, b.getD 2 0, b.getD 3 0, b.getD 4 0, b.getD 5 0, b.getD 6 0, b.getD 7 0, b.getD 8 0,
    b.getD 9 0, b.getD 10 0, b.getD 11 0, b.getD 12 0]

/-- h[0][7] = FEC, h[1][7] = type, COUNT on plane 7 (R202). -/
def putTrailer (h : Hdr) (maxFec type1 : Bool) (count : Nat) : Hdr :=
  putPlane (setHdrBit (setHdrBit h 0 7 maxFec) 1 7 type1) 7 2 10 (BitVec.ofNat 10 count)

/-! ### SIXBIT and the tables (R205 to R208) -/

/-- A code that has a SIXBIT code (R205). -/
def isSixbit (c : Byte) : Bool := decide (0x20 ≤ c.toNat) && decide (c.toNat ≤ 0x5F)

/-- `Six(c)` (R205), bits 7:6 zero for a code `isSixbit` accepts. -/
def six (c : Byte) : Byte := c - 0x20

/-- `Unsix(v)` (R205). -/
def unsix (v : BitVec 6) : Byte := v.setWidth 8 + 0x20

/-- `PidEnc` (R206); `none` is "encode failure". -/
def pidEnc (p : Byte) : Option (BitVec 4) :=
  if p >>> 4 = 0x1 ∨ p >>> 4 = 0x2 then some 0x2
  else if p = 0x01 then some 0x3
  else if p = 0x06 then some 0x4
  else if p = 0x07 then some 0x5
  else if p = 0x08 then some 0x6
  else if p = 0xCC then some 0xB
  else if p = 0xCD then some 0xC
  else if p = 0xCE then some 0xD
  else if p = 0xCF then some 0xE
  else if p = 0xF0 then some 0xF
  else none

/-- `PidDec` (R207). -/
def pidDec (v : BitVec 4) : Byte :=
  match v.toNat with
  | 0x2 => 0x20
  | 0x3 => 0x01
  | 0x4 => 0x06
  | 0x5 => 0x07
  | 0x6 => 0x08
  | 0xB => 0xCC
  | 0xC => 0xCD
  | 0xD => 0xCE
  | 0xE => 0xCF
  | _ => 0xF0

/-- `UOp` (R208); it is asked for the eight U types R208 numbers only. -/
def uOp : FrameType → BitVec 3
  | .uSabm => 0
  | .uDisc => 1
  | .uDm => 2
  | .uUa => 3
  | .uFrmr => 4
  | .uUi => 5
  | .uXid => 6
  | .uTest => 7
  | .uSabme | .sRr | .sRnr | .sRej | .sSrej | .iFrame | .uUnknown | .notAx25 => 0

/-- The U type of an IL2P opcode (R208). -/
def uTypeOfOp (op : BitVec 3) : FrameType :=
  match op.toNat with
  | 0 => .uSabm
  | 1 => .uDisc
  | 2 => .uDm
  | 3 => .uUa
  | 4 => .uFrmr
  | 5 => .uUi
  | 6 => .uXid
  | _ => .uTest

/-! ### Type-1 encode (R209, R210) -/

/-- A bit as a CONTROL subfield. -/
def bit7w (v : Bool) : BitVec 7 := if v then 1 else 0

/-- `Type1Fields(FRAME)` (R209): UI, PID4 and CTL7, for a frame that passes the checks of R210. -/
def type1Fields (f : Frame) : Bool × BitVec 4 × BitVec 7 :=
  let c := classify f
  let cr := match f.addrs with
    | d :: _ => d.bit7
    | [] => false
  let nr := c.nr.getD 0
  let ns := c.ns.getD 0
  let pid4 := ((pidOf f).bind pidEnc).getD 0
  match c.ftype with
  | .sRr | .sRnr | .sRej | .sSrej =>
    (false, 0, bit7w c.pf <<< 6 ||| nr <<< 3 ||| bit7w cr <<< 2 ||| c.ftype.ss.setWidth 7)
  | .uUi => (true, pid4, bit7w c.pf <<< 6 ||| 5#7 <<< 3 ||| bit7w cr <<< 2)
  | .iFrame => (false, pid4, bit7w c.pf <<< 6 ||| nr <<< 3 ||| ns)
  | .uSabme | .uSabm | .uDisc | .uDm | .uUa | .uFrmr | .uXid | .uTest | .uUnknown | .notAx25 =>
    (false, 1, bit7w c.pf <<< 6 ||| (uOp c.ftype).setWidth 7 <<< 3 ||| bit7w cr <<< 2)

/-- Why HDR1_ENC answers NOT_ENCODABLE (R210); every check but NO_FRAME and TOO_LONG ends so. -/
def type1Refused (f : Frame) : Bool :=
  let c := classify f
  decide (f.naddr ≠ 2)
    || f.mod128
    || !(f.addrs.all fun a => a.chars.all isSixbit)
    || decide (c.ftype = .uSabme) || decide (c.ftype = .uUnknown) || decide (c.ftype = .notAx25)
    || (c.hasPid && ((pidOf f).bind pidEnc).isNone)
    || (!c.ftype.mayCarryInfo && decide (infoOf f ≠ []))

/-- The twelve character codes and the SSID byte of a type-1 header, each with its planes 6 and 7 zero (R204). -/
def type1Chars (f : Frame) : Hdr :=
  match f.addrs with
  | d :: t :: _ =>
    #v[six (d.a0 >>> 1), six (d.a1 >>> 1), six (d.a2 >>> 1), six (d.a3 >>> 1), six (d.a4 >>> 1), six (d.a5 >>> 1),
      six (t.a0 >>> 1), six (t.a1 >>> 1), six (t.a2 >>> 1), six (t.a3 >>> 1), six (t.a4 >>> 1), six (t.a5 >>> 1),
      d.ssid ++ t.ssid]
  | _ => zeroHdr

/-- The header HDR1_ENC makes (R210). -/
def type1Header (f : Frame) (maxFec : Bool) : Hdr :=
  let t := type1Fields f
  let h := setHdrBit (type1Chars f) 0 6 t.1
  let h := putPlane h 6 1 4 t.2.1
  let h := putPlane h 6 5 7 t.2.2
  putTrailer h maxFec true (infoOf f).length

/-- HDR1_ENC on a frame (R210): the header and the information length, or the code it fails with. -/
def hdr1Enc (f : Frame) (maxFec : Bool) : Except StatusCode (Hdr × Nat) :=
  if f.valid = false then .error .noFrame
  else if type1Refused f then .error .notEncodable
  else if Config.il2pMaxPayload < (infoOf f).length then .error .tooLong
  else .ok (type1Header f maxFec, (infoOf f).length)

/-- HDR0_ENC on a frame (R211). -/
def hdr0Enc (f : Frame) (maxFec : Bool) : Except StatusCode Hdr :=
  if f.valid = false then .error .noFrame
  else if f.len < Config.type0MinLen then .error .badLen
  else if Config.il2pMaxPayload < f.len then .error .tooLong
  else .ok (putTrailer zeroHdr maxFec false f.len)

/-! ### Type-1 decode (R213) -/

/-- The six characters of the call at HDR[base..base+6), with the blanks stripped from position 5 down to 1. -/
def hdrCall (h : Hdr) (base : Nat) : List Byte :=
  let ch := fun j => unsix ((hdrByte h (base + j)).extractLsb' 0 6)
  ch 0 :: stripBlanks [ch 1, ch 2, ch 3, ch 4, ch 5]

/-- What HDR1_DEC makes of a header: the reject of a header that is not type 1, the reject of a bad call (which may be logged as
suspicious), or the built frame. -/
inductive Hdr1Result where
  | notType1
  | badCall
  | built (r : Built)
  deriving DecidableEq, Repr

/-- HDR1_DEC on a header (R213). The frame is made by the builder rules with M128 = 0 and empty information. -/
def hdr1Dec (p : Params) (h : Hdr) : Hdr1Result :=
  if hdrType h then
    let dst := hdrCall h 0
    let src := hdrCall h 6
    if dst.all isCallChar && src.all isCallChar then
      let ctl := hdrCtl7 h
      let pid4 := hdrPid4 h
      let pf := ctl.getLsbD 6
      let cr := ctl.getLsbD 2
      let images := fun c : Bool =>
        [addrEncode dst ((hdrByte h 12).extractLsb' 4 4) c false,
          addrEncode src ((hdrByte h 12).extractLsb' 0 4) (!c) true]
      if hdrUi h then .built (buildU p .uUi cr pf (pidDec pid4) false (images cr) [])
      else if pid4 = 0 then
        .built (buildS p (FrameType.ofSs (ctl.extractLsb' 0 2)) cr pf ((ctl.extractLsb' 3 3).setWidth 7) false
          (images cr) [])
      else if pid4 = 1 then
        .built (buildU p (uTypeOfOp (ctl.extractLsb' 3 3)) cr pf Config.pidNoL3 false (images cr) [])
      else
        .built (buildI p true pf ((ctl.extractLsb' 3 3).setWidth 7) ((ctl.extractLsb' 0 3).setWidth 7) (pidDec pid4)
          false (images true) [])
    else .badCall
  else .notType1

/-- The end of a command whose type-1 header was rejected for a bad call: HDR_REJECT, with DIAG.HDR_SUSPICIOUS kept when the
correction count is 0 (R213, 60_exceptions.md R281). -/
def rejectCall (s : State) (noCorrections : Bool) : Host.Outcome State Fault Refusal :=
  fail .hdrReject (s.addDiag (diagIf noCorrections .hdrSuspicious))

/-! ### Commands -/

/-- HDR1_ENC (R210). -/
def execHdr1Enc (maxFec : Bool) (s : State) : Host.Outcome State Fault Refusal :=
  match hdr1Enc s.frame maxFec with
  | .error c => fail c s
  | .ok (h, n) =>
    ok { s with hdr := h, resInfoLen := BitVec.ofNat 11 n,
                resHdr := { hdrType := true, maxFec := maxFec, count := BitVec.ofNat 10 n } }

/-- HDR0_ENC (R211). -/
def execHdr0Enc (maxFec : Bool) (s : State) : Host.Outcome State Fault Refusal :=
  match hdr0Enc s.frame maxFec with
  | .error c => fail c s
  | .ok h =>
    ok { s with hdr := h, resInfoLen := 0,
                resHdr := { hdrType := false, maxFec := maxFec, count := BitVec.ofNat 10 s.frame.len } }

/-- HDR_ATTR (R212). -/
def execHdrAttr (s : State) : Host.Outcome State Fault Refusal := ok { s with resHdr := hdrAttrs s.hdr }

/-- HDR1_DEC (R213); `symbols_corrected` is CORR.CORR_HDR. -/
def execHdr1Dec (s : State) : Host.Outcome State Fault Refusal :=
  match hdr1Dec s.params s.hdr with
  | .notType1 => fail .hdrReject s
  | .badCall => rejectCall s (decide (s.corrHdr = 0))
  | .built r => ok ({ s with frame := r.frame }.addDiag r.diag)

/-- HDR_CLARIFY (R214): RS decode, then descramble. On FEC_FAIL the CORR_HDR write is kept. -/
def execHdrClarify (s : State) : Host.Outcome State Fault Refusal :=
  withInput s fun b =>
    if b.length < Config.il2pHdrLen + Config.il2pHdrParity then fail .badLen s
    else
      match rsDecode Config.il2pHdrParity (b.take (Config.il2pHdrLen + Config.il2pHdrParity)) with
      | none => fail .fecFail { s with corrHdr := 0xFF }
      | some (c, m) =>
        let h := hdrOfBytes (descramble (c.take Config.il2pHdrLen))
        ok { s with hdr := h, corrHdr := BitVec.ofNat 8 m, resHdr := hdrAttrs h }

/-- HDR_EMIT (R215): scramble, then RS encode. -/
def execHdrEmit (s : State) : Host.Outcome State Fault Refusal :=
  let x := scramble (hdrBytes s.hdr)
  ok (s.putOut (x ++ rsParity Config.il2pHdrParity x))

end Sys2Proof.Machine
end

