-- ==== Sys2Proof/Machine/Plan.lean ====
section
/-! DEFINITION. The RS-FEC block segmentation planner (44_il2p_plan.md). -/

namespace Sys2Proof.Machine

/-- DOC0's payload plan (R240, R241). -/
structure Plan where
  smallSize  : Nat
  largeSize  : Nat
  smallCount : Nat
  largeCount : Nat
  parity     : Nat
  deriving DecidableEq, Repr

/-- Parity symbols per block (R241). -/
def planParity (smallSize : Nat) (maxFec : Bool) : Nat :=
  if maxFec then 16
  else if smallSize ≤ 61 then 2
  else if smallSize ≤ 123 then 4
  else if smallSize ≤ 185 then 6
  else 8

/-- Data bytes per block that the block count is made for (R241). -/
def planBlockData (maxFec : Bool) : Nat := if maxFec then 239 else 247

/-- `Plan(n, max_fec)` (R241); the empty plan for n = 0 (R240). -/
def planFor (n : Nat) (maxFec : Bool) : Plan :=
  if n = 0 then { smallSize := 0, largeSize := 0, smallCount := 0, largeCount := 0, parity := 0 }
  else
    let blocks := (n + (planBlockData maxFec - 1)) / planBlockData maxFec
    let small := n / blocks
    let largeCount := n - blocks * small
    { smallSize := small, largeSize := small + 1, smallCount := blocks - largeCount, largeCount := largeCount,
      parity := planParity small maxFec }

/-- BLOCK_COUNT. -/
def Plan.blocks (p : Plan) : Nat := p.smallCount + p.largeCount

/-- `Size(P, i)` (R243): the large blocks come first. -/
def Plan.size (p : Plan) (i : Nat) : Nat := if i < p.largeCount then p.largeSize else p.smallSize

/-- `Start(P, i)` (R243). -/
def Plan.start (p : Plan) : Nat → Nat
  | 0 => 0
  | i + 1 => p.start i + p.size i

/-- The block sizes in order. -/
def Plan.sizes (p : Plan) : List Nat := (List.range p.blocks).map p.size

/-- `PayLen(n, f)` (R244). -/
def payLen (n : Nat) (maxFec : Bool) : Nat := n + (planFor n maxFec).blocks * (planFor n maxFec).parity

/-- The plan as PLAN_SIZES and PLAN_COUNTS hold it (R240, 10_state.md R33). -/
def Plan.regs (p : Plan) : PlanRegs where
  smallSize  := BitVec.ofNat 8 p.smallSize
  largeSize  := BitVec.ofNat 8 p.largeSize
  smallCount := BitVec.ofNat 5 p.smallCount
  largeCount := BitVec.ofNat 5 p.largeCount
  blockCount := BitVec.ofNat 5 p.blocks
  parity     := BitVec.ofNat 5 p.parity

/-- PLAN (R240). -/
def execPlan (count : BitVec 10) (maxFec : Bool) (s : State) : Host.Outcome State Fault Refusal :=
  ok { s with plan := (planFor count.toNat maxFec).regs }

end Sys2Proof.Machine
end

