-- ==== Sys2Proof/Machine/Il2p.lean ====
section
/-! DEFINITION. The IL2P frame codec (45_il2p_frame.md). -/

namespace Sys2Proof.Machine

/-! ### The on-air layout (R260) -/

/-- A protected string: scrambled, then followed by its k parity bytes. -/
def protect (k : Nat) (d : List Byte) : List Byte := scramble d ++ rsParity k (scramble d)

/-- The payload blocks of the given sizes, each protected by itself. -/
def onAirBlocks (parity : Nat) : List Nat → List Byte → List Byte
  | [], _ => []
  | k :: ks, p => protect parity (p.take k) ++ onAirBlocks parity ks (p.drop k)

/-- The on-air frame of a header and a payload with its plan (R260). -/
def onAir (h : Hdr) (plan : Plan) (p : List Byte) : List Byte :=
  protect Config.il2pHdrParity (hdrBytes h) ++ onAirBlocks plan.parity plan.sizes p

/-- Decode the payload blocks of the given sizes: the payload and the sum of the corrections, or `none` where a block is
uncorrectable (R262). -/
def decodeBlocks (parity : Nat) : List Nat → List Byte → Option (List Byte × Nat)
  | [], _ => some ([], 0)
  | k :: ks, b =>
    match rsDecode parity (b.take (k + parity)) with
    | none => none
    | some (w, m) =>
      match decodeBlocks parity ks (b.drop (k + parity)) with
      | none => none
      | some (p, mp) => some (descramble (w.take k) ++ p, m + mp)

/-! ### Encode (R261) -/

/-- What IL2P_ENCODE chooses: the header, its type, the payload and the information length. -/
structure Il2pChoice where
  hdr   : Hdr
  type1 : Bool
  body  : List Byte
  ilen  : Nat
  deriving DecidableEq, Repr

/-- Type 1, or type 0 when the frame cannot take a type-1 header (R261). -/
def il2pChoose (f : Frame) (maxFec : Bool) : Except StatusCode Il2pChoice :=
  match hdr1Enc f maxFec with
  | .ok (h, n) => .ok { hdr := h, type1 := true, body := infoOf f, ilen := n }
  | .error .notEncodable =>
    match hdr0Enc f maxFec with
    | .ok h => .ok { hdr := h, type1 := false, body := pack f, ilen := 0 }
    | .error c => .error c
  | .error c => .error c

/-- IL2P_ENCODE (R261). -/
def execIl2pEncode (maxFec : Bool) (s : State) : Host.Outcome State Fault Refusal :=
  match il2pChoose s.frame maxFec with
  | .error c => fail c s
  | .ok r =>
    let plan := planFor r.body.length maxFec
    ok ({ s with hdr := r.hdr, resInfoLen := BitVec.ofNat 11 r.ilen, plan := plan.regs,
                 resHdr := { hdrType := r.type1, maxFec := maxFec, count := BitVec.ofNat 10 r.body.length } }.putOut
      (onAir r.hdr plan r.body))

/-! ### Decode (R262) -/

/-- The writes of an IL2P_DECODE that ends OK, beside FRAME and DIAG. -/
def il2pCommit (s : State) (h : Hdr) (plan : Plan) (mh mp : Nat) : State :=
  { s with hdr := h, resHdr := hdrAttrs h, plan := plan.regs,
           corrHdr := BitVec.ofNat 8 mh, corrPay := BitVec.ofNat 8 mp }

/-- The payload part of IL2P_DECODE: decode the blocks of `b` behind the header, then let `fin` make the frame. On FEC_FAIL the
CORR write is kept (60_exceptions.md R281). -/
def il2pPayload (s : State) (h : Hdr) (b : List Byte) (mh : Nat)
    (fin : State → List Byte → Host.Outcome State Fault Refusal) : Host.Outcome State Fault Refusal :=
  let plan := planFor (hdrCount h).toNat (hdrFec h)
  match decodeBlocks plan.parity plan.sizes (b.drop (Config.il2pHdrLen + Config.il2pHdrParity)) with
  | none => fail .fecFail { s with corrHdr := BitVec.ofNat 8 mh, corrPay := 0xFF }
  | some (p, mp) => fin (il2pCommit s h plan mh mp) p

/-- IL2P_DECODE (R262). -/
def execIl2pDecode (m128 : Bool) (s : State) : Host.Outcome State Fault Refusal :=
  withInput s fun b =>
    if b.length < Config.il2pHdrLen + Config.il2pHdrParity then fail .badLen s
    else
      match rsDecode Config.il2pHdrParity (b.take (Config.il2pHdrLen + Config.il2pHdrParity)) with
      | none => fail .fecFail { s with corrHdr := 0xFF, corrPay := 0xFF }
      | some (c, mh) =>
        let h := hdrOfBytes (descramble (c.take Config.il2pHdrLen))
        let n := (hdrCount h).toNat
        if b.length < Config.il2pHdrLen + Config.il2pHdrParity + payLen n (hdrFec h) then fail .badLen s
        else if hdrType h then
          match hdr1Dec s.params h with
          | .notType1 => fail .hdrReject s
          | .badCall => rejectCall s (decide (mh = 0))
          | .built r =>
            il2pPayload s h b mh fun t p =>
              ok ({ t with frame := { r.frame with rest := r.frame.rest ++ p } }.addDiag r.diag)
        else
          il2pPayload s h b mh fun t p =>
            if loadable s.params n then ok { t with frame := loadFrame p m128 } else fail .badLen s

end Sys2Proof.Machine
end

