-- ==== Sys2Proof/Machine/Dispatch.lean ====
section
/-! DEFINITION. One arm per command, in the order of spec/opcode_table.json. -/

namespace Sys2Proof.Machine

def exec (i : Instr) (s : State) : Host.Outcome State Fault Refusal :=
  match i with
  | .nop => Sys2Proof.Machine.execNop s
  | .xfer => Sys2Proof.Machine.execXfer s
  | .diagClear => Sys2Proof.Machine.execDiagClear s
  | .addrEncode ssid hbit last => Sys2Proof.Machine.execAddrEncode ssid hbit last s
  | .addrDecode => Sys2Proof.Machine.execAddrDecode s
  | .addrRead n => Sys2Proof.Machine.execAddrRead n s
  | .addrSet n ssid hbit => Sys2Proof.Machine.execAddrSet n ssid hbit s
  | .addrInsert n ssid hbit => Sys2Proof.Machine.execAddrInsert n ssid hbit s
  | .addrRemove n => Sys2Proof.Machine.execAddrRemove n s
  | .frameLoad m128 => Sys2Proof.Machine.execFrameLoad m128 s
  | .framePack => Sys2Proof.Machine.execFramePack s
  | .frameClassify => Sys2Proof.Machine.execFrameClassify s
  | .buildU sel cr pf pid m128 => Sys2Proof.Machine.execBuildU sel cr pf pid m128 s
  | .buildS sel cr pf nr m128 => Sys2Proof.Machine.execBuildS sel cr pf nr m128 s
  | .buildI cr pf nr ns pid m128 => Sys2Proof.Machine.execBuildI cr pf nr ns pid m128 s
  | .fcsCalc => Sys2Proof.Machine.execFcsCalc s
  | .fcsGen => Sys2Proof.Machine.execFcsGen s
  | .fcsCheck => Sys2Proof.Machine.execFcsCheck s
  | .framePackFcs => Sys2Proof.Machine.execFramePackFcs s
  | .hdr1Enc maxFec => Sys2Proof.Machine.execHdr1Enc maxFec s
  | .hdr0Enc maxFec => Sys2Proof.Machine.execHdr0Enc maxFec s
  | .hdrAttr => Sys2Proof.Machine.execHdrAttr s
  | .hdr1Dec => Sys2Proof.Machine.execHdr1Dec s
  | .hdrClarify => Sys2Proof.Machine.execHdrClarify s
  | .hdrEmit => Sys2Proof.Machine.execHdrEmit s
  | .plan count maxFec => Sys2Proof.Machine.execPlan count maxFec s
  | .il2pEncode maxFec => Sys2Proof.Machine.execIl2pEncode maxFec s
  | .il2pDecode m128 => Sys2Proof.Machine.execIl2pDecode m128 s

end Sys2Proof.Machine
end

