-- ==== Sys2Proof/Machine/HostPort.lean ====
section
/-! DEFINITION. The host's view of the framer: the register map of 10_state.md R24 and the accesses of 20_memory.md R60 to R68. -/

namespace Sys2Proof.Machine

/-! ### Registers as words (R24); bits shown as 0 read as 0 -/

def statusWord (s : State) : Word := BitVec.ofBool s.busy ++ 0#23 ++ s.code.byte
def diagWord (s : State) : Word := 0#26 ++ s.diag
def frameCtlWord (s : State) : Word :=
  0#26 ++ BitVec.ofBool s.frame.mod128 ++ BitVec.ofNat 4 s.frame.naddr ++ BitVec.ofBool s.frame.valid
def frameRlenWord (s : State) : Word := 0#21 ++ BitVec.ofNat 11 s.frame.restLen
def resClassWord (r : ResClass) : Word :=
  0#9 ++ r.ns ++ r.nr ++ BitVec.ofBool r.nsV ++ BitVec.ofBool r.nrV ++ BitVec.ofBool r.pf ++ r.cr ++ r.ftype.code
def resAddrWord (r : ResAddr) : Word :=
  0#21 ++ r.callLen ++ BitVec.ofBool r.last ++ r.rsv ++ BitVec.ofBool r.bit7 ++ r.ssid
def resHdrWord (r : ResHdr) : Word := 0#20 ++ r.count ++ BitVec.ofBool r.maxFec ++ BitVec.ofBool r.hdrType
def planSizesWord (p : PlanRegs) : Word := 0#16 ++ p.largeSize ++ p.smallSize
def planCountsWord (p : PlanRegs) : Word := 0#12 ++ p.parity ++ p.blockCount ++ p.largeCount ++ p.smallCount
def corrWord (s : State) : Word := 0#16 ++ s.corrPay ++ s.corrHdr

/-- HDR_Wk: HDR bytes 4k..4k+3, little-endian (R62); HDR_W3 holds byte 12 and zeros. -/
def hdrWord (h : Hdr) (k : Nat) : Word :=
  wordOfBytes (hdrByte h (4 * k)) (hdrByte h (4 * k + 1)) (hdrByte h (4 * k + 2)) (hdrByte h (4 * k + 3))

/-! ### The buffer windows (20_memory.md R61, R62) -/

/-- Byte i of BUF_IN as the host reads it: 0 at or above BUF_CAP. -/
def State.bufInByte (s : State) (i : Nat) : Byte := if i < s.params.bufCap then Memory.read s.bufIn i else 0

/-- Byte i of BUF_OUT as the host reads it: the output below BUF_OUT_LEN, an unspecified byte up to BUF_CAP (10_state.md R29, U2,
log 2), 0 from there on. -/
def State.bufOutByte (s : State) (i : Nat) : Byte :=
  if i < s.params.bufCap then (s.bufOut[i]?).getD (Config.unspecifiedByte s.outGen i) else 0

/-- The word of four bytes of a window. -/
def windowWord (byte : Nat → Byte) (i : Nat) : Word := wordOfBytes (byte i) (byte (i + 1)) (byte (i + 2)) (byte (i + 3))

/-- Write byte i of BUF_IN; at or above BUF_CAP the write is ignored. -/
def State.setBufInByte (s : State) (i : Nat) (b : Byte) : State :=
  if i < s.params.bufCap then { s with bufIn := Memory.write s.bufIn i b } else s

/-! ### The register space -/

/-- The word at an aligned offset (R24, R61); a reserved offset reads 0, and a WO register reads as last written. -/
def readReg (s : State) (a : Nat) : Word :=
  match a with
  | 0x000 => s.cmdLo
  | 0x004 => s.cmdHi
  | 0x008 => statusWord s
  | 0x00C => diagWord s
  | 0x010 => s.bufInLen.setWidth 32
  | 0x014 => s.bufOutLen.setWidth 32
  | 0x018 => frameCtlWord s
  | 0x01C => frameRlenWord s
  | 0x020 => resClassWord s.resClass
  | 0x024 => resAddrWord s.resAddr
  | 0x028 => resHdrWord s.resHdr
  | 0x02C => s.resInfoLen.setWidth 32
  | 0x030 => planSizesWord s.plan
  | 0x034 => planCountsWord s.plan
  | 0x038 => s.fcs.setWidth 32
  | 0x03C => corrWord s
  | 0x040 => hdrWord s.hdr 0
  | 0x044 => hdrWord s.hdr 1
  | 0x048 => hdrWord s.hdr 2
  | 0x04C => hdrWord s.hdr 3
  | _ =>
    if 0x1000 ≤ a ∧ a < 0x1800 then windowWord s.bufInByte (a - 0x1000)
    else if 0x2000 ≤ a ∧ a < 0x2800 then windowWord s.bufOutByte (a - 0x2000)
    else 0

/-- Write HDR bytes 4k..4k+3 from a word; byte 13 and above do not exist and ignore the write. -/
def setHdrWord (h : Hdr) (k : Nat) (v : Word) : Hdr :=
  setHdrByte (setHdrByte (setHdrByte (setHdrByte h (4 * k) (byteOfWord v 0)) (4 * k + 1) (byteOfWord v 1))
    (4 * k + 2) (byteOfWord v 2)) (4 * k + 3) (byteOfWord v 3)

/-- Write the word of an aligned offset that issues no command: CMD_LO and the R/W registers take it; RO registers, reserved
offsets and 0 fields ignore it (R24, R68). CMD_HI is `issueWord`'s. -/
def writeReg (s : State) (a : Nat) (v : Word) : State :=
  match a with
  | 0x000 => { s with cmdLo := v }
  | 0x010 => { s with bufInLen := v.extractLsb' 0 12 }
  | 0x040 => { s with hdr := setHdrWord s.hdr 0 v }
  | 0x044 => { s with hdr := setHdrWord s.hdr 1 v }
  | 0x048 => { s with hdr := setHdrWord s.hdr 2 v }
  | 0x04C => { s with hdr := setHdrWord s.hdr 3 v }
  | _ =>
    if 0x1000 ≤ a ∧ a < 0x1800 then
      (((s.setBufInByte (a - 0x1000) (byteOfWord v 0)).setBufInByte (a - 0x1000 + 1) (byteOfWord v 1)).setBufInByte
        (a - 0x1000 + 2) (byteOfWord v 2)).setBufInByte (a - 0x1000 + 3) (byteOfWord v 3)
    else s

/-! ### Accesses -/

/-- Why an access has no step (R66, log 9), or none if it has one. -/
def accessFault (a width : Nat) : Option Fault :=
  if width ≠ 4 then some .accessWidth
  else if a % 4 ≠ 0 then some .misaligned
  else if 0x2FFF < a then some .outsideSpace
  else none

/-- The offset of CMD_HI. -/
def cmdHiOffset : Nat := 0x004

/-- `CMD = CMD_HI ‖ CMD_LO` (10_state.md R25). -/
def commandWord (hi lo : Word) : CmdWord := hi ++ lo

/-- The end of an illegal word (30_encoding.md R82, R84): ILLEGAL_CMD and no other effect. -/
def illegalCommand (s : State) : Host.Outcome State Fault Refusal := fail .illegalCmd s

/-- A host read (R68): the word goes to the host, and the framer is unchanged. -/
def hostRead (s : State) (a : Nat) : State := { s with readData := readReg s a }

/-- The platform's reset (70_reset_and_hazards.md R310, R311): every register as after reset; the model's parameters, the host's
side and the count of the unspecified output bytes are no registers (log 11). -/
def resetInput (s : State) : State :=
  { State.reset with params := s.params, host := s.host, readData := s.readData, outGen := s.outGen + 1 }

end Sys2Proof.Machine
end

