-- ==== Sys2Proof/Machine/Step.lean ====
section
/-! DEFINITION. One step of the machine: the oldest host action is served. The framer fetches nothing itself (10_state.md R21); the
host's write to CMD_HI brings the command word (R25). -/

namespace Sys2Proof.Machine

/-- A host write to CMD_HI: the command word is formed and executed in the same step (R25). -/
def issueWord (s : State) (v : Word) : Host.Outcome State Fault Refusal :=
  match decode (commandWord v s.cmdLo) with
  | .ok i => exec i { s with cmdHi := v }
  | .error _ => illegalCommand { s with cmdHi := v }

/-- A host write (R68); while BUSY it is ignored (70_reset_and_hazards.md R319, log 10). -/
def hostWrite (s : State) (a : Nat) (v : Word) : Host.Outcome State Fault Refusal :=
  if s.busy then .next s
  else if a = cmdHiOffset then issueWord s v
  else .next (writeReg s a v)

/-- One step: the oldest host action; none is left, the framer is idle (R310). -/
def step (s : State) : Host.Outcome State Fault Refusal :=
  match s.host with
  | [] => .next s
  | .reset :: rest => .next (resetInput { s with host := rest })
  | .read a width :: rest =>
    match accessFault a width with
    | some f => .fault f
    | none => .next (hostRead { s with host := rest } a)
  | .write a width v :: rest =>
    match accessFault a width with
    | some f => .fault f
    | none => hostWrite { s with host := rest } a v

/-- The state whose very next step runs the command word of `nbits` bits of `w`: CMD_LO holds its low half and the host's next
action is the write of its high half to CMD_HI (log 7). A word that is no command word changes nothing. -/
def State.withFetchWord (s : State) (nbits w : Nat) : State :=
  match tableWord nbits w with
  | some c =>
    { s with cmdLo := c.extractLsb' 0 32, host := .write cmdHiOffset 4 (c.extractLsb' 32 32) :: s.host }
  | none => s

end Sys2Proof.Machine
end

