-- ==== Sys2Proof/Machine/Asm.lean ====
section
/-! DEFINITION. The host's notation for commands (30_encoding.md R86, R87): assembler lines, directives and pseudo-instructions as
data, and the command words and host accesses they stand for. -/

namespace Sys2Proof.Machine

/-- The mnemonics of R83. -/
inductive Mnemonic where
  | nop | xfer | diagClear
  | addrEncode | addrDecode | addrRead | addrSet | addrInsert | addrRemove
  | frameLoad | framePack | frameClassify | buildU | buildS | buildI
  | fcsCalc | fcsGen | fcsCheck | framePackFcs
  | hdr1Enc | hdr0Enc | hdrAttr | hdr1Dec | hdrClarify | hdrEmit
  | plan
  | il2pEncode | il2pDecode
  deriving DecidableEq, Repr

/-- The field names of R86. -/
inductive FieldName where
  | pid | sel | cr | pf | nr | ns | m128 | maxfec | hbit | ssid | count | last
  deriving DecidableEq, Repr

/-- `field=value`, with the two other spellings of `sel=` (R86). -/
inductive AsmArg where
  | field (f : FieldName) (v : Nat)
  | ft (t : FrameType)
  | n (v : Nat)
  deriving DecidableEq, Repr

/-- A line of a program: a command, or a directive. A quoted string stands for its ASCII bytes, so `.in` takes bytes. -/
inductive AsmLine where
  | cmd (m : Mnemonic) (args : List AsmArg)
  | dotIn (bytes : List Byte)
  | dotHdr (bytes : List Byte)
  deriving DecidableEq, Repr

/-- The pseudo-instructions of R87. -/
inductive Pseudo where
  | u (ft : FrameType)
  | s (ft : FrameType)
  | i
  deriving DecidableEq, Repr

/-- The opcode of a mnemonic (R83). -/
def Mnemonic.op : Mnemonic → Byte
  | .nop => 0x00
  | .xfer => 0x01
  | .diagClear => 0x02
  | .addrEncode => 0x10
  | .addrDecode => 0x11
  | .addrRead => 0x12
  | .addrSet => 0x13
  | .addrInsert => 0x14
  | .addrRemove => 0x15
  | .frameLoad => 0x20
  | .framePack => 0x21
  | .frameClassify => 0x22
  | .buildU => 0x23
  | .buildS => 0x24
  | .buildI => 0x25
  | .fcsCalc => 0x30
  | .fcsGen => 0x31
  | .fcsCheck => 0x32
  | .framePackFcs => 0x33
  | .hdr1Enc => 0x40
  | .hdr0Enc => 0x41
  | .hdrAttr => 0x42
  | .hdr1Dec => 0x43
  | .hdrClarify => 0x44
  | .hdrEmit => 0x45
  | .plan => 0x50
  | .il2pEncode => 0x60
  | .il2pDecode => 0x61

/-- The width of a field (R80). -/
def FieldName.width : FieldName → Nat
  | .pid => 8
  | .sel | .ssid => 4
  | .nr | .ns => 7
  | .count => 10
  | .cr | .pf | .m128 | .maxfec | .hbit | .last => 1

/-- The lowest bit of a field (R80). -/
def FieldName.lowBit : FieldName → Nat
  | .pid => 8
  | .sel => 16
  | .cr => 20
  | .pf => 21
  | .nr => 22
  | .ns => 29
  | .m128 => 36
  | .maxfec => 37
  | .hbit => 38
  | .ssid => 39
  | .count => 43
  | .last => 53

/-- The field an argument gives. -/
def AsmArg.name : AsmArg → FieldName
  | .field f _ => f
  | .ft _ | .n _ => .sel

/-- The value an argument gives its field. -/
def AsmArg.value : AsmArg → Nat
  | .field _ v => v
  | .ft t => t.code.toNat
  | .n v => v

/-- Every value fits its field and no field is given twice (log 16). -/
def argsWf (args : List AsmArg) : Bool :=
  args.all (fun a => decide (a.value < 2 ^ a.name.width)) && decide (args.map AsmArg.name).Nodup

/-- The command word of a command line (R86); an omitted field is 0. -/
def asmWord (m : Mnemonic) (args : List AsmArg) : Option CmdWord :=
  if argsWf args then
    some (args.foldl (fun w a => w ||| BitVec.ofNat 64 a.value <<< a.name.lowBit) (m.op.setWidth 64))
  else none

/-- The expansion of a pseudo-instruction (R87): exactly one command. A pseudo-instruction exists for the nine U types and the four
S types. -/
def Pseudo.expand (p : Pseudo) (args : List AsmArg) : Option AsmLine :=
  match p with
  | .u t => if t ∈ FrameType.uTypes then some (.cmd .buildU (.ft t :: args)) else none
  | .s t => if t ∈ [FrameType.sRr, .sRnr, .sRej, .sSrej] then some (.cmd .buildS (.ft t :: args)) else none
  | .i => some (.cmd .buildI args)

/-- Issue a command word: CMD_LO, then CMD_HI (10_state.md R25). -/
def issueActions (w : CmdWord) : List HostAction :=
  [.write 0x000 4 (w.extractLsb' 0 32), .write cmdHiOffset 4 (w.extractLsb' 32 32)]

/-- Word writes of a byte string from an offset on; the bytes that fill up the last word are 0 (log 15). -/
def wordWrites : Nat → List Byte → List HostAction
  | _, [] => []
  | a, [b0] => [.write a 4 (wordOfBytes b0 0 0 0)]
  | a, [b0, b1] => [.write a 4 (wordOfBytes b0 b1 0 0)]
  | a, [b0, b1, b2] => [.write a 4 (wordOfBytes b0 b1 b2 0)]
  | a, b0 :: b1 :: b2 :: b3 :: bs => .write a 4 (wordOfBytes b0 b1 b2 b3) :: wordWrites (a + 4) bs

/-- The host accesses a line stands for (R86); none for a line that is not well formed. -/
def AsmLine.actions : AsmLine → Option (List HostAction)
  | .cmd m args => (asmWord m args).map issueActions
  | .dotIn bytes =>
    if bytes.length ≤ 2048 then
      some (wordWrites 0x1000 bytes ++ [.write 0x010 4 (BitVec.ofNat 32 bytes.length)])
    else none
  | .dotHdr bytes => if bytes.length = 13 then some (wordWrites 0x040 bytes) else none

end Sys2Proof.Machine
end

