-- ==== Sys2Proof/Safety.lean ====
section
/-! DEFINITION. What counts as a safe run: the invariant of the state, and the host actions that have a step. -/

namespace Sys2Proof.Machine

/-- The invariant of 10_state.md R22: "if VALID = 1 then NADDR ∈ {0, 2, ..., 10} and 7·NADDR + REST_LEN ≤ MAX_PACKET_LEN". -/
def Frame.inv (p : Params) (f : Frame) : Prop :=
  f.valid = true → (f.naddr = 0 ∨ (2 ≤ f.naddr ∧ f.naddr ≤ 10)) ∧ f.len ≤ p.maxPacketLen

/-- Bit 0 of the six call octets of every stored address is 0 (30_encoding.md R92: "So bit 0 of A[0..5] is 0"). Every command that
makes a frame leaves it so: an encoded call is shifted, and an address block ends at its first byte with bit 0 set (41_frame.md R143). -/
def Frame.callsEven (f : Frame) : Prop :=
  ∀ a ∈ f.addrs, ∀ c ∈ [a.a0, a.a1, a.a2, a.a3, a.a4, a.a5], c.getLsbD 0 = false

/-- What every step keeps: the parameters meet 00_scope.md R8, BUSY is 0 between steps (10_state.md R25), BUF_IN is in canonical
form within BUF_CAP, the output fits BUF_OUT (R29), and FRAME meets R22. -/
structure State.Inv (s : State) : Prop where
  params    : s.params.wf = true
  notBusy   : s.busy = false
  bufInWf   : Memory.wf s.bufIn = true
  bufInCap  : Memory.below s.params.bufCap s.bufIn = true
  bufOutCap : s.bufOut.length ≤ s.params.bufCap
  frame     : s.frame.inv s.params

/-- The host action has a step (20_memory.md R66). -/
def HostAction.served : HostAction → Bool
  | .read a width | .write a width _ => (accessFault a width).isNone
  | .reset => true

/-- Every host action still to come has a step. -/
def State.safe (s : State) : Bool := s.host.all HostAction.served

end Sys2Proof.Machine
end

