-- ==== Sys2Proof/Certificates/Slice0/Obligations.lean ====
section
/-! DEFINITION. The statements about the framer, and the few words they are written in: the spec's own formulas, kept apart from
the model's functions where a rule gives one. -/

namespace Sys2Proof.Claim

open Sys2Proof.Machine

/-! ### The words of the statements -/

/-- BUF_IN_LEN.LEN is within BUF_CAP (60_exceptions.md R282 step 2). -/
def inputFits (s : State) : Prop := s.bufInLen.toNat ≤ s.params.bufCap

/-- `[A-Z0-9]{0..6}` (40_address.md R121). -/
def callOk (c : List Byte) : Prop :=
  c.length ≤ 6 ∧ ∀ b ∈ c, (0x30 ≤ b.toNat ∧ b.toNat ≤ 0x39) ∨ (0x41 ≤ b.toNat ∧ b.toNat ≤ 0x5A)

/-- The seven octets of an address (30_encoding.md R92): the shifted, blank-padded call, then C/H, 11, SSID and marker. -/
def addrOctets (call : List Byte) (ssid : BitVec 4) (bit7 last : Bool) : List Byte :=
  (List.range 6).map (fun j => if j < call.length then call.getD j 0 <<< 1 else 0x40)
    ++ [BitVec.ofBool bit7 ++ 0b11#2 ++ ssid ++ BitVec.ofBool last]

/-- The call of six character codes has k characters: only blanks follow, and it does not end in a blank (40_address.md R122). -/
def callLength (chars : List Byte) (k : Nat) : Prop :=
  k ≤ 6 ∧ (∀ j, k ≤ j → j < 6 → chars.getD j 0 = 0x20) ∧ (k = 0 ∨ chars.getD (k - 1) 0 ≠ 0x20)

/-- RES_ADDR of an image whose call has k characters (40_address.md R122, R125). -/
def addrResult (a : AddrImage) (last : Bool) (k : Nat) : ResAddr :=
  { ssid := a.a6.extractLsb' 1 4, bit7 := a.a6.getLsbD 7, rsv := a.a6.extractLsb' 5 2, last := last,
    callLen := BitVec.ofNat 3 k }

/-- An octet with its bit 7 replaced. -/
def withTop (b : Byte) (v : Bool) : Byte := (b &&& 0x7F) ||| (if v then 0x80 else 0x00)

/-- Images with the C bits of 41_frame.md R150 step 2: destination CR, source 1 - CR. -/
def cBits (cr : Bool) (images : List AddrImage) : List AddrImage :=
  images.mapIdx fun n a =>
    if n = 0 then { a with a6 := withTop a.a6 cr } else if n = 1 then { a with a6 := withTop a.a6 (!cr) } else a

/-- `Pack(FRAME)` of 41_frame.md R144: every bit as stored, but the marker set on the last address only. -/
def packed (f : Frame) : List Byte :=
  (f.addrs.zipIdx.flatMap fun an => [an.1.a0, an.1.a1, an.1.a2, an.1.a3, an.1.a4, an.1.a5,
      (an.1.a6 &&& 0xFE) ||| (if an.2 + 1 = f.addrs.length then 0x01 else 0x00)])
    ++ f.rest

/-- The U control values of 30_encoding.md R93 with P/F = 0, by frame-type code. -/
def uValues : List Byte := [0x6F, 0x2F, 0x43, 0x0F, 0x63, 0x87, 0x03, 0xAF, 0xE3]

/-- The frame types of 30_encoding.md R90 in the order of their codes 0..15. -/
def frameTypes : List FrameType :=
  [.uSabme, .uSabm, .uDisc, .uDm, .uUa, .uFrmr, .uUi, .uXid, .uTest, .sRr, .sRnr, .sRej, .sSrej, .iFrame, .uUnknown, .notAx25]

/-- The status codes of 60_exceptions.md R280 in the order of their values 0x00..0x0C. -/
def statusCodes : List StatusCode :=
  [.ok, .illegalCmd, .noFrame, .badLen, .badAddrBlock, .badIndex, .badCall, .badFtype, .notEncodable, .tooLong, .hdrReject,
    .fecFail, .fcsMismatch]

/-- The rows of 43_il2p_header.md R206 after the first: an AX.25 PID and its IL2P code. -/
def pidRows : List (Byte × BitVec 4) :=
  [(0x01, 0x3), (0x06, 0x4), (0x07, 0x5), (0x08, 0x6), (0xCC, 0xB), (0xCD, 0xC), (0xCE, 0xD), (0xCF, 0xE), (0xF0, 0xF)]

/-- `PidEnc` of 43_il2p_header.md R206. -/
def pidEncoded (p : Byte) : Option (BitVec 4) :=
  if 0x10 ≤ p.toNat ∧ p.toNat ≤ 0x2F then some 0x2 else pidRows.lookup p

/-- `PidDec` of 43_il2p_header.md R207. -/
def pidDecoded (v : BitVec 4) : Byte :=
  ([0xF0, 0xF0, 0x20, 0x01, 0x06, 0x07, 0x08, 0xF0, 0xF0, 0xF0, 0xF0, 0xCC, 0xCD, 0xCE, 0xCF, 0xF0] : List Byte).getD v.toNat 0

/-- The number of control bytes REST begins with (30_encoding.md R93 to R95): two for an I or S field in modulo 128, else one. -/
def controlLength (f : Frame) : Nat := if f.mod128 = true ∧ (f.rest.getD 0 0).extractLsb' 0 2 ≠ 0b11 then 2 else 1

/-- The control field is a UI's, 0x03 but for P/F, or an I's, bit 0 = 0: a PID byte follows it (30_encoding.md R90, R93, R94). -/
def pidFollows (f : Frame) : Bool := decide (f.rest.getD 0 0 &&& 0xEF = 0x03) || !(f.rest.getD 0 0).getLsbD 0

/-- `Info(FRAME)` of 41_frame.md R149: REST after the control field, and after the PID of a UI or I frame. -/
def infoField (f : Frame) : List Byte := f.rest.drop (controlLength f + (if pidFollows f then 1 else 0))

/-- `PidOf(FRAME)` of 41_frame.md R149: the byte of REST after a UI or I control field, absent if REST ends before it. -/
def pidField (f : Frame) : Option Byte := if pidFollows f then f.rest[controlLength f]? else none

/-- A bit as a number. -/
def num (v : Bool) : Nat := if v then 1 else 0

/-- The PID a builder writes (41_frame.md R150 step 3). -/
def pidUsed (pid : Byte) : Byte := if pid = 0x00 ∨ pid = 0xFF then 0xF0 else pid

/-- The sequence number a builder writes (41_frame.md R150 step 6): N modulo MODULO. -/
def seqUsed (m128 : Bool) (n : BitVec 7) : Nat := if m128 then n.toNat else n.toNat % 8

/-- DIAG bit b (60_exceptions.md R283) when the condition holds. -/
def bitWhen (c : Prop) [Decidable c] (b : Nat) : BitVec 6 := if c then BitVec.ofNat 6 (2 ^ b) else 0

/-- A modulo-8 S control byte, `NR << 5 | PF << 4 | SS << 2 | 0b01` (30_encoding.md R94). -/
def sByte (nr : Nat) (pf : Bool) (ss : Nat) : Byte := BitVec.ofNat 8 (32 * nr + 16 * num pf + 4 * ss + 1)

/-- A modulo-8 I control byte, `NR << 5 | PF << 4 | NS << 1 | 0` (30_encoding.md R94). -/
def iByte (nr : Nat) (pf : Bool) (ns : Nat) : Byte := BitVec.ofNat 8 (32 * nr + 16 * num pf + 2 * ns)

/-- The frame of 41_frame.md R150 step 7. -/
def frameOf (m128 : Bool) (images : List AddrImage) (rest : List Byte) : Frame :=
  { valid := true, mod128 := m128, addrs := images, rest := rest }

/-- The frame has addresses that 40_address.md R122 decodes to nonempty calls of `[A-Z0-9]` only. -/
def callsDecodable (f : Frame) : Prop :=
  ∀ a ∈ f.addrs, ∃ k, callLength a.chars k ∧ k ≠ 0 ∧ callOk (a.chars.take k)

/-- The first condition list of 43_il2p_header.md R210: what a frame must meet not to be NOT_ENCODABLE. -/
def type1Encodable (f : Frame) : Prop :=
  f.addrs.length = 2 ∧ f.mod128 = false ∧
  (∀ a ∈ f.addrs, ∀ c ∈ a.chars, 0x20 ≤ c.toNat ∧ c.toNat ≤ 0x5F) ∧
  (classify f).ftype ∉ [FrameType.uSabme, .uUnknown, .notAx25] ∧
  ((classify f).ftype ∈ [FrameType.uUi, .iFrame] → ∃ p v, pidField f = some p ∧ pidEncoded p = some v) ∧
  ((classify f).ftype ∉ [FrameType.uFrmr, .uUi, .uXid, .uTest, .sSrej, .iFrame] → infoField f = [])

/-- The UI, PID4 and CTL7 subfields of 43_il2p_header.md R209 for a frame to `d`, given as numbers. -/
def type1Subfields (f : Frame) (d : AddrImage) (ui : Bool) (pid4 ctl7 : Nat) : Prop :=
  let c := classify f
  let pf := num c.pf
  let cr := num (d.a6.getLsbD 7)
  let nr := (c.nr.getD 0).toNat
  let ns := (c.ns.getD 0).toNat
  (∀ op, c.ftype = [FrameType.sRr, .sRnr, .sRej, .sSrej].getD op .notAx25 → op < 4 →
    ui = false ∧ pid4 = 0 ∧ ctl7 = 64 * pf + 8 * nr + 4 * cr + op) ∧
  (∀ op, c.ftype = [FrameType.uSabm, .uDisc, .uDm, .uUa, .uFrmr, .uUi, .uXid, .uTest].getD op .notAx25 → op < 8 →
    op ≠ 5 → ui = false ∧ pid4 = 1 ∧ ctl7 = 64 * pf + 8 * op + 4 * cr) ∧
  (c.ftype = .uUi → ui = true ∧ ctl7 = 64 * pf + 8 * 5 + 4 * cr) ∧
  (c.ftype = .iFrame → ui = false ∧ ctl7 = 64 * pf + 8 * nr + ns) ∧
  (c.ftype ∈ [FrameType.uUi, .iFrame] → ∃ p v, pidField f = some p ∧ pidEncoded p = some v ∧ pid4 = v.toNat)

/-- The header of 43_il2p_header.md R210 for a frame from `t` to `d`: every bit of its thirteen bytes. -/
def isType1Header (f : Frame) (d t : AddrImage) (maxFec : Bool) (h : Hdr) : Prop :=
  (∀ j, j < 6 → ((hdrByte h j).extractLsb' 0 6).toNat = (d.chars.getD j 0).toNat - 0x20) ∧
  (∀ j, j < 6 → ((hdrByte h (6 + j)).extractLsb' 0 6).toNat = (t.chars.getD j 0).toNat - 0x20) ∧
  hdrByte h 12 = d.a6.extractLsb' 1 4 ++ t.a6.extractLsb' 1 4 ∧
  hdrBit h 0 7 = maxFec ∧ hdrBit h 1 7 = true ∧ (hdrCount h).toNat = (infoField f).length ∧
  type1Subfields f d (hdrBit h 0 6) (hdrPid4 h).toNat (hdrCtl7 h).toNat

/-- The conditions of 43_il2p_header.md R216 under which a type-1 frame from `a` to `d` comes back as it was: the source's C bit is
the complement of the destination's, 1 and 0 for I frames; a PID is 0x20 or a row of R206 other than the first; the reserved bits are
11. -/
def survivesType1 (f : Frame) (d a : AddrImage) : Prop :=
  a.a6.getLsbD 7 = !d.a6.getLsbD 7 ∧ ((classify f).ftype = .iFrame → d.a6.getLsbD 7 = true) ∧
  (∀ p, pidField f = some p → p = 0x20 ∨ p ∈ pidRows.map Prod.fst) ∧
  d.a6.extractLsb' 5 2 = 0b11 ∧ a.a6.extractLsb' 5 2 = 0b11

/-- The header of 43_il2p_header.md R211 for L bytes: every bit not on plane 7 is 0. -/
def isType0Header (l : Nat) (maxFec : Bool) (h : Hdr) : Prop :=
  hdrBit h 0 7 = maxFec ∧ hdrBit h 1 7 = false ∧ (hdrCount h).toNat = l ∧
  (∀ j p, j < 13 → p < 7 → hdrBit h j p = false) ∧ hdrBit h 12 7 = false

/-- The call of a header at HDR[base..base+6) as 43_il2p_header.md R213 reads it: k characters, at least one kept. -/
def hdrCallIs (h : Hdr) (base : Nat) (call : List Byte) : Prop :=
  ∃ k, 1 ≤ k ∧ k ≤ 6 ∧
    (∀ j, k ≤ j → j < 6 → (hdrByte h (base + j)).extractLsb' 0 6 = 0) ∧
    (k = 1 ∨ (hdrByte h (base + (k - 1))).extractLsb' 0 6 ≠ 0) ∧
    call = (List.range k).map fun j => ((hdrByte h (base + j)).extractLsb' 0 6).setWidth 8 + 0x20

/-- The address images 43_il2p_header.md R213 makes of two calls, HDR[12] and the destination's C bit. -/
def hdrImages (h : Hdr) (dst src : List Byte) (c : Bool) : List AddrImage :=
  [AddrImage.ofBytes (addrOctets dst ((hdrByte h 12).extractLsb' 4 4) c false),
    AddrImage.ofBytes (addrOctets src ((hdrByte h 12).extractLsb' 0 4) (!c) true)]

/-- Block i of a payload under a plan (44_il2p_plan.md R243). -/
def block (plan : Plan) (p : List Byte) (i : Nat) : List Byte := (p.drop (plan.start i)).take (plan.size i)

/-- A scrambled string and its k parity bytes. -/
def protectedBytes (k : Nat) (d : List Byte) : List Byte := scramble d ++ rsParity k (scramble d)

/-- The on-air frame of 45_il2p_frame.md R260. -/
def onAirBytes (h : Hdr) (plan : Plan) (p : List Byte) : List Byte :=
  protectedBytes 2 h.toList ++ (List.range plan.blocks).flatMap fun i => protectedBytes plan.parity (block plan p i)

/-- The codeword of block i in an on-air frame (45_il2p_frame.md R262). -/
def codeword (plan : Plan) (b : List Byte) (i : Nat) : List Byte :=
  (b.drop (15 + plan.start i + i * plan.parity)).take (plan.size i + plan.parity)

/-- What each command may write, with everything else as before: the "effect on OK" of its rule, STATUS (10_state.md R26), and the
kept writes of 60_exceptions.md R281. `outGen` goes with BUF_OUT. -/
def writesOnly (i : Instr) (s t : State) : Prop :=
  match i with
  | .nop => t = { s with code := t.code }
  | .xfer => t = { s with code := t.code, bufIn := t.bufIn, bufInLen := t.bufInLen }
  | .diagClear => t = { s with code := t.code, diag := t.diag }
  | .addrEncode _ _ _ | .framePack | .hdrEmit => t = { s with code := t.code, bufOut := t.bufOut, outGen := t.outGen }
  | .addrDecode | .addrRead _ =>
    t = { s with code := t.code, bufOut := t.bufOut, outGen := t.outGen, resAddr := t.resAddr }
  | .addrSet _ _ _ | .addrInsert _ _ _ | .addrRemove _ =>
    t = { s with code := t.code, frame := { s.frame with addrs := t.frame.addrs } }
  | .frameLoad _ => t = { s with code := t.code, frame := t.frame }
  | .frameClassify => t = { s with code := t.code, resClass := t.resClass }
  | .buildU _ _ _ _ _ | .buildS _ _ _ _ _ | .buildI _ _ _ _ _ _ | .hdr1Dec =>
    t = { s with code := t.code, frame := t.frame, diag := t.diag }
  | .fcsCalc | .fcsCheck => t = { s with code := t.code, fcs := t.fcs }
  | .fcsGen | .framePackFcs =>
    t = { s with code := t.code, fcs := t.fcs, bufOut := t.bufOut, outGen := t.outGen }
  | .hdr1Enc _ | .hdr0Enc _ =>
    t = { s with code := t.code, hdr := t.hdr, resHdr := t.resHdr, resInfoLen := t.resInfoLen }
  | .hdrAttr => t = { s with code := t.code, resHdr := t.resHdr }
  | .hdrClarify => t = { s with code := t.code, hdr := t.hdr, resHdr := t.resHdr, corrHdr := t.corrHdr }
  | .plan _ _ => t = { s with code := t.code, plan := t.plan }
  | .il2pEncode _ =>
    t = { s with code := t.code, hdr := t.hdr, resHdr := t.resHdr, resInfoLen := t.resInfoLen, plan := t.plan,
                 bufOut := t.bufOut, outGen := t.outGen }
  | .il2pDecode _ =>
    t = { s with code := t.code, frame := t.frame, diag := t.diag, hdr := t.hdr, resHdr := t.resHdr, plan := t.plan,
                 corrHdr := t.corrHdr, corrPay := t.corrPay }

/-- The DIAG bits a command may set (60_exceptions.md R283, "set by"). -/
def maySet : Instr → BitVec 6
  | .buildU _ _ _ _ _ => 0b001111
  | .buildS _ _ _ _ _ => 0b011110
  | .buildI _ _ _ _ _ _ => 0b010101
  | .hdr1Dec | .il2pDecode _ => 0b101000
  | .nop | .xfer | .diagClear | .addrEncode _ _ _ | .addrDecode | .addrRead _ | .addrSet _ _ _ | .addrInsert _ _ _
  | .addrRemove _ | .frameLoad _ | .framePack | .frameClassify | .fcsCalc | .fcsGen | .fcsCheck | .framePackFcs
  | .hdr1Enc _ | .hdr0Enc _ | .hdrAttr | .hdrClarify | .hdrEmit | .plan _ _ | .il2pEncode _ => 0

/-- The commands that read BUF_IN (60_exceptions.md R282 step 2). -/
def readsBufIn : Instr → Prop
  | .addrEncode _ _ _ | .addrDecode | .addrSet _ _ _ | .addrInsert _ _ _ | .frameLoad _ | .buildU _ _ _ _ _
  | .buildS _ _ _ _ _ | .buildI _ _ _ _ _ _ | .fcsCalc | .fcsGen | .fcsCheck | .hdrClarify | .il2pDecode _ => True
  | .nop | .xfer | .diagClear | .addrRead _ | .addrRemove _ | .framePack | .frameClassify | .framePackFcs | .hdr1Enc _
  | .hdr0Enc _ | .hdrAttr | .hdr1Dec | .hdrEmit | .plan _ _ | .il2pEncode _ => False

/-- The commands that read FRAME (60_exceptions.md R280, the row of NO_FRAME). -/
def readsFrame : Instr → Prop
  | .addrRead _ | .addrSet _ _ _ | .addrInsert _ _ _ | .addrRemove _ | .framePack | .frameClassify | .framePackFcs
  | .hdr1Enc _ | .hdr0Enc _ | .il2pEncode _ => True
  | .nop | .xfer | .diagClear | .addrEncode _ _ _ | .addrDecode | .frameLoad _ | .buildU _ _ _ _ _ | .buildS _ _ _ _ _
  | .buildI _ _ _ _ _ _ | .fcsCalc | .fcsGen | .fcsCheck | .hdrAttr | .hdr1Dec | .hdrClarify | .hdrEmit | .plan _ _
  | .il2pDecode _ => False

/-- The opcodes 30_encoding.md R83 lists as illegal. -/
def illegalOp (op : Nat) : Prop :=
  (0x03 ≤ op ∧ op ≤ 0x0F) ∨ (0x16 ≤ op ∧ op ≤ 0x1F) ∨ (0x26 ≤ op ∧ op ≤ 0x2F) ∨ (0x34 ≤ op ∧ op ≤ 0x3F) ∨
    (0x46 ≤ op ∧ op ≤ 0x4F) ∨ (0x51 ≤ op ∧ op ≤ 0x5F) ∨ (0x62 ≤ op ∧ op ≤ 0xFF)

end Sys2Proof.Claim

open Sys2Proof Sys2Proof.Machine Sys2Proof.Claim

/-! ### Command words -/

/-- 30_encoding.md R80, R81, R83: no bit of a command's operands is dropped. -/
def Obligations.DecodeInvertsEncode : Prop := ∀ i : Instr, decode (encode i) = .ok i

/-- 30_encoding.md R81: "A field a command does not name in its rule is ignored: any value executes the same." The named bits of a
word that decodes to i are those of its encoding, and any word with these named bits decodes to i. -/
def Obligations.UnnamedFieldsAreIgnored : Prop :=
  ∀ (i : Instr) (w : CmdWord), decode w = .ok i ↔ w &&& i.namedBits = encode i

/-- 30_encoding.md R82 and R84: a word with RSV not 0 or an unassigned OP ends ILLEGAL_CMD and changes no other state (CMD_HI keeps
the word written); every other word is a command, whatever its operand fields hold. -/
def Obligations.IllegalWordsEndIllegalCmd : Prop :=
  ∀ (s : State) (v : Word) (rest : List HostAction), s.host = .write 0x004 4 v :: rest → s.busy = false →
    let w : CmdWord := v ++ s.cmdLo
    let op := (w.extractLsb' 0 8).toNat
    ((w.extractLsb' 54 10 ≠ 0 ∨ illegalOp op) →
      step s = .next { s with host := rest, cmdHi := v, code := .illegalCmd }) ∧
    (¬ (w.extractLsb' 54 10 ≠ 0 ∨ illegalOp op) →
      ∃ i, decode w = .ok i ∧ step s = exec i { s with host := rest, cmdHi := v })

/-- The words of 30_encoding.md R88. -/
def Obligations.SpecWordsDecode : Prop :=
  decode 0x000000000016F023 = .ok (.buildU 6 true false 0xF0 false) ∧
  decode 0x0000000001690024 = .ok (.buildS 9 false true 5 false) ∧
  decode 0x0000000040D0F025 = .ok (.buildI true false 3 2 0xF0 false) ∧
  decode 0x001FF80000000050 = .ok (.plan 1023 false) ∧
  decode 0x0003202000000050 = .ok (.plan 100 true) ∧
  decode 0x002007C000000010 = .ok (.addrEncode 15 true true) ∧
  decode 0x0040000000000000 = .error .reservedBits

/-! ### The host's accesses and the step -/

/-- 10_state.md R25: the CMD_HI write forms the word and executes it in the same step; a CMD_LO write executes nothing; STATUS never
reads BUSY = 1 while the framer is not busy. So the two writes of a command, CMD_LO then CMD_HI, run it on the state they leave. -/
def Obligations.StepExecutesIssuedCommand : Prop :=
  ∀ (s : State) (rest : List HostAction) (v : Word), s.busy = false →
    (∀ i, s.host = .write 0x004 4 v :: rest → decode (v ++ s.cmdLo) = .ok i →
      step s = exec i { s with host := rest, cmdHi := v }) ∧
    (s.host = .write 0x000 4 v :: rest → step s = .next { s with host := rest, cmdLo := v }) ∧
    (s.host = .read 0x008 4 :: rest → ∃ t, step s = .next t ∧ t.readData.getLsbD 31 = false) ∧
    (∀ (w : CmdWord) (i : Instr), s.host = issueActions w ++ rest → decode w = .ok i →
      ∃ s1, step s = .next s1 ∧
        step s1 = exec i { s with host := rest, cmdLo := w.extractLsb' 0 32, cmdHi := w.extractLsb' 32 32 })

/-- 20_memory.md R66: an aligned 4-byte access of the register space (R60) has a step, and a read returns the word of its offset; an
access of another width or misaligned has none. That an offset above 0x2FFF has none is the model's reading (log 9). -/
def Obligations.OnlyAlignedWordAccessesStep : Prop :=
  ∀ (s : State) (a width : Nat) (v : Word) (rest : List HostAction),
    ((width ≠ 4 ∨ a % 4 ≠ 0 ∨ 0x2FFF < a) →
      (s.host = .read a width :: rest → ∃ f, step s = .fault f) ∧
      (s.host = .write a width v :: rest → ∃ f, step s = .fault f)) ∧
    (width = 4 → a % 4 = 0 → a ≤ 0x2FFF →
      (s.host = .read a width :: rest → step s = .next { s with host := rest, readData := readReg s a }) ∧
      (s.host = .write a width v :: rest → ∃ t, step s = .next t))

/-- 10_state.md R24, 20_memory.md R61 and R68: a host write to a read-only register, to a reserved offset, or to the BUF_OUT window
is ignored. -/
def Obligations.ReadOnlyWritesAreIgnored : Prop :=
  ∀ (s : State) (a : Nat) (v : Word) (rest : List HostAction), s.host = .write a 4 v :: rest → a % 4 = 0 → a ≤ 0x2FFF →
    a ∉ [0x000, 0x004, 0x010, 0x040, 0x044, 0x048, 0x04C] → ¬ (0x1000 ≤ a ∧ a < 0x1800) →
    step s = .next { s with host := rest }

/-- 20_memory.md R61, R62 and R68: a host write to the BUF_IN window changes the four bytes of its word, little-endian, and no other
state; bytes at or above BUF_CAP stay 0. -/
def Obligations.BufInWindowWrite : Prop :=
  ∀ (s : State) (k : Nat) (v : Word) (rest : List HostAction), Memory.wf s.bufIn = true → s.busy = false → k < 512 →
    s.host = .write (0x1000 + 4 * k) 4 v :: rest →
    ∃ t, step s = .next t ∧ t = { s with host := rest, bufIn := t.bufIn } ∧ Memory.wf t.bufIn = true ∧
      ∀ i, t.bufInByte i =
        if s.params.bufCap ≤ i then 0
        else if i / 4 = k then v.extractLsb' (8 * (i % 4)) 8 else s.bufInByte i

/-- What the host reads at every offset of the register space: each register of 10_state.md R24 with its fields in place and 0 in
every other bit, STATUS.CODE by the values of 60_exceptions.md R280 and FTYPE by the codes of 30_encoding.md R90; the two windows,
little-endian (20_memory.md R62), with 0 at or above BUF_CAP (R61); and 0 at every reserved offset. A length is read modulo the width
of its field, which no run exceeds. -/
def Obligations.BufferWindowsRead : Prop :=
  ∀ s : State,
    readReg s 0x000 = s.cmdLo ∧ readReg s 0x004 = s.cmdHi ∧
    (readReg s 0x008).toNat = statusCodes.idxOf s.code + 2 ^ 31 * num s.busy ∧
    (readReg s 0x00C).toNat = s.diag.toNat ∧
    (readReg s 0x010).toNat = s.bufInLen.toNat ∧
    (readReg s 0x014).toNat = s.bufOut.length % 2 ^ 12 ∧
    (readReg s 0x018).toNat = num s.frame.valid + 2 * (s.frame.naddr % 2 ^ 4) + 2 ^ 5 * num s.frame.mod128 ∧
    (readReg s 0x01C).toNat = s.frame.restLen % 2 ^ 11 ∧
    (readReg s 0x020).toNat = frameTypes.idxOf s.resClass.ftype + 2 ^ 4 * s.resClass.cr.toNat + 2 ^ 6 * num s.resClass.pf
      + 2 ^ 7 * num s.resClass.nrV + 2 ^ 8 * num s.resClass.nsV + 2 ^ 9 * s.resClass.nr.toNat
      + 2 ^ 16 * s.resClass.ns.toNat ∧
    (∀ k, k < 16 → FrameType.ofCode (BitVec.ofNat 4 k) = frameTypes.getD k .notAx25) ∧
    (readReg s 0x024).toNat = s.resAddr.ssid.toNat + 2 ^ 4 * num s.resAddr.bit7 + 2 ^ 5 * s.resAddr.rsv.toNat
      + 2 ^ 7 * num s.resAddr.last + 2 ^ 8 * s.resAddr.callLen.toNat ∧
    (readReg s 0x028).toNat = num s.resHdr.hdrType + 2 * num s.resHdr.maxFec + 2 ^ 2 * s.resHdr.count.toNat ∧
    (readReg s 0x02C).toNat = s.resInfoLen.toNat ∧
    (readReg s 0x030).toNat = s.plan.smallSize.toNat + 2 ^ 8 * s.plan.largeSize.toNat ∧
    (readReg s 0x034).toNat = s.plan.smallCount.toNat + 2 ^ 5 * s.plan.largeCount.toNat + 2 ^ 10 * s.plan.blockCount.toNat
      + 2 ^ 15 * s.plan.parity.toNat ∧
    (readReg s 0x038).toNat = s.fcs.toNat ∧
    (readReg s 0x03C).toNat = s.corrHdr.toNat + 2 ^ 8 * s.corrPay.toNat ∧
    (∀ k j, k < 4 → j < 4 → (readReg s (0x040 + 4 * k)).extractLsb' (8 * j) 8 =
      if 4 * k + j < 13 then s.hdr.getD (4 * k + j) 0 else 0) ∧
    (∀ k j, k < 512 → j < 4 → 4 * k + j < s.params.bufCap →
      (readReg s (0x1000 + 4 * k)).extractLsb' (8 * j) 8 = Memory.read s.bufIn (4 * k + j) ∧
      (∀ b, s.bufOut[4 * k + j]? = some b → (readReg s (0x2000 + 4 * k)).extractLsb' (8 * j) 8 = b)) ∧
    (∀ k j, k < 512 → j < 4 → s.params.bufCap ≤ 4 * k + j →
      (readReg s (0x1000 + 4 * k)).extractLsb' (8 * j) 8 = 0 ∧ (readReg s (0x2000 + 4 * k)).extractLsb' (8 * j) 8 = 0) ∧
    (∀ a, a % 4 = 0 → a ≤ 0x2FFF → 0x050 ≤ a → ¬ (0x1000 ≤ a ∧ a < 0x1800) → ¬ (0x2000 ≤ a ∧ a < 0x2800) →
      readReg s a = 0)

/-- 10_state.md R24 and R36, 20_memory.md R62: HDR_W0..HDR_W3 write and read the thirteen bytes of HDR, and BUF_IN_LEN keeps bits
11:0 of the word written. -/
def Obligations.HdrAndLengthRegistersAreWritable : Prop :=
  ∀ (s : State) (v : Word) (rest : List HostAction), s.busy = false →
    (∀ k, k < 4 → s.host = .write (0x040 + 4 * k) 4 v :: rest →
      ∃ t, step s = .next t ∧ t = { s with host := rest, hdr := t.hdr } ∧
        (∀ i, i < 13 → hdrByte t.hdr i = if i / 4 = k then v.extractLsb' (8 * (i % 4)) 8 else hdrByte s.hdr i) ∧
        readReg t (0x040 + 4 * k) = if k = 3 then v &&& 0xFF else v) ∧
    (s.host = .write 0x010 4 v :: rest →
      step s = .next { s with host := rest, bufInLen := v.extractLsb' 0 12 })

/-- 70_reset_and_hazards.md R310: after reset every register of the control space reads 0, no frame is constructed, and the framer
executes nothing. -/
def Obligations.ResetValues : Prop :=
  (∀ k, k < 20 → readReg State.reset (4 * k) = 0) ∧ State.reset.code = .ok ∧ State.reset.busy = false ∧
    State.reset.frame.valid = false ∧ State.reset.frame.mod128 = false ∧ State.reset.frame.naddr = 0 ∧
    State.reset.frame.restLen = 0 ∧ (∀ i, hdrByte State.reset.hdr i = 0) ∧ step State.reset = .next State.reset

/-- 70_reset_and_hazards.md R311: reset is an input, and puts every register that R310 gives a value at that value. The model's own
choices (log 11): BUF_IN, which R310 leaves unspecified, is cleared, so that its bytes read as log 1 says; the parameters and the
host's side stay; the free bytes of BUF_OUT are new ones. -/
def Obligations.ResetInputResets : Prop :=
  ∀ (s : State) (rest : List HostAction), s.host = .reset :: rest →
    step s = .next { State.reset with params := s.params, host := rest, readData := s.readData, outGen := s.outGen + 1 }

/-! ### The machine as a whole -/

/-- The state after reset meets both invariants. -/
def Obligations.ResetMeetsTheInvariant : Prop := State.reset.Inv ∧ State.reset.frame.callsEven

/-- 10_state.md R22 ("Invariant kept by every command") with the rest of `State.Inv`: every step keeps it. Every step also
keeps the call octets of FRAME's addresses even (30_encoding.md R92, 41_frame.md R143). -/
def Obligations.StepKeepsTheInvariant : Prop :=
  ∀ s t : State, step s = .next t → (s.Inv → t.Inv) ∧ (s.frame.callsEven → t.frame.callsEven)

/-- 60_exceptions.md R280, R285: every command ends, in every state, with a state and a status code; none stops the machine. -/
def Obligations.EveryCommandEnds : Prop :=
  (∀ (i : Instr) (s : State), ∃ t, exec i s = .next t) ∧
  ∀ s : State, s.safe = true → ∃ t, step s = .next t ∧ t.safe = true

/-- 60_exceptions.md R281: a command that does not end OK writes STATUS.CODE and nothing else, but for the kept writes. -/
def Obligations.FailedCommandWritesOnlyStatus : Prop :=
  ∀ (i : Instr) (s t : State), exec i s = .next t → t.code ≠ .ok →
    t = { s with code := t.code, diag := t.diag, corrHdr := t.corrHdr, corrPay := t.corrPay } ∧
    (t.diag ≠ s.diag → (i = .hdr1Dec ∨ ∃ m, i = .il2pDecode m) ∧ t.code = .hdrReject ∧ t.diag = s.diag ||| 0b100000) ∧
    (t.corrHdr ≠ s.corrHdr → (i = .hdrClarify ∨ ∃ m, i = .il2pDecode m) ∧ t.code = .fecFail) ∧
    (t.corrPay ≠ s.corrPay → (∃ m, i = .il2pDecode m) ∧ t.code = .fecFail ∧ t.corrPay = 0xFF)

/-- 10_state.md R27, 60_exceptions.md R283: DIAG bits are sticky, and each is set only by the commands listed for it. -/
def Obligations.DiagBitsAreSticky : Prop :=
  ∀ (i : Instr) (s t : State), exec i s = .next t → i ≠ .diagClear →
    ∃ d, t.diag = s.diag ||| d ∧ d &&& maySet i = d

/-- What each command leaves unchanged, whatever it ends with: everything but the state its own rule names. -/
def Obligations.CommandsWriteOnlyNamedState : Prop :=
  ∀ (i : Instr) (s t : State), exec i s = .next t → writesOnly i s t

/-- The common checks. 60_exceptions.md R282 step 2: BUF_IN_LEN over BUF_CAP is reported first by every command that reads BUF_IN.
R280, NO_FRAME: "FRAME.VALID = 0 for a command that reads FRAME", after that check. -/
def Obligations.CommonChecksComeFirst : Prop :=
  ∀ (i : Instr) (s : State),
    (readsBufIn i → ¬ inputFits s → exec i s = .next { s with code := .badLen }) ∧
    (readsFrame i → s.frame.valid = false → (readsBufIn i → inputFits s) →
      exec i s = .next { s with code := .noFrame })

/-- 70_reset_and_hazards.md R315: the bytes of BUF_IN at or above BUF_IN_LEN have no effect on any command. (XFER overwrites bytes
of BUF_IN and reads none.) -/
def Obligations.BytesAboveTheLengthAreNotRead : Prop :=
  ∀ (i : Instr) (s t : State) (m : Memory), i ≠ .xfer →
    (∀ k, k < s.bufInLen.toNat → Memory.read m k = Memory.read s.bufIn k) → exec i s = .next t →
    exec i { s with bufIn := m } = .next { t with bufIn := m }

/-! ### Housekeeping -/

/-- 41_frame.md R140 and R142. -/
def Obligations.NopAndDiagClear : Prop :=
  ∀ s : State, exec .nop s = .next { s with code := .ok } ∧
    exec .diagClear s = .next { s with code := .ok, diag := 0 }

/-- 41_frame.md R141: XFER copies BUF_OUT[0..BUF_OUT_LEN) to BUF_IN and the length; every other byte of BUF_IN reads as before, and
the next command that reads BUF_IN reads the output. -/
def Obligations.XferCopiesTheOutput : Prop :=
  ∀ s : State, Memory.wf s.bufIn = true → s.bufOut.length ≤ s.params.bufCap → s.params.bufCap ≤ 2048 →
    ∃ t, exec .xfer s = .next t ∧ t = { s with code := .ok, bufIn := t.bufIn, bufInLen := s.bufOutLen } ∧
      (∀ i, Memory.read t.bufIn i = if i < s.bufOut.length then s.bufOut.getD i 0 else Memory.read s.bufIn i) ∧
      t.inBytes = s.bufOut

/-! ### Addresses -/

/-- 40_address.md R124. -/
def Obligations.AddrEncodeOutcomes : Prop :=
  ∀ (s : State) (ssid : BitVec 4) (hbit last : Bool),
    (¬ inputFits s → exec (.addrEncode ssid hbit last) s = .next { s with code := .badLen }) ∧
    (inputFits s → ¬ callOk s.inBytes → exec (.addrEncode ssid hbit last) s = .next { s with code := .badCall }) ∧
    (inputFits s → callOk s.inBytes → exec (.addrEncode ssid hbit last) s =
      .next { s with code := .ok, bufOut := addrOctets s.inBytes ssid hbit last, outGen := s.outGen + 1 })

/-- 40_address.md R125. The length of the call is R122's "Trailing blanks are stripped", the model's reading of "largest k"
(log 12). -/
def Obligations.AddrDecodeOutcomes : Prop :=
  ∀ (s : State),
    (s.params.bufCap < s.bufInLen.toNat ∨ s.bufInLen ≠ 7 → exec .addrDecode s = .next { s with code := .badLen }) ∧
    (∀ (a : AddrImage) (k : Nat), inputFits s → s.inBytes = [a.a0, a.a1, a.a2, a.a3, a.a4, a.a5, a.a6] →
      callLength a.chars k →
      exec .addrDecode s = .next { s with code := .ok, bufOut := a.chars.take k, outGen := s.outGen + 1,
                                          resAddr := addrResult a (a.a6.getLsbD 0) k })

/-- 40_address.md R126: LAST is the marker the frame would be packed with. The length of the call is the model's reading of R122
(log 12). -/
def Obligations.AddrReadOutcomes : Prop :=
  ∀ (s : State) (n : BitVec 4),
    (s.frame.valid = false → exec (.addrRead n) s = .next { s with code := .noFrame }) ∧
    (s.frame.valid = true → s.frame.naddr ≤ n.toNat → exec (.addrRead n) s = .next { s with code := .badIndex }) ∧
    (∀ (a : AddrImage) (k : Nat), s.frame.valid = true → s.frame.addrs[n.toNat]? = some a → callLength a.chars k →
      exec (.addrRead n) s = .next { s with code := .ok, bufOut := a.chars.take k, outGen := s.outGen + 1,
                                            resAddr := addrResult a (decide (n.toNat = s.frame.naddr - 1)) k })

/-- 40_address.md R127: the C bit of destination and source is kept, HBIT sets a repeater's H bit. -/
def Obligations.AddrSetOutcomes : Prop :=
  ∀ (s : State) (n ssid : BitVec 4) (hbit : Bool),
    let i := Instr.addrSet n ssid hbit
    (¬ inputFits s → exec i s = .next { s with code := .badLen }) ∧
    (inputFits s → s.frame.valid = false → exec i s = .next { s with code := .noFrame }) ∧
    (inputFits s → s.frame.valid = true → s.frame.naddr ≤ n.toNat → exec i s = .next { s with code := .badIndex }) ∧
    (inputFits s → s.frame.valid = true → n.toNat < s.frame.naddr → ¬ callOk s.inBytes →
      exec i s = .next { s with code := .badCall }) ∧
    (∀ a, inputFits s → s.frame.valid = true → s.frame.addrs[n.toNat]? = some a → callOk s.inBytes →
      exec i s = .next { s with code := .ok, frame := { s.frame with
        addrs := s.frame.addrs.set n.toNat (AddrImage.ofBytes
          (addrOctets s.inBytes ssid (if n.toNat ≤ 1 then a.a6.getLsbD 7 else hbit) false)) } })

/-- 40_address.md R128. -/
def Obligations.AddrInsertOutcomes : Prop :=
  ∀ (s : State) (n ssid : BitVec 4) (hbit : Bool),
    let i := Instr.addrInsert n ssid hbit
    let badIndex := s.frame.naddr < 2 ∨ s.frame.naddr = 10 ∨ n.toNat < 2 ∨ s.frame.naddr < n.toNat
    (¬ inputFits s → exec i s = .next { s with code := .badLen }) ∧
    (inputFits s → s.frame.valid = false → exec i s = .next { s with code := .noFrame }) ∧
    (inputFits s → s.frame.valid = true → badIndex → exec i s = .next { s with code := .badIndex }) ∧
    (inputFits s → s.frame.valid = true → ¬ badIndex → s.params.maxPacketLen < s.frame.len + 7 →
      exec i s = .next { s with code := .badLen }) ∧
    (inputFits s → s.frame.valid = true → ¬ badIndex → s.frame.len + 7 ≤ s.params.maxPacketLen → ¬ callOk s.inBytes →
      exec i s = .next { s with code := .badCall }) ∧
    (inputFits s → s.frame.valid = true → ¬ badIndex → s.frame.len + 7 ≤ s.params.maxPacketLen → callOk s.inBytes →
      exec i s = .next { s with code := .ok, frame := { s.frame with
        addrs := s.frame.addrs.insertIdx n.toNat (AddrImage.ofBytes (addrOctets s.inBytes ssid hbit false)) } })

/-- 40_address.md R129. -/
def Obligations.AddrRemoveOutcomes : Prop :=
  ∀ (s : State) (n : BitVec 4),
    (s.frame.valid = false → exec (.addrRemove n) s = .next { s with code := .noFrame }) ∧
    (s.frame.valid = true → n.toNat < 2 ∨ s.frame.naddr ≤ n.toNat →
      exec (.addrRemove n) s = .next { s with code := .badIndex }) ∧
    (s.frame.valid = true → 2 ≤ n.toNat → n.toNat < s.frame.naddr →
      exec (.addrRemove n) s =
        .next { s with code := .ok, frame := { s.frame with addrs := s.frame.addrs.eraseIdx n.toNat } })

/-- 40_address.md R121 to R125: ADDR_ENCODE, XFER, ADDR_DECODE give back the call and every field, with the reserved bits 11
(R122 as log 12 reads it). -/
def Obligations.EncodedAddressDecodesBack : Prop :=
  ∀ (s t u : State) (ssid : BitVec 4) (hbit last : Bool), s.Inv → inputFits s → callOk s.inBytes →
    exec (.addrEncode ssid hbit last) s = .next t → exec .xfer t = .next u →
    ∃ v, exec .addrDecode u = .next v ∧ v.code = .ok ∧ v.bufOut = s.inBytes ∧
      v.resAddr = { ssid := ssid, bit7 := hbit, rsv := 3, last := last, callLen := BitVec.ofNat 3 s.inBytes.length }

/-! ### Frames -/

/-- 41_frame.md R143: `FindAddrBlock(s)` is k > 0 exactly when the first byte with bit 0 set ends a block of k addresses, 2 ≤ k ≤ 10. -/
def Obligations.AddressBlockIsFoundByItsMarker : Prop :=
  ∀ (s : List Byte),
    (∀ k, 0 < k → (findAddrBlock s = k ↔ 2 ≤ k ∧ k ≤ 10 ∧ 7 * k ≤ s.length ∧ (s.getD (7 * k - 1) 0).getLsbD 0 = true ∧
      ∀ j, j < 7 * k - 1 → (s.getD j 0).getLsbD 0 = false)) ∧
    ((∀ b ∈ s, b.getLsbD 0 = false) → findAddrBlock s = 0)

/-- 41_frame.md R145: the loaded frame holds exactly the bytes of BUF_IN, split at the address block. -/
def Obligations.FrameLoadOutcomes : Prop :=
  ∀ (s : State) (m128 : Bool),
    (¬ inputFits s ∨ s.bufInLen.toNat < s.params.minPacketLen ∨ s.params.maxPacketLen < s.bufInLen.toNat →
      exec (.frameLoad m128) s = .next { s with code := .badLen }) ∧
    (inputFits s → s.params.minPacketLen ≤ s.bufInLen.toNat → s.bufInLen.toNat ≤ s.params.maxPacketLen →
      ∃ f, exec (.frameLoad m128) s = .next { s with code := .ok, frame := f } ∧ f.valid = true ∧ f.mod128 = m128 ∧
        f.naddr = findAddrBlock s.inBytes ∧ f.addrs.flatMap AddrImage.bytes ++ f.rest = s.inBytes)

/-- 41_frame.md R144 and R146: the packed bytes, of length FRAME_LEN. -/
def Obligations.FramePackOutcomes : Prop :=
  ∀ s : State,
    (s.frame.valid = false → exec .framePack s = .next { s with code := .noFrame }) ∧
    (s.frame.valid = true →
      exec .framePack s = .next { s with code := .ok, bufOut := packed s.frame, outGen := s.outGen + 1 } ∧
      (packed s.frame).length = 7 * s.frame.naddr + s.frame.restLen)

/-- 41_frame.md R155: for every string that FRAME_LOAD accepts, FRAME_PACK directly after it outputs exactly that string. -/
def Obligations.LoadThenPackIsIdentity : Prop :=
  ∀ (s t : State) (m128 : Bool), exec (.frameLoad m128) s = .next t → t.code = .ok →
    ∃ u, exec .framePack t = .next u ∧ u.code = .ok ∧ u.bufOut = s.inBytes

/-- 41_frame.md R147 over the cases of R148: RES_CLASS for every control field. -/
def Obligations.FrameClassifyOutcomes : Prop :=
  ∀ s : State,
    let gives := fun r : ResClass => exec .frameClassify s = .next { s with code := .ok, resClass := r }
    let notAx25 := fun cr : BitVec 2 =>
      ({ ftype := .notAx25, cr := cr, pf := false, nrV := false, nsV := false, nr := 0, ns := 0 } : ResClass)
    (s.frame.valid = false → exec .frameClassify s = .next { s with code := .noFrame }) ∧
    (s.frame.valid = true → s.frame.addrs = [] → gives (notAx25 0)) ∧
    (∀ (d t : AddrImage) (as : List AddrImage), s.frame.valid = true → s.frame.addrs = d :: t :: as →
      let cr := BitVec.ofBool (d.a6.getLsbD 7) ++ BitVec.ofBool (t.a6.getLsbD 7)
      (s.frame.rest = [] → gives (notAx25 cr)) ∧
      (∀ c0 more, s.frame.rest = c0 :: more → c0.getLsbD 0 = true → c0.getLsbD 1 = true →
        (∀ k, k < 9 → c0 &&& 0xEF = uValues.getD k 0 →
          gives { ftype := FrameType.ofCode (BitVec.ofNat 4 k), cr := cr, pf := c0.getLsbD 4, nrV := false, nsV := false,
                  nr := 0, ns := 0 }) ∧
        (c0 &&& 0xEF ∉ uValues →
          gives { ftype := .uUnknown, cr := cr, pf := c0.getLsbD 4, nrV := false, nsV := false, nr := 0, ns := 0 })) ∧
      (∀ c0 more, s.frame.rest = c0 :: more → s.frame.mod128 = false → c0.getLsbD 0 = false →
        gives { ftype := .iFrame, cr := cr, pf := c0.getLsbD 4, nrV := true, nsV := true,
                nr := 0#4 ++ c0.extractLsb' 5 3, ns := 0#4 ++ c0.extractLsb' 1 3 }) ∧
      (∀ c0 more, s.frame.rest = c0 :: more → s.frame.mod128 = false → c0.getLsbD 0 = true → c0.getLsbD 1 = false →
        gives { ftype := FrameType.ofCode (9 + (0#2 ++ c0.extractLsb' 2 2)), cr := cr, pf := c0.getLsbD 4, nrV := true,
                nsV := false, nr := 0#4 ++ c0.extractLsb' 5 3, ns := 0 }) ∧
      (∀ c0 c1 more, s.frame.rest = c0 :: c1 :: more → s.frame.mod128 = true → c0.getLsbD 0 = false →
        gives { ftype := .iFrame, cr := cr, pf := c1.getLsbD 0, nrV := true, nsV := true, nr := c1.extractLsb' 1 7,
                ns := c0.extractLsb' 1 7 }) ∧
      (∀ c0 c1 more, s.frame.rest = c0 :: c1 :: more → s.frame.mod128 = true → c0.getLsbD 0 = true →
        c0.getLsbD 1 = false →
        gives { ftype := FrameType.ofCode (9 + (0#2 ++ c0.extractLsb' 2 2)), cr := cr, pf := c1.getLsbD 0, nrV := true,
                nsV := false, nr := c1.extractLsb' 1 7, ns := 0 }) ∧
      (∀ c0, s.frame.rest = [c0] → s.frame.mod128 = true → c0.getLsbD 0 = false ∨ c0.getLsbD 1 = false →
        gives (notAx25 cr)))

/-- 41_frame.md R151 with R150 steps 1 to 5 and 7. -/
def Obligations.BuildUOutcomes : Prop :=
  ∀ (s : State) (sel : BitVec 4) (cr pf : Bool) (pid : Byte) (m128 : Bool),
    let i := Instr.buildU sel cr pf pid m128
    let k := findAddrBlock s.inBytes
    let info := s.inBytes.drop (7 * k)
    let mayCarry := sel.toNat ∈ [5, 6, 7, 8]
    (¬ inputFits s → exec i s = .next { s with code := .badLen }) ∧
    (inputFits s → 8 < sel.toNat → exec i s = .next { s with code := .badFtype }) ∧
    (inputFits s → sel.toNat ≤ 8 → k = 0 → exec i s = .next { s with code := .badAddrBlock }) ∧
    (inputFits s → sel.toNat ≤ 8 → k ≠ 0 → exec i s = .next { s with
      code := .ok,
      frame := frameOf m128 (cBits cr (imagesOf k s.inBytes))
        ([uValues.getD sel.toNat 0 ||| (if pf then 0x10 else 0x00)] ++ (if sel = 6 then [pidUsed pid] else [])
          ++ (if mayCarry then info.take s.params.maxInfoLen else [])),
      diag := s.diag
        ||| bitWhen (sel = 6 ∧ (pid = 0x00 ∨ pid = 0xFF)) 0
        ||| bitWhen (¬ mayCarry ∧ info ≠ []) 1
        ||| bitWhen (mayCarry ∧ s.params.maxInfoLen < info.length) 2
        ||| bitWhen ((sel.toNat ∈ [0, 1, 2] ∧ cr = false) ∨ (sel.toNat ∈ [3, 4, 5] ∧ cr = true)) 3 })

/-- 41_frame.md R152 with R150 steps 1, 2 and 4 to 7. -/
def Obligations.BuildSOutcomes : Prop :=
  ∀ (s : State) (sel : BitVec 4) (cr pf : Bool) (nr : BitVec 7) (m128 : Bool),
    let i := Instr.buildS sel cr pf nr m128
    let k := findAddrBlock s.inBytes
    let info := s.inBytes.drop (7 * k)
    let ss := sel.toNat - 9
    let n := seqUsed m128 nr
    (¬ inputFits s → exec i s = .next { s with code := .badLen }) ∧
    (inputFits s → sel.toNat < 9 ∨ 12 < sel.toNat → exec i s = .next { s with code := .badFtype }) ∧
    (inputFits s → 9 ≤ sel.toNat → sel.toNat ≤ 12 → k = 0 → exec i s = .next { s with code := .badAddrBlock }) ∧
    (inputFits s → 9 ≤ sel.toNat → sel.toNat ≤ 12 → k ≠ 0 → exec i s = .next { s with
      code := .ok,
      frame := frameOf m128 (cBits cr (imagesOf k s.inBytes))
        ((if m128 then [BitVec.ofNat 8 (4 * ss + 1), BitVec.ofNat 8 (2 * n + num pf)] else [sByte n pf ss])
          ++ (if sel = 12 then info.take s.params.maxInfoLen else [])),
      diag := s.diag
        ||| bitWhen (sel ≠ 12 ∧ info ≠ []) 1
        ||| bitWhen (sel = 12 ∧ s.params.maxInfoLen < info.length) 2
        ||| bitWhen (sel = 12 ∧ cr = true) 3
        ||| bitWhen (m128 = false ∧ 8 ≤ nr.toNat) 4 })

/-- 41_frame.md R153 with R150 steps 1 to 4, 6 and 7. -/
def Obligations.BuildIOutcomes : Prop :=
  ∀ (s : State) (cr pf : Bool) (nr ns : BitVec 7) (pid : Byte) (m128 : Bool),
    let i := Instr.buildI cr pf nr ns pid m128
    let k := findAddrBlock s.inBytes
    let info := s.inBytes.drop (7 * k)
    let n := seqUsed m128 nr
    let m := seqUsed m128 ns
    (¬ inputFits s → exec i s = .next { s with code := .badLen }) ∧
    (inputFits s → k = 0 → exec i s = .next { s with code := .badAddrBlock }) ∧
    (inputFits s → k ≠ 0 → exec i s = .next { s with
      code := .ok,
      frame := frameOf m128 (cBits cr (imagesOf k s.inBytes))
        ((if m128 then [BitVec.ofNat 8 (2 * m), BitVec.ofNat 8 (2 * n + num pf)] else [iByte n pf m])
          ++ [pidUsed pid] ++ info.take s.params.maxInfoLen),
      diag := s.diag
        ||| bitWhen (pid = 0x00 ∨ pid = 0xFF) 0
        ||| bitWhen (s.params.maxInfoLen < info.length) 2
        ||| bitWhen (m128 = false ∧ (8 ≤ nr.toNat ∨ 8 ≤ ns.toNat)) 4 })

/-- 41_frame.md R154: every frame a builder makes classifies as what was asked for. -/
def Obligations.BuiltFrameClassifiesBack : Prop :=
  ∀ (s t : State) (cr pf m128 : Bool),
    let crCode : BitVec 2 := if cr then 2 else 1
    (∀ sel pid, exec (.buildU sel cr pf pid m128) s = .next t → t.code = .ok →
      exec .frameClassify t = .next { t with resClass :=
        { ftype := FrameType.ofCode sel, cr := crCode, pf := pf, nrV := false, nsV := false, nr := 0, ns := 0 } }) ∧
    (∀ sel nr, exec (.buildS sel cr pf nr m128) s = .next t → t.code = .ok →
      exec .frameClassify t = .next { t with resClass :=
        { ftype := FrameType.ofCode sel, cr := crCode, pf := pf, nrV := true, nsV := false,
          nr := BitVec.ofNat 7 (seqUsed m128 nr), ns := 0 } }) ∧
    (∀ nr ns pid, exec (.buildI cr pf nr ns pid m128) s = .next t → t.code = .ok →
      exec .frameClassify t = .next { t with resClass :=
        { ftype := .iFrame, cr := crCode, pf := pf, nrV := true, nsV := true,
          nr := BitVec.ofNat 7 (seqUsed m128 nr), ns := BitVec.ofNat 7 (seqUsed m128 ns) } })

/-! ### The frame check sequence -/

/-- 42_fcs.md R182 and R183, which the spec marks "from general knowledge, not in source". -/
def Obligations.FcsCalcAndGenOutcomes : Prop :=
  ∀ s : State,
    let b := s.inBytes
    let f := fcs b
    (¬ inputFits s → exec .fcsCalc s = .next { s with code := .badLen } ∧
      exec .fcsGen s = .next { s with code := .badLen }) ∧
    (inputFits s → exec .fcsCalc s = .next { s with code := .ok, fcs := f }) ∧
    (inputFits s → s.params.bufCap < b.length + 2 → exec .fcsGen s = .next { s with code := .badLen }) ∧
    (inputFits s → b.length + 2 ≤ s.params.bufCap → exec .fcsGen s = .next { s with
      code := .ok, fcs := f, bufOut := b ++ [f.setWidth 8, (f >>> 8).setWidth 8], outGen := s.outGen + 1 })

/-- 42_fcs.md R184 ("from general knowledge, not in source"): the received string is the checked string and two bytes. -/
def Obligations.FcsCheckOutcomes : Prop :=
  ∀ s : State,
    (¬ inputFits s ∨ s.bufInLen.toNat < 2 → exec .fcsCheck s = .next { s with code := .badLen }) ∧
    (∀ (b : List Byte) (lo hi : Byte), inputFits s → s.inBytes = b ++ [lo, hi] →
      (lo = (fcs b).setWidth 8 → hi = (fcs b >>> 8).setWidth 8 →
        exec .fcsCheck s = .next { s with code := .ok, fcs := fcs b }) ∧
      (¬ (lo = (fcs b).setWidth 8 ∧ hi = (fcs b >>> 8).setWidth 8) →
        exec .fcsCheck s = .next { s with code := .fcsMismatch }))

/-- 42_fcs.md R185 ("from general knowledge, not in source"); the output always fits BUF_OUT. -/
def Obligations.FramePackFcsOutcomes : Prop :=
  ∀ s : State,
    let b := packed s.frame
    let f := fcs b
    (s.frame.valid = false → exec .framePackFcs s = .next { s with code := .noFrame }) ∧
    (s.frame.valid = true → exec .framePackFcs s = .next { s with
      code := .ok, fcs := f, bufOut := b ++ [f.setWidth 8, (f >>> 8).setWidth 8], outGen := s.outGen + 1 }) ∧
    (s.Inv → s.frame.valid = true → b.length + 2 ≤ s.params.bufCap)

/-- 42_fcs.md R180, R186 and R187 ("from general knowledge, not in source"): the loop, one byte at a time, the residue of a string
with its FCS, and the check value. -/
def Obligations.FcsResidueAndCheckValue : Prop :=
  fcsReg [] = 0xFFFF ∧
  (∀ (s : List Byte) (b : Byte), fcsReg (s ++ [b]) =
    (List.range 8).foldl (fun c _ => if c.getLsbD 0 then (c >>> 1) ^^^ 0x8408 else c >>> 1) (fcsReg s ^^^ b.setWidth 16)) ∧
  (∀ s : List Byte, fcs s = fcsReg s ^^^ 0xFFFF) ∧
  (∀ s : List Byte,
    fcsReg (s ++ [(fcs s).setWidth 8, (fcs s >>> 8).setWidth 8]) = 0xF0B8 ∧
    fcs (s ++ [(fcs s).setWidth 8, (fcs s >>> 8).setWidth 8]) = 0x0F47) ∧
  fcs [0x31, 0x32, 0x33, 0x34, 0x35, 0x36, 0x37, 0x38, 0x39] = 0x906E

/-- 42_fcs.md R184: FCS_CHECK passes exactly the strings whose register is the residue. -/
def Obligations.FcsCheckPassesExactlyTheResidue : Prop :=
  ∀ s : State, inputFits s → 2 ≤ s.bufInLen.toNat →
    ((∃ t, exec .fcsCheck s = .next t ∧ t.code = .ok) ↔ fcsReg s.inBytes = 0xF0B8)

/-! ### The IL2P header -/

/-- 43_il2p_header.md R202, R203 and R212: where the fields of the bit planes stand, and HDR_ATTR, which reads three of them. -/
def Obligations.HeaderFieldsAndHdrAttr : Prop :=
  ∀ s : State,
    let h := s.hdr
    (∀ k, k < 10 → (hdrCount h).getLsbD (9 - k) = (hdrByte h (2 + k)).getLsbD 7) ∧
    (∀ k, k < 4 → (hdrPid4 h).getLsbD (3 - k) = (hdrByte h (1 + k)).getLsbD 6) ∧
    (∀ k, k < 7 → (hdrCtl7 h).getLsbD (6 - k) = (hdrByte h (5 + k)).getLsbD 6) ∧
    hdrFec h = (hdrByte h 0).getLsbD 7 ∧ hdrType h = (hdrByte h 1).getLsbD 7 ∧ hdrUi h = (hdrByte h 0).getLsbD 6 ∧
    exec .hdrAttr s = .next { s with
      code := .ok,
      resHdr := { hdrType := (hdrByte h 1).getLsbD 7, maxFec := (hdrByte h 0).getLsbD 7, count := hdrCount h } }

/-- 43_il2p_header.md R210 with R209. -/
def Obligations.Hdr1EncOutcomes : Prop :=
  ∀ (s : State) (maxFec : Bool),
    let i := Instr.hdr1Enc maxFec
    let n := (infoField s.frame).length
    (s.frame.valid = false → exec i s = .next { s with code := .noFrame }) ∧
    (s.frame.valid = true → ¬ type1Encodable s.frame → exec i s = .next { s with code := .notEncodable }) ∧
    (s.frame.valid = true → type1Encodable s.frame → 1023 < n → exec i s = .next { s with code := .tooLong }) ∧
    (∀ d t, s.frame.valid = true → s.frame.addrs = [d, t] → type1Encodable s.frame → n ≤ 1023 →
      ∃ h, exec i s = .next { s with
          code := .ok, hdr := h, resInfoLen := BitVec.ofNat 11 n,
          resHdr := { hdrType := true, maxFec := maxFec, count := BitVec.ofNat 10 n } } ∧
        isType1Header s.frame d t maxFec h)

/-- 43_il2p_header.md R211. -/
def Obligations.Hdr0EncOutcomes : Prop :=
  ∀ (s : State) (maxFec : Bool),
    let i := Instr.hdr0Enc maxFec
    let l := s.frame.len
    (s.frame.valid = false → exec i s = .next { s with code := .noFrame }) ∧
    (s.frame.valid = true → l < 14 → exec i s = .next { s with code := .badLen }) ∧
    (s.frame.valid = true → 1023 < l → exec i s = .next { s with code := .tooLong }) ∧
    (s.frame.valid = true → 14 ≤ l → l ≤ 1023 →
      ∃ h, exec i s = .next { s with
          code := .ok, hdr := h, resInfoLen := 0,
          resHdr := { hdrType := false, maxFec := maxFec, count := BitVec.ofNat 10 l } } ∧
        isType0Header l maxFec h)

/-- 43_il2p_header.md R217: HDR_ATTR after a header encode that ended OK leaves RES_HDR as the encode wrote it. -/
def Obligations.EncodedHeaderAttributes : Prop :=
  ∀ (s t : State) (maxFec : Bool),
    (exec (.hdr1Enc maxFec) s = .next t → t.code = .ok →
      hdrType t.hdr = true ∧ (hdrCount t.hdr).toNat = (infoField s.frame).length ∧ exec .hdrAttr t = .next t) ∧
    (exec (.hdr0Enc maxFec) s = .next t → t.code = .ok →
      hdrType t.hdr = false ∧ (hdrCount t.hdr).toNat = s.frame.len ∧ exec .hdrAttr t = .next t)

/-- 43_il2p_header.md R213. -/
def Obligations.Hdr1DecOutcomes : Prop :=
  ∀ s : State,
    let h := s.hdr
    let ctl := hdrCtl7 h
    let pf := ctl.getLsbD 6
    let cr := ctl.getLsbD 2
    let mid := (ctl.extractLsb' 3 3).toNat
    let low3 := (ctl.extractLsb' 0 3).toNat
    let low2 := (ctl.extractLsb' 0 2).toNat
    (hdrBit h 1 7 = false → exec .hdr1Dec s = .next { s with code := .hdrReject }) ∧
    (∀ dst src, hdrBit h 1 7 = true → hdrCallIs h 0 dst → hdrCallIs h 6 src → ¬ (callOk dst ∧ callOk src) →
      exec .hdr1Dec s =
        .next { s with code := .hdrReject, diag := s.diag ||| bitWhen (s.corrHdr = 0) 5 }) ∧
    (∀ dst src, hdrBit h 1 7 = true → hdrCallIs h 0 dst → hdrCallIs h 6 src → callOk dst → callOk src →
      let gives := fun (c : Bool) (rest : List Byte) (illegal : Bool) =>
        exec .hdr1Dec s = .next { s with code := .ok, frame := frameOf false (hdrImages h dst src c) rest,
                                         diag := s.diag ||| bitWhen (illegal = true) 3 }
      (hdrBit h 0 6 = true →
        gives cr [0x03 ||| (if pf then 0x10 else 0x00), pidDecoded (hdrPid4 h)] false) ∧
      (hdrBit h 0 6 = false → hdrPid4 h = 0 → gives cr [sByte mid pf low2] (decide (low2 = 3) && cr)) ∧
      (hdrBit h 0 6 = false → hdrPid4 h = 1 →
        gives cr ([[0x2F, 0x43, 0x0F, 0x63, 0x87, 0x03, 0xAF, 0xE3].getD mid 0 ||| (if pf then 0x10#8 else 0x00)]
            ++ (if mid = 5 then [0xF0] else []))
          ((decide (mid < 2) && !cr) || (decide (2 ≤ mid) && decide (mid ≤ 4) && cr))) ∧
      (hdrBit h 0 6 = false → 2 ≤ (hdrPid4 h).toNat →
        gives true [iByte mid pf low3, pidDecoded (hdrPid4 h)] false))

/-- 43_il2p_header.md R214: RS decode, then descramble. -/
def Obligations.HdrClarifyOutcomes : Prop :=
  ∀ s : State,
    let c := s.inBytes.take 15
    (¬ inputFits s ∨ s.bufInLen.toNat < 15 → exec .hdrClarify s = .next { s with code := .badLen }) ∧
    (inputFits s → 15 ≤ s.bufInLen.toNat → rsDecode 2 c = none →
      exec .hdrClarify s = .next { s with code := .fecFail, corrHdr := 0xFF }) ∧
    (∀ c' m, inputFits s → 15 ≤ s.bufInLen.toNat → rsDecode 2 c = some (c', m) →
      ∃ h : Hdr, h.toList = descramble (c'.take 13) ∧ m ≤ 1 ∧
        exec .hdrClarify s = .next { s with
          code := .ok, hdr := h, corrHdr := BitVec.ofNat 8 m,
          resHdr := { hdrType := hdrBit h 1 7, maxFec := hdrBit h 0 7, count := hdrCount h } })

/-- 43_il2p_header.md R215: scramble, then RS encode with 2 parity symbols. -/
def Obligations.HdrEmitOutcome : Prop :=
  ∀ s : State, exec .hdrEmit s = .next { s with
      code := .ok, bufOut := scramble s.hdr.toList ++ rsParity 2 (scramble s.hdr.toList), outGen := s.outGen + 1 } ∧
    (scramble s.hdr.toList ++ rsParity 2 (scramble s.hdr.toList)).length = 15

/-- 43_il2p_header.md R215, with the contract of 00_scope.md R14: HDR_EMIT, XFER, HDR_CLARIFY leave HDR unchanged and CORR_HDR 0. -/
def Obligations.EmittedHeaderClarifiesBack : Prop :=
  ∀ (s t u : State), s.Inv → exec .hdrEmit s = .next t → exec .xfer t = .next u →
    ∃ v, exec .hdrClarify u = .next v ∧ v.code = .ok ∧ v.hdr = s.hdr ∧ v.corrHdr = 0

/-- 43_il2p_header.md R216, first part: what HDR1_DEC makes of a header HDR1_ENC made of a frame F. It rejects it exactly when a call
of F is empty or has a character outside [A-Z0-9]; else the decoded frame has F's calls, SSIDs, type, PF, N(R) and N(S), no
information, F's destination C bit (1 for an I frame) and its complement at the source, reserved bits 11, and PID
PidDec(PidEnc(PID)). -/
def Obligations.Type1HeaderDecodesBack : Prop :=
  ∀ (s t : State) (maxFec : Bool) (d a : AddrImage), exec (.hdr1Enc maxFec) s = .next t → t.code = .ok →
    s.frame.addrs = [d, a] →
    (¬ callsDecodable s.frame → ∃ u, exec .hdr1Dec t = .next u ∧ u.code = .hdrReject) ∧
    (callsDecodable s.frame → ∃ u d' a', exec .hdr1Dec t = .next u ∧ u.code = .ok ∧
      u.frame.valid = true ∧ u.frame.mod128 = false ∧ u.frame.addrs = [d', a'] ∧
      d'.chars = d.chars ∧ a'.chars = a.chars ∧ d'.ssid = d.ssid ∧ a'.ssid = a.ssid ∧ d'.rsv = 3 ∧ a'.rsv = 3 ∧
      d'.bit7 = (d.bit7 || decide ((classify s.frame).ftype = .iFrame)) ∧ a'.bit7 = !d'.bit7 ∧
      (classify u.frame).ftype = (classify s.frame).ftype ∧ (classify u.frame).pf = (classify s.frame).pf ∧
      (classify u.frame).nr = (classify s.frame).nr ∧ (classify u.frame).ns = (classify s.frame).ns ∧
      infoField u.frame = [] ∧
      pidField u.frame = ((pidField s.frame).bind pidEncoded).map pidDecoded)

/-! ### The planner -/

/-- 44_il2p_plan.md R240 with the formulas of R241: the registers PLAN writes. -/
def Obligations.PlanOutcome : Prop :=
  ∀ (s : State) (count : BitVec 10) (maxFec : Bool),
    (count = 0 → exec (.plan count maxFec) s = .next { s with code := .ok, plan := ⟨0, 0, 0, 0, 0, 0⟩ }) ∧
    (count ≠ 0 →
      let n := count.toNat
      let blocks := if maxFec then (n + 238) / 239 else (n + 246) / 247
      let small := n / blocks
      let larges := n - blocks * small
      let parity := if maxFec then 16 else if small ≤ 61 then 2 else if small ≤ 123 then 4 else if small ≤ 185 then 6
        else 8
      exec (.plan count maxFec) s = .next { s with
        code := .ok,
        plan := { smallSize := BitVec.ofNat 8 small, largeSize := BitVec.ofNat 8 (small + 1),
                  smallCount := BitVec.ofNat 5 (blocks - larges), largeCount := BitVec.ofNat 5 larges,
                  blockCount := BitVec.ofNat 5 blocks, parity := BitVec.ofNat 5 parity } })

/-- 44_il2p_plan.md R242 (invariants 1 to 3, 5 and 6, and that no smaller block count lets every block fit), with the block order of
R243: the blocks cover the payload once, in order. -/
def Obligations.PlanInvariants : Prop :=
  ∀ (n : Nat) (maxFec : Bool), 1 ≤ n → n ≤ 1023 →
    let p := planFor n maxFec
    p.smallCount * p.smallSize + p.largeCount * p.largeSize = n ∧
    p.largeSize = p.smallSize + 1 ∧
    (0 < p.largeCount → p.largeSize + p.parity ≤ 255) ∧ p.smallSize + p.parity ≤ 255 ∧
    (∀ b, 0 < b → b < p.blocks → 255 < (n + (b - 1)) / b + planParity (n / b) maxFec) ∧
    1 ≤ p.blocks ∧ p.blocks ≤ 5 ∧
    (maxFec = false → p.parity ∈ [2, 4, 6, 8]) ∧ (maxFec = true → p.parity = 16) ∧
    (∀ i, i < p.blocks → p.size i = if i < p.largeCount then p.largeSize else p.smallSize) ∧
    p.start p.blocks = n

/-- The plans of 44_il2p_plan.md R245 and R246: block count, small size and count, large size and count, parity, on-air length. -/
def Obligations.PlanWorkedExamples : Prop :=
  let row := fun (n : Nat) (f : Bool) =>
    let p := planFor n f
    [p.blocks, p.smallSize, p.smallCount, p.largeSize, p.largeCount, p.parity, payLen n f]
  row 1023 false = [5, 204, 2, 205, 3, 8, 1063] ∧ row 100 false = [1, 100, 1, 101, 0, 4, 104] ∧
  row 0 false = [0, 0, 0, 0, 0, 0, 0] ∧ row 0 true = [0, 0, 0, 0, 0, 0, 0] ∧
  row 1 false = [1, 1, 1, 2, 0, 2, 3] ∧ row 1 true = [1, 1, 1, 2, 0, 16, 17] ∧
  row 61 false = [1, 61, 1, 62, 0, 2, 63] ∧ row 62 false = [1, 62, 1, 63, 0, 4, 66] ∧
  row 123 false = [1, 123, 1, 124, 0, 4, 127] ∧ row 124 false = [1, 124, 1, 125, 0, 6, 130] ∧
  row 185 false = [1, 185, 1, 186, 0, 6, 191] ∧ row 186 false = [1, 186, 1, 187, 0, 8, 194] ∧
  row 247 false = [1, 247, 1, 248, 0, 8, 255] ∧ row 248 false = [2, 124, 2, 125, 0, 6, 260] ∧
  row 239 true = [1, 239, 1, 240, 0, 16, 255] ∧ row 240 true = [2, 120, 2, 121, 0, 16, 272] ∧
  row 495 false = [3, 165, 3, 166, 0, 6, 513] ∧ row 1023 true = [5, 204, 2, 205, 3, 16, 1103]

/-! ### IL2P frames -/

/-- 45_il2p_frame.md R261: type 1 where HDR1_ENC ends OK, type 0 where it is NOT_ENCODABLE; the header registers are those the header
command writes, and BUF_OUT is the on-air frame of R260. -/
def Obligations.Il2pEncodeOutcomes : Prop :=
  ∀ (s : State) (maxFec : Bool),
    let i := Instr.il2pEncode maxFec
    let f := s.frame
    let n := (infoField f).length
    let sends := fun (u : State) (p : List Byte) =>
      .next { u with plan := (planFor p.length maxFec).regs, outGen := s.outGen + 1,
                     bufOut := onAirBytes u.hdr (planFor p.length maxFec) p }
    (f.valid = false → exec i s = .next { s with code := .noFrame }) ∧
    (f.valid = true → type1Encodable f → 1023 < n → exec i s = .next { s with code := .tooLong }) ∧
    (f.valid = true → type1Encodable f → n ≤ 1023 →
      ∃ u, exec (.hdr1Enc maxFec) s = .next u ∧ u.code = .ok ∧ exec i s = sends u (infoField f)) ∧
    (f.valid = true → ¬ type1Encodable f → f.len < 14 → exec i s = .next { s with code := .badLen }) ∧
    (f.valid = true → ¬ type1Encodable f → 1023 < f.len → exec i s = .next { s with code := .tooLong }) ∧
    (f.valid = true → ¬ type1Encodable f → 14 ≤ f.len → f.len ≤ 1023 →
      ∃ u, exec (.hdr0Enc maxFec) s = .next u ∧ u.code = .ok ∧ exec i s = sends u (packed f))

/-- 44_il2p_plan.md R244, 45_il2p_frame.md R260: the length of the output, and that it fits BUF_OUT. -/
def Obligations.OnAirLength : Prop :=
  ∀ (s t : State) (maxFec : Bool), s.Inv → exec (.il2pEncode maxFec) s = .next t → t.code = .ok →
    t.bufOut.length = 15 + payLen (hdrCount t.hdr).toNat maxFec ∧ t.bufOut.length ≤ 1118 ∧
      t.bufOut.length ≤ t.params.bufCap

/-- 45_il2p_frame.md R262: every way IL2P_DECODE ends. `w` and `m` are what RsDecode answers for the blocks. -/
def Obligations.Il2pDecodeOutcomes : Prop :=
  ∀ (s : State) (m128 : Bool),
    let i := Instr.il2pDecode m128
    let b := s.inBytes
    (¬ inputFits s ∨ s.bufInLen.toNat < 15 → exec i s = .next { s with code := .badLen }) ∧
    (inputFits s → 15 ≤ s.bufInLen.toNat → rsDecode 2 (b.take 15) = none →
      exec i s = .next { s with code := .fecFail, corrHdr := 0xFF, corrPay := 0xFF }) ∧
    (∀ (c : List Byte) (mh : Nat) (h : Hdr), inputFits s → 15 ≤ s.bufInLen.toNat → rsDecode 2 (b.take 15) = some (c, mh) →
      h.toList = descramble (c.take 13) →
      let n := (hdrCount h).toNat
      let plan := planFor n (hdrFec h)
      let long := 15 + payLen n (hdrFec h) ≤ s.bufInLen.toNat
      (¬ long → exec i s = .next { s with code := .badLen }) ∧
      (long → ∀ dst src, hdrType h = true → hdrCallIs h 0 dst → hdrCallIs h 6 src → ¬ (callOk dst ∧ callOk src) →
        exec i s = .next { s with code := .hdrReject, diag := s.diag ||| bitWhen (mh = 0) 5 }) ∧
      (long → ∀ dst src, (hdrType h = true → hdrCallIs h 0 dst ∧ hdrCallIs h 6 src ∧ callOk dst ∧ callOk src) →
        (∃ j, j < plan.blocks ∧ rsDecode plan.parity (codeword plan b j) = none) →
        exec i s = .next { s with code := .fecFail, corrHdr := BitVec.ofNat 8 mh, corrPay := 0xFF }) ∧
      (long → ∀ (w : Nat → List Byte) (m : Nat → Nat),
        (∀ j, j < plan.blocks → rsDecode plan.parity (codeword plan b j) = some (w j, m j)) →
        let p := (List.range plan.blocks).flatMap fun j => descramble ((w j).take (plan.size j))
        let s' := { s with code := .ok, hdr := h, plan := plan.regs, corrHdr := BitVec.ofNat 8 mh,
                           resHdr := { hdrType := hdrType h, maxFec := hdrFec h, count := hdrCount h },
                           corrPay := BitVec.ofNat 8 ((List.range plan.blocks).map m).sum }
        (∀ dst src u, hdrType h = true → hdrCallIs h 0 dst → hdrCallIs h 6 src → callOk dst → callOk src →
          exec .hdr1Dec { s with hdr := h } = .next u →
          exec i s = .next { s' with frame := { u.frame with rest := u.frame.rest ++ p }, diag := u.diag }) ∧
        (hdrType h = false → s.params.minPacketLen ≤ n → n ≤ s.params.maxPacketLen →
          ∃ f, exec i s = .next { s' with frame := f } ∧ f.valid = true ∧ f.mod128 = m128 ∧
            f.naddr = findAddrBlock p ∧ f.addrs.flatMap AddrImage.bytes ++ f.rest = p) ∧
        (hdrType h = false → ¬ (s.params.minPacketLen ≤ n ∧ n ≤ s.params.maxPacketLen) →
          exec i s = .next { s with code := .badLen })))

/-- 45_il2p_frame.md R263: IL2P_ENCODE, XFER, IL2P_DECODE with M128 = F.MOD128. A type-0 frame of a loadable length packs to the same
bytes and keeps its modulo. A type-1 frame with decodable calls is the frame of R216 with F's information appended, and it is F, but
for the stored markers, which nothing reads (10_state.md R22), exactly under R216's conditions. CORR is 0. -/
def Obligations.Il2pRoundTrip : Prop :=
  ∀ (s t u : State) (maxFec : Bool), s.Inv → exec (.il2pEncode maxFec) s = .next t → t.code = .ok →
    exec .xfer t = .next u →
    (hdrType t.hdr = false → s.params.minPacketLen ≤ s.frame.len →
      ∃ v, exec (.il2pDecode s.frame.mod128) u = .next v ∧ v.code = .ok ∧ packed v.frame = packed s.frame ∧
        v.frame.mod128 = s.frame.mod128 ∧ v.corrHdr = 0 ∧ v.corrPay = 0) ∧
    (hdrType t.hdr = true → callsDecodable s.frame →
      ∃ g v, exec .hdr1Dec t = .next g ∧ g.code = .ok ∧ exec (.il2pDecode s.frame.mod128) u = .next v ∧ v.code = .ok ∧
        v.frame = { g.frame with rest := g.frame.rest ++ infoField s.frame } ∧ v.corrHdr = 0 ∧ v.corrPay = 0 ∧
        ∀ d a, s.frame.addrs = [d, a] → s.frame.callsEven →
          (v.frame = { s.frame with addrs := [{ d with a6 := d.a6 &&& 0xFE }, { a with a6 := a.a6 ||| 0x01 }] } ↔
            survivesType1 s.frame d a))

/-- 45_il2p_frame.md R264 with 60_exceptions.md R281: IL2P_DECODE fails only with BAD_LEN, HDR_REJECT or FEC_FAIL, and then leaves
FRAME, HDR, RES_HDR and the plan as they were. -/
def Obligations.Il2pDecodeErrorTiers : Prop :=
  ∀ (s t : State) (m128 : Bool), exec (.il2pDecode m128) s = .next t → t.code ≠ .ok →
    t.code ∈ [StatusCode.badLen, .hdrReject, .fecFail] ∧
    t.frame = s.frame ∧ t.hdr = s.hdr ∧ t.resHdr = s.resHdr ∧ t.plan = s.plan ∧
    (t.code = .fecFail → t.corrPay = 0xFF)
end

