-- ==== Sys2Proof/Laws/Operands.lean ====
section
/-! SUPPORT. Bits of bytes, address images, the address block of a byte string, and packing. -/

namespace Sys2Proof.Machine

/-! ### Bits of bytes -/

theorem setBit_getLsbD (b : Byte) {p : Nat} (hp : p < 8) (v : Bool) (i : Nat) :
    (setBit b p v).getLsbD i = if i = p then v else b.getLsbD i := by
  unfold setBit
  have hone : ∀ j, (1#8 <<< p).getLsbD j = decide (j = p) := by
    intro j
    rw [BitVec.getLsbD_shiftLeft, BitVec.getLsbD_one]
    by_cases h : j = p
    · subst h; simp [hp]
    · simp [h]
      omega
  by_cases hi : i < 8
  · cases v
    · simp only [Bool.false_eq_true, if_false, BitVec.getLsbD_and, BitVec.getLsbD_not, hone, hi, decide_true,
        Bool.true_and]
      by_cases h : i = p <;> simp [h]
    · simp only [if_true, BitVec.getLsbD_or, hone]
      by_cases h : i = p <;> simp [h]
  · have h : i ≠ p := by omega
    rw [if_neg h, BitVec.getLsbD_of_ge _ _ (by omega), BitVec.getLsbD_of_ge _ _ (by omega)]

@[simp] theorem setBit_self (b : Byte) (p : Nat) (hp : p < 8) : setBit b p (b.getLsbD p) = b := by
  apply BitVec.eq_of_getLsbD_eq
  intro i _
  rw [setBit_getLsbD b hp]
  split
  · next h => rw [h]
  · rfl

/-! ### Address images -/

@[simp] theorem AddrImage.bytes_length (a : AddrImage) : a.bytes.length = 7 := rfl

@[simp] theorem AddrImage.withLast_bit7 (a : AddrImage) (v : Bool) : (a.withLast v).bit7 = a.bit7 :=
  (setBit_getLsbD _ (by omega) v 7).trans (if_neg (by omega))

@[simp] theorem AddrImage.withLast_last (a : AddrImage) (v : Bool) : (a.withLast v).last = v :=
  (setBit_getLsbD _ (by omega) v 0).trans (if_pos rfl)

@[simp] theorem AddrImage.withBit7_bit7 (a : AddrImage) (v : Bool) : (a.withBit7 v).bit7 = v :=
  (setBit_getLsbD _ (by omega) v 7).trans (if_pos rfl)

@[simp] theorem AddrImage.withBit7_last (a : AddrImage) (v : Bool) : (a.withBit7 v).last = a.last :=
  (setBit_getLsbD _ (by omega) v 0).trans (if_neg (by omega))

/-- Writing the bit that stands there changes nothing. -/
@[simp] theorem AddrImage.withBit7_self (a : AddrImage) : a.withBit7 a.bit7 = a := by
  unfold AddrImage.withBit7 AddrImage.bit7
  rw [setBit_self _ _ (by omega)]

@[simp] theorem imagesOf_length (k : Nat) : ∀ s, (imagesOf k s).length = k := by
  induction k with
  | zero => intro s; rfl
  | succ k ih => intro s; simp [imagesOf, ih]

@[simp] theorem setCBits_length (cr : Bool) (l : List AddrImage) : (setCBits cr l).length = l.length := by
  match l with
  | [] => rfl
  | [_] => rfl
  | _ :: _ :: _ => rfl

@[simp] theorem packAddrs_length (l : List AddrImage) : (packAddrs l).length = 7 * l.length := by
  match l with
  | [] => rfl
  | [_] => rfl
  | _ :: b :: as =>
    have ih := packAddrs_length (b :: as)
    simp only [packAddrs, List.length_append, AddrImage.bytes_length, ih, List.length_cons]
    omega

/-- len(Pack(FRAME)) = FRAME_LEN (R144). -/
@[simp] theorem pack_length (f : Frame) : (pack f).length = f.len := by
  simp [pack, Frame.len]

/-! ### The address block -/

/-- What `FindAddrBlock` says when it finds a block of k addresses (R143): 2 to 10 of them, inside the string, and the first byte
with bit 0 set is the block's last. -/
theorem findAddrBlock_spec {s : List Byte} {k : Nat} (h : findAddrBlock s = k) (hk : k ≠ 0) :
    2 ≤ k ∧ k ≤ 10 ∧ 7 * k ≤ s.length ∧
      ∀ i, i < 7 * k → (s.getD i 0).getLsbD 0 = decide (i + 1 = 7 * k) := by
  unfold findAddrBlock at h
  split at h
  · exact absurd h.symm hk
  · next i hi =>
    simp only [Config.addrOctets, Config.minAddrs, Config.maxAddrs] at h
    by_cases hc : (i + 1) % 7 = 0 ∧ 2 ≤ (i + 1) / 7 ∧ (i + 1) / 7 ≤ 10
    · rw [if_pos hc] at h
      obtain ⟨h1, h2, h3⟩ := hc
      rw [List.findIdx?_eq_some_iff_getElem] at hi
      obtain ⟨hlt, hbit, hbefore⟩ := hi
      have hi7 : i + 1 = 7 * k := by omega
      refine ⟨by omega, by omega, by omega, ?_⟩
      intro j hj
      have hjl : j < s.length := by omega
      rw [List.getD_eq_getElem?_getD, List.getElem?_eq_getElem hjl, Option.getD_some]
      by_cases hji : j = i
      · subst hji
        simp [hi7, hbit]
      · have hlt' : j < i := by omega
        have := hbefore j hlt'
        have hne : ¬ j + 1 = 7 * k := by omega
        simp only [hne, decide_false]
        simpa using this
    · rw [if_neg hc] at h
      exact absurd h.symm hk

theorem findAddrBlock_le (s : List Byte) : findAddrBlock s ≤ 10 := by
  by_cases h : findAddrBlock s = 0
  · omega
  · exact (findAddrBlock_spec rfl h).2.1

theorem findAddrBlock_fits (s : List Byte) : 7 * findAddrBlock s ≤ s.length := by
  by_cases h : findAddrBlock s = 0
  · omega
  · exact (findAddrBlock_spec rfl h).2.2.1

/-- An image whose marker already is the positional one packs to the bytes it was read from. -/
theorem withLast_ofBytes {s : List Byte} {v : Bool} (h : (s.getD 6 0).getLsbD 0 = v) (hs : 7 ≤ s.length) :
    ((AddrImage.ofBytes s).withLast v).bytes = s.take 7 := by
  subst h
  match s, hs with
  | b0 :: b1 :: b2 :: b3 :: b4 :: b5 :: b6 :: t, _ =>
    simp only [AddrImage.ofBytes, AddrImage.withLast, AddrImage.bytes, List.getD_cons_zero, List.getD_cons_succ,
      List.take_succ_cons, List.take_zero, List.cons.injEq, and_true, true_and]
    exact setBit_self b6 0 (by omega)

/-- Images read from a block whose only marker is the block's last byte pack to the block. -/
theorem packAddrs_imagesOf (k : Nat) : ∀ (s : List Byte), 7 * k ≤ s.length →
    (∀ i, i < 7 * k → (s.getD i 0).getLsbD 0 = decide (i + 1 = 7 * k)) → packAddrs (imagesOf k s) = s.take (7 * k) := by
  induction k with
  | zero => intro s _ _; rfl
  | succ k ih =>
    intro s hs hm
    have h6 := hm 6 (by omega)
    match k, ih with
    | 0, _ =>
      simp only [imagesOf, packAddrs]
      exact withLast_ofBytes (by simpa using h6) (by omega)
    | k + 1, ih =>
      have hne : ¬ (6 + 1 = 7 * (k + 1 + 1)) := by omega
      have h6' : (s.getD 6 0).getLsbD 0 = false := by rw [h6]; simp only [hne, decide_false]
      have ht := ih (s.drop 7) (by rw [List.length_drop]; omega) (by
        intro i hi
        have := hm (7 + i) (by omega)
        simp only [List.getD_eq_getElem?_getD, List.getElem?_drop] at this ⊢
        rw [this]
        have e : (7 + i + 1 = 7 * (k + 1 + 1)) ↔ (i + 1 = 7 * (k + 1)) := by omega
        simp only [e])
      rw [imagesOf, Config.addrOctets, imagesOf, packAddrs]
      rw [imagesOf] at ht
      rw [ht, withLast_ofBytes h6' (by omega)]
      have e : 7 * (k + 1 + 1) = 7 + 7 * (k + 1) := by omega
      rw [e, List.take_add]

end Sys2Proof.Machine
end

