-- ==== Sys2Proof/Laws/Address.lean ====
section
/-! SUPPORT. Callsigns: trailing blanks, and that an encoded address decodes back (40_address.md R121 to R123). -/

namespace Sys2Proof.Machine

/-- A string whose end is all blanks loses them. -/
theorem stripBlanks_append_blanks (s : List Byte) (n : Nat) :
    stripBlanks (s ++ List.replicate n blankChar) = stripBlanks s := by
  unfold stripBlanks
  rw [List.reverse_append, List.reverse_replicate, List.dropWhile_append]
  have : (List.replicate n blankChar).dropWhile (· == blankChar) = [] := by
    rw [List.dropWhile_eq_nil_iff]
    intro x hx
    simp [(List.mem_replicate.mp hx).2]
  simp [this]

/-- A string that does not end in a blank keeps its end. -/
theorem stripBlanks_of_last {s : List Byte} (h : s = [] ∨ s.getLast? ≠ some blankChar) : stripBlanks s = s := by
  unfold stripBlanks
  rcases h with rfl | h
  · rfl
  · rw [← List.head?_reverse] at h
    cases hr : s.reverse with
    | nil => simp [List.reverse_eq_nil_iff.mp hr]
    | cons c t =>
      rw [hr] at h
      have hc : (c == blankChar) = false := by simpa using h
      rw [List.dropWhile_cons, hc]
      simp [← hr]

/-- k characters are left where only blanks follow them and the last of them is none (log 12). -/
theorem stripBlanks_eq_take {s : List Byte} {k : Nat} (hk : k ≤ s.length)
    (hb : ∀ j, k ≤ j → j < s.length → s.getD j 0 = blankChar) (hl : k = 0 ∨ s.getD (k - 1) 0 ≠ blankChar) :
    stripBlanks s = s.take k := by
  have hs : s = s.take k ++ List.replicate (s.length - k) blankChar := by
    apply List.ext_getElem?
    intro j
    by_cases hj : j < k
    · rw [List.getElem?_append_left (by rw [List.length_take]; omega), List.getElem?_take_of_lt hj]
    · rw [List.getElem?_append_right (by rw [List.length_take]; omega), List.length_take, Nat.min_eq_left hk,
        List.getElem?_replicate]
      by_cases hjl : j < s.length
      · have := hb j (by omega) hjl
        rw [List.getD_eq_getElem?_getD, List.getElem?_eq_getElem hjl, Option.getD_some] at this
        rw [if_pos (by omega), List.getElem?_eq_getElem hjl, this]
      · rw [if_neg (by omega), List.getElem?_eq_none (by omega)]
  conv_lhs => rw [hs]
  rw [stripBlanks_append_blanks]
  apply stripBlanks_of_last
  rcases hl with rfl | hl
  · exact .inl (List.take_zero ..)
  · by_cases h0 : k = 0
    · subst h0
      exact .inl (List.take_zero ..)
    · right
      rw [List.getLast?_eq_getElem?, List.length_take, Nat.min_eq_left hk, List.getElem?_take_of_lt (by omega),
        List.getElem?_eq_getElem (by omega)]
      rw [List.getD_eq_getElem?_getD, List.getElem?_eq_getElem (by omega), Option.getD_some] at hl
      simpa using hl

/-- What is stripped is the blanks at the end. -/
theorem stripBlanks_spec (s : List Byte) :
    stripBlanks s ++ List.replicate (s.length - (stripBlanks s).length) blankChar = s ∧
      (stripBlanks s = [] ∨ (stripBlanks s).getLast? ≠ some blankChar) := by
  have hsplit := List.takeWhile_append_dropWhile (p := (· == blankChar)) (l := s.reverse)
  have hs : stripBlanks s ++ (s.reverse.takeWhile (· == blankChar)).reverse = s := by
    unfold stripBlanks
    rw [← List.reverse_append, hsplit, List.reverse_reverse]
  have hrep : (s.reverse.takeWhile (· == blankChar)).reverse =
      List.replicate (s.reverse.takeWhile (· == blankChar)).length blankChar := by
    rw [List.eq_replicate_iff]
    refine ⟨by simp, fun b hb => ?_⟩
    have := List.mem_takeWhile_imp (List.mem_reverse.mp hb)
    simpa using this
  have hl := congrArg List.length hs
  rw [List.length_append, List.length_reverse] at hl
  refine ⟨?_, ?_⟩
  · rw [show s.length - (stripBlanks s).length = (s.reverse.takeWhile (· == blankChar)).length by omega, ← hrep]
    exact hs
  · unfold stripBlanks
    cases hd : s.reverse.dropWhile (· == blankChar) with
    | nil => exact .inl rfl
    | cons c t =>
      right
      rw [← List.head?_reverse, List.reverse_reverse, List.head?_cons]
      intro e
      have := List.head_dropWhile_not (p := (· == blankChar)) (l := s.reverse) (by rw [hd]; exact List.cons_ne_nil _ _)
      simp only [hd, List.head_cons] at this
      rw [Option.some.inj e] at this
      simp at this

theorem stripBlanks_length_le (s : List Byte) : (stripBlanks s).length ≤ s.length := by
  unfold stripBlanks
  rw [List.length_reverse]
  exact (List.dropWhile_suffix _).length_le.trans (by simp)

/-- A call character is not the blank, is a SIXBIT code, and comes back from its shifted octet. -/
theorem callChar_spec {c : Byte} (h : isCallChar c = true) :
    c ≠ blankChar ∧ (c <<< 1) >>> 1 = c ∧ 0x20 ≤ c.toNat ∧ c.toNat ≤ 0x5F := by
  revert c
  decide

/-- The six characters of an encoded call of at most six octets: the call, then blanks. -/
theorem addrEncode_chars {call : List Byte} (hv : validCall call = true) (ssid : BitVec 4) (bit7 last : Bool) :
    (addrEncode call ssid bit7 last).chars = call ++ List.replicate (6 - call.length) blankChar := by
  simp only [validCall, Bool.and_eq_true, decide_eq_true_eq, Config.callMax] at hv
  obtain ⟨hl, hc⟩ := hv
  have hc' : ∀ c ∈ call, (c <<< 1) >>> 1 = c := fun c h => (callChar_spec (List.all_eq_true.mp hc c h)).2.1
  have hb : (blankChar <<< 1) >>> 1 = blankChar := by decide
  simp only [AddrImage.chars, addrEncode, callOctet]
  match call, hl, hc' with
  | [], _, _ => simp [hb, List.replicate]
  | [a], _, h => simp_all [List.replicate]
  | [a, b], _, h => simp_all [List.replicate]
  | [a, b, c], _, h => simp_all [List.replicate]
  | [a, b, c, d], _, h => simp_all [List.replicate]
  | [a, b, c, d, e], _, h => simp_all
  | [a, b, c, d, e, f], _, h => simp_all

/-- An encoded call decodes back. -/
theorem addrDecodeCall_addrEncode {call : List Byte} (hv : validCall call = true) (ssid : BitVec 4) (bit7 last : Bool) :
    addrDecodeCall (addrEncode call ssid bit7 last) = call := by
  unfold addrDecodeCall
  rw [addrEncode_chars hv, stripBlanks_append_blanks]
  apply stripBlanks_of_last
  simp only [validCall, Bool.and_eq_true] at hv
  by_cases h0 : call = []
  · exact .inl h0
  · right
    rw [List.getLast?_eq_some_getLast h0]
    intro e
    exact (callChar_spec (List.all_eq_true.mp hv.2 _ (List.getLast_mem h0))).1 (Option.some.inj e)

/-- Octet 6 of an encoded address, field by field (R92). -/
theorem flagsOctet_eq (ssid : BitVec 4) (bit7 last : Bool) :
    flagsOctet ssid bit7 last = BitVec.ofBool bit7 ++ 0b11#2 ++ ssid ++ BitVec.ofBool last := by
  revert ssid bit7 last
  decide

@[simp] theorem addrEncode_ssid (call : List Byte) (ssid : BitVec 4) (bit7 last : Bool) :
    (addrEncode call ssid bit7 last).ssid = ssid := by
  revert ssid bit7 last
  show ∀ ssid bit7 last, (flagsOctet ssid bit7 last).extractLsb' 1 4 = ssid
  decide

@[simp] theorem addrEncode_bit7 (call : List Byte) (ssid : BitVec 4) (bit7 last : Bool) :
    (addrEncode call ssid bit7 last).bit7 = bit7 := by
  revert ssid bit7 last
  show ∀ ssid bit7 last, (flagsOctet ssid bit7 last).getLsbD 7 = bit7
  decide

@[simp] theorem addrEncode_rsv (call : List Byte) (ssid : BitVec 4) (bit7 last : Bool) :
    (addrEncode call ssid bit7 last).rsv = 3 := by
  revert ssid bit7 last
  show ∀ ssid bit7 last, (flagsOctet ssid bit7 last).extractLsb' 5 2 = 3
  decide

@[simp] theorem addrEncode_last (call : List Byte) (ssid : BitVec 4) (bit7 last : Bool) :
    (addrEncode call ssid bit7 last).last = last := by
  revert ssid bit7 last
  show ∀ ssid bit7 last, (flagsOctet ssid bit7 last).getLsbD 0 = last
  decide

/-- The C bits HDR1_DEC encodes are already those a builder sets. -/
theorem setCBits_addrEncode (c : Bool) (dst src : List Byte) (sd ss : BitVec 4) (ld ls : Bool) :
    setCBits c [addrEncode dst sd c ld, addrEncode src ss (!c) ls] =
      [addrEncode dst sd c ld, addrEncode src ss (!c) ls] := by
  have h : ∀ call ssid b l, (addrEncode call ssid b l).withBit7 b = addrEncode call ssid b l := fun call ssid b l => by
    have h := AddrImage.withBit7_self (addrEncode call ssid b l)
    rwa [addrEncode_bit7] at h
  simp only [setCBits, h]

/-- Inserting into and removing from the list of addresses (R128, R129). -/
theorem insertAt_eq_insertIdx (l : List AddrImage) : ∀ (n : Nat) (a : AddrImage), n ≤ l.length →
    insertAt l n a = l.insertIdx n a := by
  unfold insertAt
  induction l with
  | nil =>
    intro n a h
    obtain rfl : n = 0 := by simpa using h
    rfl
  | cons b l ih =>
    intro n a h
    cases n with
    | zero => rfl
    | succ n => simpa using ih n a (by simpa using h)

theorem removeAt_eq_eraseIdx (l : List AddrImage) (n : Nat) : removeAt l n = l.eraseIdx n := by
  rw [removeAt, List.eraseIdx_eq_take_drop_succ]

/-- An image is the one its octets begin. -/
@[simp] theorem AddrImage.ofBytes_bytes (a : AddrImage) : AddrImage.ofBytes a.bytes = a := rfl

end Sys2Proof.Machine
end

