-- ==== Sys2Proof/Laws/Frame.lean ====
section
/-! SUPPORT. Loading and packing (41_frame.md R144, R145), what the builders make (R150 to R153), and how their control fields
classify (R148). -/

namespace Sys2Proof.Machine

/-! ### Load and pack -/

@[simp] theorem loadFrame_naddr (s : List Byte) (m : Bool) : (loadFrame s m).naddr = findAddrBlock s := by
  simp [loadFrame, Frame.naddr]

/-- A loaded frame is as long as the string it was loaded from. -/
@[simp] theorem loadFrame_len (s : List Byte) (m : Bool) : (loadFrame s m).len = s.length := by
  have := findAddrBlock_fits s
  simp only [Frame.len, Frame.naddr, Frame.restLen, loadFrame, imagesOf_length, List.length_drop, Config.addrOctets]
  omega

/-- The images of a string's first 7k bytes hold exactly these bytes. -/
theorem imagesOf_bytes (k : Nat) : ∀ (s : List Byte), 7 * k ≤ s.length →
    (imagesOf k s).flatMap AddrImage.bytes ++ s.drop (7 * k) = s := by
  induction k with
  | zero => intro s _; rfl
  | succ k ih =>
    intro s hs
    have hrest := ih (s.drop 7) (by rw [List.length_drop]; omega)
    rw [List.drop_drop, show 7 + 7 * k = 7 * (k + 1) by omega] at hrest
    rw [imagesOf, List.flatMap_cons, List.append_assoc, Config.addrOctets, hrest]
    match s, (by omega : 7 ≤ s.length) with
    | _ :: _ :: _ :: _ :: _ :: _ :: _ :: _, _ => rfl

/-- A loaded frame holds exactly the bytes of the string (R145). -/
theorem loadFrame_bytes (s : List Byte) (m : Bool) :
    (loadFrame s m).addrs.flatMap AddrImage.bytes ++ (loadFrame s m).rest = s :=
  imagesOf_bytes _ _ (findAddrBlock_fits s)

/-- Packing a loaded frame gives the string back (R155). -/
@[simp] theorem pack_loadFrame (s : List Byte) (m : Bool) : pack (loadFrame s m) = s := by
  unfold pack loadFrame
  simp only [Config.addrOctets]
  by_cases h : findAddrBlock s = 0
  · simp [h, imagesOf, packAddrs]
  · obtain ⟨-, -, h7, hb⟩ := findAddrBlock_spec rfl h
    rw [packAddrs_imagesOf _ _ h7 hb, List.take_append_drop]

/-! ### Builders -/

@[simp] theorem builtInfo_nil (p : Params) (ft : FrameType) : builtInfo p ft [] = [] := by
  simp [builtInfo]

@[simp] theorem infoDiag_nil (p : Params) (ft : FrameType) : infoDiag p ft [] = 0#6 := by
  simp [infoDiag, infoOver, diagIf]

/-- The information of a type that may carry it is cut to MAX_INFO_LEN. -/
theorem builtInfo_take {p : Params} {ft : FrameType} (h : ft.mayCarryInfo = true) (info : List Byte) :
    builtInfo p ft info = info.take p.maxInfoLen := by
  unfold builtInfo infoOver
  rw [if_pos h]
  by_cases hl : p.maxInfoLen < info.length
  · simp [hl]
  · simp only [hl, decide_false, Bool.false_eq_true, if_false]
    exact (List.take_of_length_le (by omega)).symm

theorem builtInfo_length_le (p : Params) (ft : FrameType) (info : List Byte) :
    (builtInfo p ft info).length ≤ p.maxInfoLen := by
  by_cases h : ft.mayCarryInfo = true
  · rw [builtInfo_take h, List.length_take]
    omega
  · simp [builtInfo, h]

@[simp] theorem builtFrame_valid (l : List AddrImage) (cr m : Bool) (r : List Byte) :
    (builtFrame l cr m r).valid = true := rfl

@[simp] theorem builtFrame_mod128 (l : List AddrImage) (cr m : Bool) (r : List Byte) :
    (builtFrame l cr m r).mod128 = m := rfl

@[simp] theorem builtFrame_addrs (l : List AddrImage) (cr m : Bool) (r : List Byte) :
    (builtFrame l cr m r).addrs = setCBits cr l := rfl

@[simp] theorem builtFrame_rest (l : List AddrImage) (cr m : Bool) (r : List Byte) :
    (builtFrame l cr m r).rest = r := rfl

theorem sControl_length (ft : FrameType) (pf : Bool) (nr : BitVec 7) (m : Bool) :
    (sControl ft pf nr m).length = if m then 2 else 1 := by
  cases m <;> rfl

theorem iControl_length (pf : Bool) (nr ns : BitVec 7) (m : Bool) :
    (iControl pf nr ns m).length = if m then 2 else 1 := by
  cases m <;> rfl

/-- A built frame's REST is at most the control field, a PID and MAX_INFO_LEN bytes of information. -/
theorem buildU_rest_le (p : Params) (ft : FrameType) (cr pf : Bool) (pid : Byte) (m : Bool) (l : List AddrImage)
    (info : List Byte) : (buildU p ft cr pf pid m l info).frame.rest.length ≤ 2 + p.maxInfoLen := by
  have := builtInfo_length_le p ft info
  simp only [buildU, builtFrame_rest, List.length_append, List.length_cons]
  split <;> simp <;> omega

theorem buildS_rest_le (p : Params) (ft : FrameType) (cr pf : Bool) (nr : BitVec 7) (m : Bool) (l : List AddrImage)
    (info : List Byte) : (buildS p ft cr pf nr m l info).frame.rest.length ≤ 2 + p.maxInfoLen := by
  have := builtInfo_length_le p ft info
  simp only [buildS, builtFrame_rest, List.length_append, sControl_length]
  split <;> omega

theorem buildI_rest_le (p : Params) (cr pf : Bool) (nr ns : BitVec 7) (pid : Byte) (m : Bool) (l : List AddrImage)
    (info : List Byte) : (buildI p cr pf nr ns pid m l info).frame.rest.length ≤ 3 + p.maxInfoLen := by
  have := builtInfo_length_le p .iFrame info
  simp only [buildI, builtFrame_rest, List.length_append, iControl_length, List.length_cons, List.length_nil]
  split <;> omega

/-! ### What CLASSIFY can answer (R148) -/

/-- A class has a PID exactly where its type has one (R90). -/
theorem classify_hasPid (f : Frame) : (classify f).hasPid = (classify f).ftype.hasPid := by
  unfold classify
  repeat' split
  all_goals rfl

/-- Which types have sequence numbers: I frames both, S frames N(R) only, all others none. -/
def FrameClass.Shape (c : FrameClass) : Prop :=
  (c.ftype ∈ [FrameType.sRr, .sRnr, .sRej, .sSrej] → ∃ n, c.nr = some n ∧ c.ns = none) ∧
  (c.ftype = .iFrame → ∃ n m, c.nr = some n ∧ c.ns = some m) ∧
  (c.ftype ∉ [FrameType.sRr, .sRnr, .sRej, .sSrej, .iFrame] → c.nr = none ∧ c.ns = none)

theorem classify_shape (f : Frame) : (classify f).Shape := by
  have hn : ∀ cr, (notAx25Class cr).Shape := by
    intro cr
    have nt : FrameType.notAx25 ∉ [FrameType.sRr, .sRnr, .sRej, .sSrej] ∧ FrameType.notAx25 ≠ .iFrame := by decide
    exact ⟨fun h => absurd h nt.1, fun h => absurd h nt.2, fun _ => ⟨rfl, rfl⟩⟩
  have hu : ∀ cr c0, (classifyU cr c0).Shape := by
    intro cr c0
    have ut : uTypeOf c0 ∉ [FrameType.sRr, .sRnr, .sRej, .sSrej] ∧ uTypeOf c0 ≠ .iFrame := by
      unfold uTypeOf
      generalize c0 &&& 0xEF = x
      revert x
      decide
    exact ⟨fun h => absurd h ut.1, fun h => absurd h ut.2, fun _ => ⟨rfl, rfl⟩⟩
  have hi : ∀ c : FrameClass, c.ftype = .iFrame → ∀ n m, c.nr = some n → c.ns = some m → c.Shape := by
    intro c hf n m h1 h2
    refine ⟨fun h => ?_, fun _ => ⟨n, m, h1, h2⟩, fun h => ?_⟩ <;> rw [hf] at h
    · exact absurd h (by decide)
    · exact absurd h (by decide)
  have hs : ∀ (c : FrameClass) x, c.ftype = FrameType.ofSs x → ∀ n, c.nr = some n → c.ns = none → c.Shape := by
    intro c x hf n h1 h2
    have ss : ∀ x, FrameType.ofSs x ≠ .iFrame ∧ FrameType.ofSs x ∈ [FrameType.sRr, .sRnr, .sRej, .sSrej, .iFrame] := by
      decide
    exact ⟨fun _ => ⟨n, h1, h2⟩, fun h => absurd (hf ▸ h) (ss x).1, fun h => absurd (hf ▸ (ss x).2) h⟩
  unfold classify
  repeat' split
  all_goals first
    | exact hn _
    | exact hu _ _
    | exact hi _ rfl _ _ rfl rfl
    | exact hs _ _ rfl _ rfl rfl

/-- The sequence numbers of a modulo-8 frame have three bits. -/
theorem classify_narrow {f : Frame} (h : f.mod128 = false) :
    (∃ x : BitVec 3, (classify f).nr.getD 0 = x.setWidth 7) ∧ ∃ x : BitVec 3, (classify f).ns.getD 0 = x.setWidth 7 := by
  unfold classify
  simp only [h, Bool.false_eq_true, if_false]
  repeat' split
  all_goals
    simp only [notAx25Class, classifyU, classify8, Option.getD_none, Option.getD_some]
    first
    | exact ⟨⟨_, rfl⟩, ⟨_, rfl⟩⟩
    | exact ⟨⟨_, rfl⟩, 0, rfl⟩
    | exact ⟨⟨0, rfl⟩, 0, rfl⟩

/-! ### Built control fields classify as what was built (R154) -/

/-- A sequence number a builder uses in modulo 8 has three bits. -/
theorem maskSeq_narrow_exists (n : BitVec 7) : ∃ x : BitVec 3, maskSeq false n = x.setWidth 7 := by
  refine ⟨n.setWidth 3, ?_⟩
  revert n
  decide

@[simp] theorem maskSeq_true (n : BitVec 7) : maskSeq true n = n := by
  revert n
  decide

/-- The sequence number used is N modulo MODULO (R150 step 6). -/
theorem maskSeq_toNat (m : Bool) (n : BitVec 7) : (maskSeq m n).toNat = if m then n.toNat else n.toNat % 8 := by
  revert m n
  decide

theorem seqBad_iff (m : Bool) (n : BitVec 7) : seqBad m n = decide (m = false ∧ 8 ≤ n.toNat) := by
  revert m n
  decide

/-- The C bits of a built frame, as CLASSIFY reads them. -/
theorem crPair_setCBits (cr : Bool) {l : List AddrImage} (h : 2 ≤ l.length) :
    crPair (setCBits cr l) = if cr then 2 else 1 := by
  match l, h with
  | d :: t :: as, _ =>
    have : crPair (setCBits cr (d :: t :: as)) = BitVec.ofBool (d.withBit7 cr).bit7 ++ BitVec.ofBool (t.withBit7 !cr).bit7 :=
      rfl
    rw [this, AddrImage.withBit7_bit7, AddrImage.withBit7_bit7]
    cases cr <;> rfl

theorem setCBits_cons (cr : Bool) {l : List AddrImage} (h : 2 ≤ l.length) : ∃ a as, setCBits cr l = a :: as := by
  match l, h with
  | _ :: _ :: _, _ => exact ⟨_, _, rfl⟩

/-- A U control byte classifies as its type. -/
theorem uControl_spec {ft : FrameType} (h : ft ∈ FrameType.uTypes) (pf : Bool) :
    (uControl ft pf).getLsbD 0 = true ∧ (uControl ft pf).getLsbD 1 = true ∧ uTypeOf (uControl ft pf) = ft ∧
      (uControl ft pf).getLsbD 4 = pf := by
  cases ft <;> first | (exact absurd h (by decide)) | (cases pf <;> decide)

theorem classify_buildU (p : Params) {ft : FrameType} (hft : ft ∈ FrameType.uTypes) (cr pf : Bool) (pid : Byte) (m : Bool)
    {l : List AddrImage} (h : 2 ≤ l.length) (info : List Byte) :
    classify (buildU p ft cr pf pid m l info).frame =
      { ftype := ft, cr := if cr then 2 else 1, pf := pf, nr := none, ns := none, ctlLen := 1, hasPid := ft.hasPid } := by
  obtain ⟨a, as, ha⟩ := setCBits_cons cr h
  have hcr := crPair_setCBits cr h
  rw [ha] at hcr
  obtain ⟨h0, h1, h2, h3⟩ := uControl_spec hft pf
  unfold classify
  simp only [buildU, builtFrame_addrs, builtFrame_rest, hcr, ha, List.cons_append, h0, h1, Bool.and_true,
    if_true, classifyU, h2, h3]

/-- The control field of an S frame holds its type, P/F and N(R), in either modulo. -/
theorem sControl_spec {ft : FrameType} (h : ft ∈ [FrameType.sRr, .sRnr, .sRej, .sSrej]) :
    (∀ (pf : Bool) (x : BitVec 3), ∃ c, sControl ft pf (x.setWidth 7) false = [c] ∧ c.getLsbD 0 = true ∧
      c.getLsbD 1 = false ∧ FrameType.ofSs (c.extractLsb' 2 2) = ft ∧ c.getLsbD 4 = pf ∧
      (c.extractLsb' 5 3).setWidth 7 = x.setWidth 7) ∧
    (∀ (pf : Bool) (x : BitVec 7), ∃ c c', sControl ft pf x true = [c, c'] ∧ c.getLsbD 0 = true ∧
      c.getLsbD 1 = false ∧ FrameType.ofSs (c.extractLsb' 2 2) = ft ∧ c'.getLsbD 0 = pf ∧ c'.extractLsb' 1 7 = x) := by
  refine ⟨fun pf x => ⟨_, rfl, ?_⟩, fun pf x => ⟨_, _, rfl, ?_⟩⟩ <;> revert x pf
  all_goals cases ft <;> first | (exact absurd h (by decide)) | decide

/-- The control field of an I frame holds its P/F, N(R) and N(S), in either modulo. -/
theorem iControl_spec :
    (∀ (pf : Bool) (x y : BitVec 3), ∃ c, iControl pf (x.setWidth 7) (y.setWidth 7) false = [c] ∧ c.getLsbD 0 = false ∧
      c.getLsbD 4 = pf ∧ (c.extractLsb' 5 3).setWidth 7 = x.setWidth 7 ∧
      (c.extractLsb' 1 3).setWidth 7 = y.setWidth 7) ∧
    (∀ (pf : Bool) (x y : BitVec 7), ∃ c c', iControl pf x y true = [c, c'] ∧ c.getLsbD 0 = false ∧
      c.extractLsb' 1 7 = y ∧ c'.getLsbD 0 = pf ∧ c'.extractLsb' 1 7 = x) := by
  refine ⟨fun pf x y => ⟨_, rfl, ?_⟩, fun pf x y => ⟨_, _, rfl, ?_⟩⟩
  · revert pf x y
    decide
  · refine ⟨?_, ?_, ?_⟩
    · revert y
      decide
    · revert y
      decide
    · revert pf x
      decide

theorem classify_buildS (p : Params) {ft : FrameType} (hft : ft ∈ [FrameType.sRr, .sRnr, .sRej, .sSrej]) (cr pf : Bool)
    (nr : BitVec 7) (m : Bool) {l : List AddrImage} (h : 2 ≤ l.length) (info : List Byte) :
    classify (buildS p ft cr pf nr m l info).frame =
      { ftype := ft, cr := if cr then 2 else 1, pf := pf, nr := some (maskSeq m nr), ns := none,
        ctlLen := if m then 2 else 1, hasPid := false } := by
  obtain ⟨a, as, ha⟩ := setCBits_cons cr h
  have hcr := crPair_setCBits cr h
  rw [ha] at hcr
  have hp : ft.hasPid = false := by
    cases ft <;> first | (exact absurd hft (by decide)) | rfl
  unfold classify
  simp only [buildS, builtFrame_addrs, builtFrame_rest, builtFrame_mod128, hcr, ha]
  cases m
  · obtain ⟨x, hx⟩ := maskSeq_narrow_exists nr
    obtain ⟨c, hc, h0, h1, h2, h3, h4⟩ := (sControl_spec hft).1 pf x
    simp only [hx, hc, h0, h1, h2, h3, h4, classify8, hp, List.cons_append, List.nil_append, Bool.and_false,
      Bool.false_eq_true, Bool.true_eq_false, if_false]
  · obtain ⟨c, c', hc, h0, h1, h2, h3, h4⟩ := (sControl_spec hft).2 pf (maskSeq true nr)
    simp only [hc, h0, h1, h2, h3, h4, classify128, hp, List.cons_append, List.nil_append, Bool.and_false,
      Bool.false_eq_true, Bool.true_eq_false, if_false, if_true]

theorem classify_buildI (p : Params) (cr pf : Bool) (nr ns : BitVec 7) (pid : Byte) (m : Bool)
    {l : List AddrImage} (h : 2 ≤ l.length) (info : List Byte) :
    classify (buildI p cr pf nr ns pid m l info).frame =
      { ftype := .iFrame, cr := if cr then 2 else 1, pf := pf, nr := some (maskSeq m nr), ns := some (maskSeq m ns),
        ctlLen := if m then 2 else 1, hasPid := true } := by
  obtain ⟨a, as, ha⟩ := setCBits_cons cr h
  have hcr := crPair_setCBits cr h
  rw [ha] at hcr
  unfold classify
  simp only [buildI, builtFrame_addrs, builtFrame_rest, builtFrame_mod128, hcr, ha]
  cases m
  · obtain ⟨x, hx⟩ := maskSeq_narrow_exists nr
    obtain ⟨y, hy⟩ := maskSeq_narrow_exists ns
    obtain ⟨c, hc, h0, h1, h2, h3⟩ := iControl_spec.1 pf x y
    simp only [hx, hy, hc, h0, h1, h2, h3, classify8, FrameType.hasPid, List.cons_append, List.nil_append,
      Bool.false_and, Bool.false_eq_true, if_false, if_true]
  · obtain ⟨c, c', hc, h0, h1, h2, h3⟩ := iControl_spec.2 pf (maskSeq true nr) (maskSeq true ns)
    simp only [maskSeq_true] at hc h1 h3
    simp only [maskSeq_true, hc, h0, h1, h2, h3, classify128, FrameType.hasPid, List.cons_append, List.nil_append,
      Bool.false_and, Bool.false_eq_true, if_false, if_true]

/-! ### The information and PID of a built frame (R149) -/

theorem infoOf_buildU (p : Params) {ft : FrameType} (hft : ft ∈ FrameType.uTypes) (cr pf : Bool) (pid : Byte) (m : Bool)
    {l : List AddrImage} (h : 2 ≤ l.length) (info : List Byte) :
    infoOf (buildU p ft cr pf pid m l info).frame = builtInfo p ft info ∧
      pidOf (buildU p ft cr pf pid m l info).frame = if ft.hasPid then some (substPid pid) else none := by
  unfold infoOf pidOf
  rw [classify_buildU p hft cr pf pid m h info]
  cases hp : ft.hasPid <;> simp [buildU, hp]

theorem infoOf_buildS (p : Params) {ft : FrameType} (hft : ft ∈ [FrameType.sRr, .sRnr, .sRej, .sSrej]) (cr pf : Bool)
    (nr : BitVec 7) (m : Bool) {l : List AddrImage} (h : 2 ≤ l.length) (info : List Byte) :
    infoOf (buildS p ft cr pf nr m l info).frame = builtInfo p ft info ∧
      pidOf (buildS p ft cr pf nr m l info).frame = none := by
  unfold infoOf pidOf
  rw [classify_buildS p hft cr pf nr m h info]
  have hl := sControl_length ft pf (maskSeq m nr) m
  refine ⟨?_, rfl⟩
  simp only [buildS, builtFrame_rest, Bool.false_eq_true, if_false, Nat.add_zero]
  rw [List.drop_left' hl]

theorem infoOf_buildI (p : Params) (cr pf : Bool) (nr ns : BitVec 7) (pid : Byte) (m : Bool)
    {l : List AddrImage} (h : 2 ≤ l.length) (info : List Byte) :
    infoOf (buildI p cr pf nr ns pid m l info).frame = builtInfo p .iFrame info ∧
      pidOf (buildI p cr pf nr ns pid m l info).frame = some (substPid pid) := by
  unfold infoOf pidOf
  rw [classify_buildI p cr pf nr ns pid m h info]
  have hl := iControl_length pf (maskSeq m nr) (maskSeq m ns) m
  simp only [buildI, builtFrame_rest, if_true]
  refine ⟨List.drop_left' (by rw [List.length_append, hl]; rfl), ?_⟩
  rw [List.append_assoc, List.getElem?_append_right (by rw [hl]), hl, Nat.sub_self]
  rfl

end Sys2Proof.Machine
end

