-- ==== Sys2Proof/Laws/Header.lean ====
section
/-! SUPPORT. The bytes, bits and bit planes of HDR (43_il2p_header.md R200 to R204). -/

namespace Sys2Proof.Machine

theorem hdrByte_setHdrByte (h : Hdr) {i : Nat} (hi : i < 13) (b : Byte) (j : Nat) :
    hdrByte (setHdrByte h i b) j = if j = i then b else hdrByte h j := by
  unfold hdrByte setHdrByte
  by_cases hj : j < 13
  · by_cases hji : j = i
    · subst hji
      simp [Vector.getD, hj]
    · have hij : i ≠ j := fun e => hji e.symm
      simp [Vector.getD, hj, hji, hij]
  · have hji : j ≠ i := by omega
    simp [Vector.getD, hj, hji]

theorem hdrBit_setHdrBit (h : Hdr) {i p : Nat} (hi : i < 13) (hp : p < 8) (v : Bool) (j q : Nat) :
    hdrBit (setHdrBit h i p v) j q = if j = i ∧ q = p then v else hdrBit h j q := by
  unfold hdrBit setHdrBit
  rw [hdrByte_setHdrByte h hi]
  by_cases hj : j = i
  · subst hj
    rw [if_pos rfl, setBit_getLsbD _ hp]
    by_cases hq : q = p <;> simp [hq]
  · simp [hj]

/-- `PutPlane` writes bit w-1-i of v to bit p of byte f+i, and nothing else (R201). -/
theorem hdrBit_putPlane (h : Hdr) {p f : Nat} (hp : p < 8) (w : Nat) :
    ∀ (v : BitVec w), f + w ≤ 13 → ∀ j q, hdrBit (putPlane h p f w v) j q =
      if q = p ∧ f ≤ j ∧ j < f + w then v.getLsbD (f + w - 1 - j) else hdrBit h j q := by
  induction w with
  | zero =>
    intro v _ j q
    rw [if_neg (by omega)]
    rfl
  | succ w ih =>
    intro v hw j q
    rw [putPlane, hdrBit_setHdrBit _ (by omega) hp, ih _ (by omega)]
    by_cases h1 : j = f + w ∧ q = p
    · rw [if_pos h1, if_pos (by omega)]
      congr 1
      omega
    · rw [if_neg h1]
      by_cases h2 : q = p ∧ f ≤ j ∧ j < f + w
      · rw [if_pos h2, if_pos (by omega), BitVec.getLsbD_extractLsb']
        have e : 1 + (f + w - 1 - j) = f + (w + 1) - 1 - j := by omega
        have e2 : f + w - 1 - j < w := by omega
        rw [e]
        simp [e2]
      · rw [if_neg h2, if_neg (by omega)]

/-- Bit k of `GetPlane` is bit p of byte f+w-1-k (R201). -/
theorem getPlane_getLsbD (h : Hdr) (p f : Nat) (w : Nat) :
    ∀ k, (getPlane h p f w).getLsbD k = (decide (k < w) && hdrBit h (f + w - 1 - k) p) := by
  induction w with
  | zero => intro k; simp [getPlane]
  | succ w ih =>
    intro k
    rw [getPlane, BitVec.getLsbD_concat]
    cases k with
    | zero => simp
    | succ k =>
      rw [if_neg (by omega), ih]
      have e : f + w - 1 - (k + 1 - 1) = f + (w + 1) - 1 - (k + 1) := by omega
      rw [Nat.add_sub_cancel] at e ⊢
      rw [e]
      simp

/-- Two headers with the same bits on a plane hold the same field there. -/
theorem getPlane_congr {h h' : Hdr} {p f w : Nat} (hb : ∀ j, f ≤ j → j < f + w → hdrBit h j p = hdrBit h' j p) :
    getPlane h p f w = getPlane h' p f w := by
  apply BitVec.eq_of_getLsbD_eq
  intro k hk
  rw [getPlane_getLsbD, getPlane_getLsbD, hb _ (by omega) (by omega)]

/-- A field read back is the field written. -/
theorem getPlane_putPlane (h : Hdr) {p f w : Nat} (hp : p < 8) (v : BitVec w) (hw : f + w ≤ 13) :
    getPlane (putPlane h p f w v) p f w = v := by
  apply BitVec.eq_of_getLsbD_eq
  intro k hk
  rw [getPlane_getLsbD, hdrBit_putPlane h hp w v hw, if_pos (by omega)]
  have e : f + w - 1 - (f + w - 1 - k) = k := by omega
  simp [hk, e]

theorem hdrBit_eq (h : Hdr) (i p : Nat) : hdrBit h i p = (hdrByte h i).getLsbD p := rfl

/-- Two headers with the same bits are equal. -/
theorem hdr_ext {h h' : Hdr} (hb : ∀ i p, i < 13 → p < 8 → hdrBit h i p = hdrBit h' i p) : h = h' := by
  apply Vector.ext
  intro i hi
  have : hdrByte h i = hdrByte h' i := by
    apply BitVec.eq_of_getLsbD_eq
    intro p hp
    exact hb i p hi hp
  simpa [hdrByte, Vector.getD, hi] using this

@[simp] theorem hdrBytes_length (h : Hdr) : (hdrBytes h).length = 13 := by simp [hdrBytes]

/-- The header read back from its bytes. -/
@[simp] theorem hdrOfBytes_hdrBytes (h : Hdr) : hdrOfBytes (hdrBytes h) = h := by
  apply Vector.ext
  intro i hi
  unfold hdrOfBytes
  interval_cases i <;> simp [hdrBytes]

/-! ### The trailer on plane 7 (R202) -/

/-- What `putTrailer` does to each bit. -/
theorem hdrBit_putTrailer (h : Hdr) (maxFec type1 : Bool) (count : Nat) (j q : Nat) :
    hdrBit (putTrailer h maxFec type1 count) j q =
      if q = 7 ∧ j < 12 then
        (if j = 0 then maxFec else if j = 1 then type1 else (BitVec.ofNat 10 count).getLsbD (11 - j))
      else hdrBit h j q := by
  unfold putTrailer
  rw [hdrBit_putPlane _ (by omega) 10 _ (by omega), hdrBit_setHdrBit _ (by omega) (by omega),
    hdrBit_setHdrBit _ (by omega) (by omega)]
  by_cases hq : q = 7
  · subst hq
    by_cases h0 : j = 0
    · subst h0; simp
    · by_cases h1 : j = 1
      · subst h1; simp
      · by_cases h2 : j < 12
        · simp [h0, h1, h2, show 2 ≤ j by omega]
        · simp [h0, h1, h2]
  · simp [hq]

@[simp] theorem hdrFec_putTrailer (h : Hdr) (m t : Bool) (n : Nat) : hdrFec (putTrailer h m t n) = m := by
  simp [hdrFec, hdrBit_putTrailer]

@[simp] theorem hdrType_putTrailer (h : Hdr) (m t : Bool) (n : Nat) : hdrType (putTrailer h m t n) = t := by
  simp [hdrType, hdrBit_putTrailer]

@[simp] theorem hdrCount_putTrailer (h : Hdr) (m t : Bool) (n : Nat) :
    hdrCount (putTrailer h m t n) = BitVec.ofNat 10 n :=
  getPlane_putPlane _ (by omega) _ (by omega)

/-! ### SIXBIT (R205) -/

/-- A SIXBIT code read back through the low six bits of a header byte is the character. -/
theorem unsix_six {c : Byte} (h : isSixbit c = true) : unsix ((six c).extractLsb' 0 6) = c := by
  revert c
  decide

/-- A SIXBIT code leaves planes 6 and 7 clear. -/
theorem six_high {c : Byte} (h : isSixbit c = true) : (six c).getLsbD 6 = false ∧ (six c).getLsbD 7 = false := by
  revert c
  decide

end Sys2Proof.Machine
end

