-- ==== Sys2Proof/Laws/Type1.lean ====
section
/-! SUPPORT. Type-1 headers: the bits HDR1_ENC writes (43_il2p_header.md R210), and what HDR1_DEC makes of a header (R213). -/

namespace Sys2Proof.Machine

/-- PidDec answers no PID that the builders substitute. -/
theorem pidDec_ok (v : BitVec 4) : pidBad (pidDec v) = false := by
  revert v
  decide

@[simp] theorem substPid_pidDec (v : BitVec 4) : substPid (pidDec v) = pidDec v := by
  simp [substPid, pidDec_ok]

/-- A three-bit sequence number is in range in modulo 8. -/
theorem seqBad_narrow (x : BitVec 3) : seqBad false (x.setWidth 7) = false := by
  revert x
  decide

@[simp] theorem maskSeq_narrow (x : BitVec 3) : maskSeq false (x.setWidth 7) = x.setWidth 7 := by
  simp [maskSeq, seqBad_narrow]

/-- The frame of a type-1 header is valid, modulo 8, of two addresses and at most two more bytes, and the only DIAG bit it may
set is CR_ILLEGAL. -/
theorem hdr1Dec_built {p : Params} {h : Hdr} {r : Built} (e : hdr1Dec p h = .built r) :
    r.frame.valid = true ∧ r.frame.mod128 = false ∧ r.frame.naddr = 2 ∧ r.frame.restLen ≤ 2 ∧
      ∃ b, r.diag = diagIf b .crIllegal := by
  have hn : ∀ b, diagIf false b = 0#6 := fun _ => rfl
  unfold hdr1Dec at e
  split at e
  · dsimp only at e
    split at e
    · split at e
      · cases e
        exact ⟨rfl, rfl, by simp [Frame.naddr, buildU], by simp [Frame.restLen, buildU, FrameType.hasPid],
          false, by simp [buildU, pidDec_ok, hn, crIllegal]⟩
      · split at e
        · cases e
          refine ⟨rfl, rfl, by simp [Frame.naddr, buildS], ?_, _, by simp only [buildS, seqBad_narrow, hn, infoDiag_nil, BitVec.zero_or, BitVec.or_zero]; rfl⟩
          simp [Frame.restLen, buildS, sControl_length]
        · split at e
          · cases e
            refine ⟨rfl, rfl, by simp [Frame.naddr, buildU], ?_, _, by
              simp only [buildU, show pidBad Config.pidNoL3 = false from rfl, Bool.and_false, hn, infoDiag_nil,
                BitVec.or_zero]
              rfl⟩
            simp only [buildU, Frame.restLen, builtFrame_rest, builtInfo_nil, List.append_nil, List.length_cons]
            split <;> simp
          · cases e
            refine ⟨rfl, rfl, by simp [Frame.naddr, buildI], ?_, false, by simp [buildI, seqBad_narrow, pidDec_ok, hn]⟩
            simp [Frame.restLen, buildI, iControl_length]
    · cases e
  · cases e

/-! ### The CONTROL and PID subfields (R206 to R209) -/

/-- CTL7 of an S frame: P/F, N(R), C and the S opcode stand where HDR1_DEC reads them. -/
theorem ctlS_spec (pf cr : Bool) (nr : BitVec 3) (ss : BitVec 2) :
    let c := bit7w pf <<< 6 ||| nr.setWidth 7 <<< 3 ||| bit7w cr <<< 2 ||| ss.setWidth 7
    c.getLsbD 6 = pf ∧ c.getLsbD 2 = cr ∧ c.extractLsb' 3 3 = nr ∧ c.extractLsb' 0 2 = ss := by
  revert pf cr nr ss
  decide

/-- CTL7 of a U frame: P/F, the U opcode and C. -/
theorem ctlU_spec (pf cr : Bool) (op : BitVec 3) :
    let c := bit7w pf <<< 6 ||| op.setWidth 7 <<< 3 ||| bit7w cr <<< 2
    c.getLsbD 6 = pf ∧ c.getLsbD 2 = cr ∧ c.extractLsb' 3 3 = op := by
  revert pf cr op
  decide

/-- CTL7 of an I frame: P/F, N(R) and N(S). -/
theorem ctlI_spec (pf : Bool) (nr ns : BitVec 3) :
    let c := bit7w pf <<< 6 ||| nr.setWidth 7 <<< 3 ||| ns.setWidth 7
    c.getLsbD 6 = pf ∧ c.extractLsb' 3 3 = nr ∧ c.extractLsb' 0 3 = ns := by
  revert pf nr ns
  decide

/-- The PID codes 0 and 1 are never a PID's. -/
theorem pidEnc_ne {p : Byte} {v : BitVec 4} (h : pidEnc p = some v) : v ≠ 0 ∧ v ≠ 1 := by
  revert p v
  decide

/-- The U opcode decodes back (R208). -/
theorem uTypeOfOp_uOp {ft : FrameType} (h : ft ∈ FrameType.uTypes) (h' : ft ≠ .uSabme) : uTypeOfOp (uOp ft) = ft := by
  revert ft
  decide

theorem ofSs_ss {ft : FrameType} (h : ft ∈ [FrameType.sRr, .sRnr, .sRej, .sSrej]) : FrameType.ofSs ft.ss = ft := by
  revert ft
  decide

/-! ### The header of HDR1_ENC, bit by bit -/

/-- Every bit of a type-1 header: the trailer on plane 7, UI, PID4 and CTL7 on plane 6, the characters and SSIDs below. -/
theorem hdrBit_type1Header (f : Frame) (maxFec : Bool) (j q : Nat) :
    hdrBit (type1Header f maxFec) j q =
      if q = 7 ∧ j < 12 then
        (if j = 0 then maxFec else if j = 1 then true else (BitVec.ofNat 10 (infoOf f).length).getLsbD (11 - j))
      else if q = 6 ∧ 5 ≤ j ∧ j < 12 then (type1Fields f).2.2.getLsbD (11 - j)
      else if q = 6 ∧ 1 ≤ j ∧ j < 5 then (type1Fields f).2.1.getLsbD (4 - j)
      else if j = 0 ∧ q = 6 then (type1Fields f).1
      else hdrBit (type1Chars f) j q := by
  unfold type1Header
  rw [hdrBit_putTrailer, hdrBit_putPlane _ (by omega) 7 _ (by omega), hdrBit_putPlane _ (by omega) 4 _ (by omega),
    hdrBit_setHdrBit _ (by omega) (by omega)]

@[simp] theorem hdrFec_type1Header (f : Frame) (m : Bool) : hdrFec (type1Header f m) = m := by
  simp [type1Header]

@[simp] theorem hdrType_type1Header (f : Frame) (m : Bool) : hdrType (type1Header f m) = true := by
  simp [type1Header]

@[simp] theorem hdrCount_type1Header (f : Frame) (m : Bool) :
    hdrCount (type1Header f m) = BitVec.ofNat 10 (infoOf f).length := by
  simp [type1Header]

@[simp] theorem hdrUi_type1Header (f : Frame) (m : Bool) : hdrUi (type1Header f m) = (type1Fields f).1 := by
  unfold hdrUi
  rw [hdrBit_type1Header]
  rfl

@[simp] theorem hdrPid4_type1Header (f : Frame) (m : Bool) : hdrPid4 (type1Header f m) = (type1Fields f).2.1 := by
  apply BitVec.eq_of_getLsbD_eq
  intro k hk
  unfold hdrPid4
  rw [getPlane_getLsbD, decide_eq_true hk, Bool.true_and, hdrBit_type1Header, if_neg (by omega), if_neg (by omega),
    if_pos (by omega)]
  congr 1
  omega

@[simp] theorem hdrCtl7_type1Header (f : Frame) (m : Bool) : hdrCtl7 (type1Header f m) = (type1Fields f).2.2 := by
  apply BitVec.eq_of_getLsbD_eq
  intro k hk
  unfold hdrCtl7
  rw [getPlane_getLsbD, decide_eq_true hk, Bool.true_and, hdrBit_type1Header, if_neg (by omega), if_pos (by omega)]
  congr 1
  omega

/-- The low six bits of a header byte are those of the character codes, and byte 12 is the two SSIDs. -/
theorem hdrByte_type1Header (f : Frame) (m : Bool) :
    (∀ j, (hdrByte (type1Header f m) j).extractLsb' 0 6 = (hdrByte (type1Chars f) j).extractLsb' 0 6) ∧
      hdrByte (type1Header f m) 12 = hdrByte (type1Chars f) 12 := by
  refine ⟨fun j => ?_, ?_⟩
  · apply BitVec.eq_of_getLsbD_eq
    intro k hk
    rw [BitVec.getLsbD_extractLsb', BitVec.getLsbD_extractLsb', ← hdrBit_eq, ← hdrBit_eq, hdrBit_type1Header,
      if_neg (by omega), if_neg (by omega), if_neg (by omega), if_neg (by omega)]
  · apply BitVec.eq_of_getLsbD_eq
    intro k _
    rw [← hdrBit_eq, ← hdrBit_eq, hdrBit_type1Header, if_neg (by omega), if_neg (by omega), if_neg (by omega),
      if_neg (by omega)]

/-- The bytes of `type1Chars`: the SIXBIT codes of destination and source, then the SSIDs. -/
theorem hdrByte_type1Chars {f : Frame} {d t : AddrImage} {as : List AddrImage} (h : f.addrs = d :: t :: as) :
    (∀ j, j < 6 → hdrByte (type1Chars f) j = six (d.chars.getD j 0)) ∧
      (∀ j, j < 6 → hdrByte (type1Chars f) (6 + j) = six (t.chars.getD j 0)) ∧
      hdrByte (type1Chars f) 12 = d.ssid ++ t.ssid := by
  unfold type1Chars
  rw [h]
  refine ⟨fun j hj => ?_, fun j hj => ?_, rfl⟩ <;> interval_cases j <;> rfl

/-! ### Calls read back from a header -/

/-- The six characters at a base, with trailing blanks but the first stripped (R213). -/
theorem hdrCall_eq {h : Hdr} {base : Nat} {chars : List Byte} (hl : chars.length = 6)
    (hc : ∀ j, j < 6 → unsix ((hdrByte h (base + j)).extractLsb' 0 6) = chars.getD j 0) :
    hdrCall h base = chars.getD 0 0 :: stripBlanks (chars.drop 1) := by
  match chars, hl with
  | [c0, c1, c2, c3, c4, c5], _ =>
    unfold hdrCall
    simp only [hc 0 (by omega), hc 1 (by omega), hc 2 (by omega), hc 3 (by omega), hc 4 (by omega), hc 5 (by omega)]
    rfl

/-- A first character that is no blank is never stripped. -/
theorem stripBlanks_cons {c : Byte} (hc : c ≠ blankChar) (s : List Byte) : stripBlanks (c :: s) = c :: stripBlanks s := by
  unfold stripBlanks
  rw [List.reverse_cons, List.dropWhile_append]
  by_cases h : (s.reverse.dropWhile (· == blankChar)).isEmpty = true
  · have hb : (c == blankChar) = false := by simpa using hc
    rw [if_pos h]
    simp [hb, List.isEmpty_iff.mp h]
  · rw [if_neg h]
    simp

end Sys2Proof.Machine
end

