-- ==== Sys2Proof/Laws/Claims.lean ====
section
/-! SUPPORT. The words of the statements beside the model's own functions: the tables and offsets agree (30_encoding.md R93 to R95,
41_frame.md R144, R149, 43_il2p_header.md R206, R207, R210), and what keeps the call octets of a frame even (30_encoding.md R92). -/

namespace Sys2Proof.Claim

open Sys2Proof.Machine

/-! ### Tables and offsets -/

theorem pidEnc_eq (p : Byte) : pidEnc p = pidEncoded p := by
  revert p
  decide

theorem pidDec_eq (v : BitVec 4) : pidDec v = pidDecoded v := by
  revert v
  decide

/-- A U control byte is followed by a PID exactly if it is a UI's. -/
theorem uTypeOf_hasPid (c0 : Byte) : (uTypeOf c0).hasPid = decide (c0 &&& 0xEF = 0x03) := by
  unfold uTypeOf
  generalize c0 &&& 0xEF = x
  revert x
  decide

theorem ofSs_hasPid (x : BitVec 2) : (FrameType.ofSs x).hasPid = false := by
  revert x
  decide

/-- What the two low bits of a first control byte say of the control field's length and of the PID. -/
theorem lowBits_spec (c0 : Byte) :
    (c0.extractLsb' 0 2 = 0b11 ↔ c0.getLsbD 0 = true ∧ c0.getLsbD 1 = true) ∧
      (c0 &&& 0xEF = 0x03 → c0.getLsbD 0 = true ∧ c0.getLsbD 1 = true) := by
  revert c0
  decide

/-- An AX.25 frame's control field and PID stand where 30_encoding.md R93 to R95 and R97 put them. -/
theorem classify_offsets {f : Frame} (h : (classify f).ftype ≠ .notAx25) :
    (classify f).ctlLen = controlLength f ∧ (classify f).hasPid = pidFollows f := by
  unfold controlLength pidFollows
  match ha : f.addrs, hr : f.rest with
  | [], _ => exact absurd (by simp [classify, ha, notAx25Class]) h
  | _ :: _, [] => exact absurd (by simp [classify, ha, hr, notAx25Class]) h
  | _ :: _, c0 :: more =>
    obtain ⟨h3, hui⟩ := lowBits_spec c0
    unfold classify at h ⊢
    simp only [ha, hr, List.getD_cons_zero] at h ⊢
    by_cases hu : (c0.getLsbD 0 && c0.getLsbD 1) = true
    · have hb : c0.getLsbD 0 = true ∧ c0.getLsbD 1 = true := by simpa only [Bool.and_eq_true] using hu
      rw [if_pos hu, if_neg (fun e => e.2 (h3.mpr hb)), hb.1, Bool.not_true, Bool.or_false, ← uTypeOf_hasPid]
      exact ⟨rfl, rfl⟩
    · have hb : ¬ (c0.getLsbD 0 = true ∧ c0.getLsbD 1 = true) := by simpa only [Bool.and_eq_true] using hu
      have h3' : c0.extractLsb' 0 2 ≠ 0b11 := fun e => hb (h3.mp e)
      rw [if_neg hu] at h ⊢
      rw [decide_eq_false fun e => hb (hui e), Bool.false_or]
      by_cases h0 : c0.getLsbD 0 = false
      · rw [if_pos h0] at h ⊢
        rw [h0]
        cases hm : f.mod128
        · exact ⟨rfl, rfl⟩
        · match more with
          | [] => exact absurd (by rw [hm]; rfl) h
          | _ :: _ => exact ⟨(if_pos ⟨rfl, h3'⟩).symm, rfl⟩
      · rw [if_neg h0] at h ⊢
        rw [Bool.not_eq_false] at h0
        rw [h0]
        cases hm : f.mod128
        · exact ⟨rfl, ofSs_hasPid _⟩
        · match more with
          | [] => exact absurd (by rw [hm]; rfl) h
          | _ :: _ => exact ⟨(if_pos ⟨rfl, h3'⟩).symm, ofSs_hasPid _⟩

theorem infoOf_eq {f : Frame} (h : (classify f).ftype ≠ .notAx25) : infoOf f = infoField f := by
  unfold infoOf infoField
  dsimp only
  rw [(classify_offsets h).1, (classify_offsets h).2]

theorem pidOf_eq {f : Frame} (h : (classify f).ftype ≠ .notAx25) : pidOf f = pidField f := by
  unfold pidOf pidField
  dsimp only
  rw [(classify_offsets h).1, (classify_offsets h).2]

/-- A frame that takes a type-1 header is an AX.25 frame. -/
theorem type1Encodable_isAx25 {f : Frame} (h : type1Encodable f) : (classify f).ftype ≠ .notAx25 := by
  intro e
  exact h.2.2.2.1 (by rw [e]; decide)

/-- A class has a PID exactly for the two types 30_encoding.md R97 names. -/
theorem classify_hasPid_iff (f : Frame) : (classify f).hasPid = true ↔ (classify f).ftype ∈ [FrameType.uUi, .iFrame] := by
  rw [classify_hasPid]
  cases (classify f).ftype <;> decide

/-- The conditions of 43_il2p_header.md R210 are those the model checks. -/
theorem type1Encodable_iff (f : Frame) : type1Encodable f ↔ type1Refused f = false := by
  by_cases hx : (classify f).ftype = .notAx25
  · constructor
    · intro h
      exact absurd hx (type1Encodable_isAx25 h)
    · intro h
      unfold type1Refused at h
      simp [hx] at h
  have six : ∀ c : Byte, (0x20 ≤ c.toNat ∧ c.toNat ≤ 0x5F) ↔ isSixbit c = true := by intro c; simp [isSixbit]
  have carry : ∀ t : FrameType, t.mayCarryInfo = true ↔ t ∈ [FrameType.uFrmr, .uUi, .uXid, .uTest, .sSrej, .iFrame, .uUnknown] := by
    intro t
    cases t <;> decide
  unfold type1Encodable type1Refused
  rw [infoOf_eq hx, pidOf_eq hx]
  simp only [Bool.or_eq_false_iff, Bool.and_eq_false_iff, decide_eq_false_iff_not, Bool.not_eq_false', ne_eq, not_not, Frame.naddr]
  have hpid := classify_hasPid_iff f
  have pe : pidEnc = pidEncoded := funext pidEnc_eq
  rw [pe]
  have hpd : (∃ p v, pidField f = some p ∧ pidEncoded p = some v) ↔ ((pidField f).bind pidEncoded).isNone = false := by
    cases h : pidField f with
    | none => simp
    | some p => cases h2 : pidEncoded p <;> simp [h2]
  rw [hpd, ← hpid]
  constructor
  · rintro ⟨h1, h2, h3, h4, h5, h6⟩
    simp only [List.mem_cons, List.not_mem_nil, or_false, not_or] at h4
    refine ⟨⟨⟨⟨⟨⟨⟨h1, h2⟩, ?_⟩, h4.1⟩, h4.2.1⟩, h4.2.2⟩, ?_⟩, ?_⟩
    · rw [List.all_eq_true]
      intro a ha
      rw [List.all_eq_true]
      intro c hc
      exact (six c).mp (h3 a ha c hc)
    · by_cases h : (classify f).hasPid = true
      · exact .inr (h5 h)
      · exact .inl (by simpa using h)
    · by_cases h : (classify f).ftype.mayCarryInfo = true
      · exact .inl h
      · refine .inr (h6 ?_)
        rw [carry] at h
        intro hm
        apply h
        simp only [List.mem_cons, List.not_mem_nil, or_false] at hm
        rcases hm with hm | hm | hm | hm | hm | hm <;> rw [hm] <;> decide
  · rintro ⟨⟨⟨⟨⟨⟨⟨h1, h2⟩, h3⟩, h4⟩, h5⟩, h6⟩, h7⟩, h8⟩
    refine ⟨h1, h2, ?_, by simp [h4, h5, h6], ?_, ?_⟩
    · intro a ha c hc
      exact (six c).mpr (List.all_eq_true.mp (List.all_eq_true.mp h3 a ha) c hc)
    · intro h
      rcases h7 with h7 | h7
      · rw [h] at h7
        cases h7
      · exact h7
    · intro h
      rcases h8 with h8 | h8
      · exfalso
        rw [carry] at h8
        apply h
        simp only [List.mem_cons, List.not_mem_nil, or_false] at h8
        rcases h8 with h8 | h8 | h8 | h8 | h8 | h8 | h8 <;> first | exact absurd h8 h5 | (rw [h8]; decide)
      · exact h8

/-- The packed frame: the marker stands on the last address and nowhere else. -/
theorem packed_eq (f : Frame) : packed f = pack f := by
  have hs : ∀ b : Byte, (b &&& 0xFE) ||| 0x01 = setBit b 0 true ∧ (b &&& 0xFE) ||| 0x00 = setBit b 0 false := by decide
  have key : ∀ (l : List AddrImage) (n m : Nat), m = n + l.length →
      ((l.zipIdx n).flatMap fun an => [an.1.a0, an.1.a1, an.1.a2, an.1.a3, an.1.a4, an.1.a5,
        (an.1.a6 &&& 0xFE) ||| (if an.2 + 1 = m then 0x01 else 0x00)]) = packAddrs l := by
    intro l
    induction l with
    | nil => intros; rfl
    | cons a l ih =>
      intro n m hm
      rw [List.zipIdx_cons, List.flatMap_cons, ih (n + 1) m (by simp at hm; omega)]
      match l with
      | [] => rw [if_pos (by simpa using hm.symm), (hs _).1]; rfl
      | b :: l => rw [if_neg (by simp at hm; omega), (hs _).2]; rfl
  unfold packed pack
  congr 1
  exact key _ 0 _ (by simp)

end Sys2Proof.Claim

namespace Sys2Proof.Machine

/-! ### Even call octets -/

/-- One address's part of `Frame.callsEven`. -/
def AddrImage.callEven (a : AddrImage) : Prop :=
  ∀ c ∈ [a.a0, a.a1, a.a2, a.a3, a.a4, a.a5], c.getLsbD 0 = false

theorem Frame.callsEven_iff (f : Frame) : f.callsEven ↔ ∀ a ∈ f.addrs, a.callEven := Iff.rfl

/-- Octet 6 is no call octet. -/
theorem AddrImage.callEven_withBit7 {a : AddrImage} (h : a.callEven) (v : Bool) : (a.withBit7 v).callEven := h

/-- An encoded call is shifted left by one. -/
theorem addrEncode_callEven (call : List Byte) (ssid : BitVec 4) (bit7 last : Bool) :
    (addrEncode call ssid bit7 last).callEven := by
  have h : ∀ b : Byte, (b <<< 1).getLsbD 0 = false := by decide
  intro c hc
  simp only [addrEncode, callOctet, List.mem_cons, List.not_mem_nil, or_false] at hc
  rcases hc with rfl | rfl | rfl | rfl | rfl | rfl <;> exact h _

theorem setCBits_callEven {l : List AddrImage} (h : ∀ a ∈ l, a.callEven) (cr : Bool) : ∀ a ∈ setCBits cr l, a.callEven := by
  match l, h with
  | [], h => exact h
  | [_], h => exact h
  | d :: t :: as, h =>
    intro a ha
    simp only [setCBits, List.mem_cons] at ha
    rcases ha with rfl | rfl | ha
    · exact AddrImage.callEven_withBit7 (h d (by simp)) _
    · exact AddrImage.callEven_withBit7 (h t (by simp)) _
    · exact h a (by simp [ha])

/-- Images read from a string with no odd byte before position 7k - 1. -/
theorem imagesOf_callEven (k : Nat) : ∀ (s : List Byte), (∀ i, i + 1 < 7 * k → (s.getD i 0).getLsbD 0 = false) →
    ∀ a ∈ imagesOf k s, a.callEven := by
  induction k with
  | zero => intro s _ a ha; cases ha
  | succ k ih =>
    intro s hs a ha
    rw [imagesOf, List.mem_cons] at ha
    rcases ha with rfl | ha
    · intro c hc
      simp only [AddrImage.ofBytes, List.mem_cons, List.not_mem_nil, or_false] at hc
      rcases hc with rfl | rfl | rfl | rfl | rfl | rfl <;> exact hs _ (by omega)
    · refine ih _ (fun i hi => ?_) a ha
      have := hs (7 + i) (by omega)
      simpa only [Config.addrOctets, List.getD_eq_getElem?_getD, List.getElem?_drop] using this

/-- The images of a string's address block: the first odd byte ends the block (41_frame.md R143). -/
theorem imagesOf_block_callEven (s : List Byte) : ∀ a ∈ imagesOf (findAddrBlock s) s, a.callEven := by
  refine imagesOf_callEven _ s fun i hi => ?_
  have h0 : findAddrBlock s ≠ 0 := by omega
  rw [(findAddrBlock_spec rfl h0).2.2.2 i (by omega)]
  simp only [decide_eq_false_iff_not]
  omega

theorem loadFrame_callsEven (s : List Byte) (m : Bool) : (loadFrame s m).callsEven := imagesOf_block_callEven s

/-- The addresses of every frame HDR1_DEC makes: two encoded calls with complementary C bits, the second marked last. -/
theorem hdr1Dec_addrs {p : Params} {h : Hdr} {r : Built} (e : hdr1Dec p h = .built r) :
    ∃ cr dst src sd ss, r.frame.addrs = [addrEncode dst sd cr false, addrEncode src ss (!cr) true] := by
  unfold hdr1Dec at e
  split at e
  · dsimp only at e
    split at e
    · repeat' split at e
      all_goals
        cases e
        exact ⟨_, _, _, _, _, setCBits_addrEncode _ _ _ _ _ _ _⟩
    · cases e
  · cases e

theorem hdr1Dec_callsEven {p : Params} {h : Hdr} {r : Built} (e : hdr1Dec p h = .built r) : r.frame.callsEven := by
  obtain ⟨cr, dst, src, sd, ss, ha⟩ := hdr1Dec_addrs e
  intro a hm
  rw [ha] at hm
  simp only [List.mem_cons, List.not_mem_nil, or_false] at hm
  rcases hm with rfl | rfl <;> exact addrEncode_callEven _ _ _ _

end Sys2Proof.Machine
end

