-- ==== Sys2Proof/Laws/Codec.lean ====
section
/-! SUPPORT. The contract of the configuration functions (00_scope.md R14), which holds by the way they are made. -/

namespace Sys2Proof.Machine

@[simp] theorem scramble_length (s : List Byte) : (scramble s).length = s.length :=
  (Config.scrambler s.length ⟨s, rfl⟩).property

@[simp] theorem descramble_length (s : List Byte) : (descramble s).length = s.length :=
  ((Config.scrambler s.length).symm ⟨s, rfl⟩).property

theorem descramble_val {n : Nat} (v : List.Vector Byte n) : descramble v.val = ((Config.scrambler n).symm v).val := by
  obtain ⟨l, rfl⟩ := v
  rfl

/-- `Descramble(Scramble(s)) = s`. -/
@[simp] theorem descramble_scramble (s : List Byte) : descramble (scramble s) = s := by
  unfold scramble
  rw [descramble_val]
  exact congrArg Subtype.val (Equiv.symm_apply_apply _ _)

@[simp] theorem rsParity_length (k : Nat) (s : List Byte) : (rsParity k s).length = k :=
  (Config.rsParityBytes k s).property

/-- `RsDecode(k, s ‖ RsParity(k, s)) = (s ‖ RsParity(k, s), 0)` on the domain of R14. -/
theorem rsDecode_codeword {k : Nat} {s : List Byte} (hk : k ∈ Config.paritySet) (hs : s.length + k ≤ 255) :
    rsDecode k (s ++ rsParity k s) = some (s ++ rsParity k s, 0) := by
  unfold rsDecode
  have hl : (s ++ rsParity k s).length = s.length + k := by simp
  have ht : (s ++ rsParity k s).take ((s ++ rsParity k s).length - k) = s := by
    rw [hl, Nat.add_sub_cancel, List.take_left']
    rfl
  rw [if_pos]
  refine ⟨hk, by omega, by rw [hl]; exact hs, ?_⟩
  rw [ht]

/-- Whatever `RsDecode` answers has the length of its input and at most k/2 corrections. -/
theorem rsDecode_spec {k : Nat} {c c' : List Byte} {m : Nat} (h : rsDecode k c = some (c', m)) :
    c'.length = c.length ∧ m ≤ k / 2 := by
  unfold rsDecode at h
  split at h
  · simp only [Option.some.injEq, Prod.mk.injEq] at h
    obtain ⟨rfl, rfl⟩ := h
    exact ⟨rfl, Nat.zero_le _⟩
  · rw [Option.map_eq_some_iff] at h
    obtain ⟨r, -, hr⟩ := h
    simp only [Prod.mk.injEq] at hr
    obtain ⟨rfl, rfl⟩ := hr
    exact ⟨r.1.property, Nat.lt_succ_iff.mp r.2.isLt⟩

@[simp] theorem protect_length (k : Nat) (d : List Byte) : (protect k d).length = d.length + k := by
  simp [protect]

/-- A protected string decodes with no correction, and descrambling its data part gives the string back. -/
theorem rsDecode_protect {k : Nat} {d : List Byte} (hk : k ∈ Config.paritySet) (hd : d.length + k ≤ 255) :
    rsDecode k (protect k d) = some (protect k d, 0) ∧ descramble ((protect k d).take d.length) = d := by
  refine ⟨rsDecode_codeword hk (by simpa using hd), ?_⟩
  have : (protect k d).take d.length = scramble d := by
    unfold protect
    rw [List.take_append_of_le_length (by simp), List.take_of_length_le (by simp)]
  rw [this, descramble_scramble]

end Sys2Proof.Machine
end

