-- ==== Sys2Proof/Laws/State.lean ====
section
/-! SUPPORT. What each named state update leaves in each field, so that no proof unfolds a record update. -/

namespace Sys2Proof.Machine

@[simp] theorem State.setCode_params (s : State) (c : StatusCode) : (s.setCode c).params = s.params := rfl
@[simp] theorem State.setCode_host (s : State) (c : StatusCode) : (s.setCode c).host = s.host := rfl
@[simp] theorem State.setCode_readData (s : State) (c : StatusCode) : (s.setCode c).readData = s.readData := rfl
@[simp] theorem State.setCode_cmdLo (s : State) (c : StatusCode) : (s.setCode c).cmdLo = s.cmdLo := rfl
@[simp] theorem State.setCode_cmdHi (s : State) (c : StatusCode) : (s.setCode c).cmdHi = s.cmdHi := rfl
@[simp] theorem State.setCode_code (s : State) (c : StatusCode) : (s.setCode c).code = c := rfl
@[simp] theorem State.setCode_busy (s : State) (c : StatusCode) : (s.setCode c).busy = s.busy := rfl
@[simp] theorem State.setCode_diag (s : State) (c : StatusCode) : (s.setCode c).diag = s.diag := rfl
@[simp] theorem State.setCode_bufIn (s : State) (c : StatusCode) : (s.setCode c).bufIn = s.bufIn := rfl
@[simp] theorem State.setCode_bufInLen (s : State) (c : StatusCode) : (s.setCode c).bufInLen = s.bufInLen := rfl
@[simp] theorem State.setCode_bufOut (s : State) (c : StatusCode) : (s.setCode c).bufOut = s.bufOut := rfl
@[simp] theorem State.setCode_outGen (s : State) (c : StatusCode) : (s.setCode c).outGen = s.outGen := rfl
@[simp] theorem State.setCode_frame (s : State) (c : StatusCode) : (s.setCode c).frame = s.frame := rfl
@[simp] theorem State.setCode_resClass (s : State) (c : StatusCode) : (s.setCode c).resClass = s.resClass := rfl
@[simp] theorem State.setCode_resAddr (s : State) (c : StatusCode) : (s.setCode c).resAddr = s.resAddr := rfl
@[simp] theorem State.setCode_resHdr (s : State) (c : StatusCode) : (s.setCode c).resHdr = s.resHdr := rfl
@[simp] theorem State.setCode_resInfoLen (s : State) (c : StatusCode) : (s.setCode c).resInfoLen = s.resInfoLen := rfl
@[simp] theorem State.setCode_plan (s : State) (c : StatusCode) : (s.setCode c).plan = s.plan := rfl
@[simp] theorem State.setCode_fcs (s : State) (c : StatusCode) : (s.setCode c).fcs = s.fcs := rfl
@[simp] theorem State.setCode_corrHdr (s : State) (c : StatusCode) : (s.setCode c).corrHdr = s.corrHdr := rfl
@[simp] theorem State.setCode_corrPay (s : State) (c : StatusCode) : (s.setCode c).corrPay = s.corrPay := rfl
@[simp] theorem State.setCode_hdr (s : State) (c : StatusCode) : (s.setCode c).hdr = s.hdr := rfl

@[simp] theorem State.putOut_params (s : State) (bs : List Byte) : (s.putOut bs).params = s.params := rfl
@[simp] theorem State.putOut_host (s : State) (bs : List Byte) : (s.putOut bs).host = s.host := rfl
@[simp] theorem State.putOut_readData (s : State) (bs : List Byte) : (s.putOut bs).readData = s.readData := rfl
@[simp] theorem State.putOut_cmdLo (s : State) (bs : List Byte) : (s.putOut bs).cmdLo = s.cmdLo := rfl
@[simp] theorem State.putOut_cmdHi (s : State) (bs : List Byte) : (s.putOut bs).cmdHi = s.cmdHi := rfl
@[simp] theorem State.putOut_code (s : State) (bs : List Byte) : (s.putOut bs).code = s.code := rfl
@[simp] theorem State.putOut_busy (s : State) (bs : List Byte) : (s.putOut bs).busy = s.busy := rfl
@[simp] theorem State.putOut_diag (s : State) (bs : List Byte) : (s.putOut bs).diag = s.diag := rfl
@[simp] theorem State.putOut_bufIn (s : State) (bs : List Byte) : (s.putOut bs).bufIn = s.bufIn := rfl
@[simp] theorem State.putOut_bufInLen (s : State) (bs : List Byte) : (s.putOut bs).bufInLen = s.bufInLen := rfl
@[simp] theorem State.putOut_bufOut (s : State) (bs : List Byte) : (s.putOut bs).bufOut = bs := rfl
@[simp] theorem State.putOut_outGen (s : State) (bs : List Byte) : (s.putOut bs).outGen = s.outGen + 1 := rfl
@[simp] theorem State.putOut_frame (s : State) (bs : List Byte) : (s.putOut bs).frame = s.frame := rfl
@[simp] theorem State.putOut_resClass (s : State) (bs : List Byte) : (s.putOut bs).resClass = s.resClass := rfl
@[simp] theorem State.putOut_resAddr (s : State) (bs : List Byte) : (s.putOut bs).resAddr = s.resAddr := rfl
@[simp] theorem State.putOut_resHdr (s : State) (bs : List Byte) : (s.putOut bs).resHdr = s.resHdr := rfl
@[simp] theorem State.putOut_resInfoLen (s : State) (bs : List Byte) : (s.putOut bs).resInfoLen = s.resInfoLen := rfl
@[simp] theorem State.putOut_plan (s : State) (bs : List Byte) : (s.putOut bs).plan = s.plan := rfl
@[simp] theorem State.putOut_fcs (s : State) (bs : List Byte) : (s.putOut bs).fcs = s.fcs := rfl
@[simp] theorem State.putOut_corrHdr (s : State) (bs : List Byte) : (s.putOut bs).corrHdr = s.corrHdr := rfl
@[simp] theorem State.putOut_corrPay (s : State) (bs : List Byte) : (s.putOut bs).corrPay = s.corrPay := rfl
@[simp] theorem State.putOut_hdr (s : State) (bs : List Byte) : (s.putOut bs).hdr = s.hdr := rfl

@[simp] theorem State.addDiag_params (s : State) (d : BitVec 6) : (s.addDiag d).params = s.params := rfl
@[simp] theorem State.addDiag_host (s : State) (d : BitVec 6) : (s.addDiag d).host = s.host := rfl
@[simp] theorem State.addDiag_readData (s : State) (d : BitVec 6) : (s.addDiag d).readData = s.readData := rfl
@[simp] theorem State.addDiag_cmdLo (s : State) (d : BitVec 6) : (s.addDiag d).cmdLo = s.cmdLo := rfl
@[simp] theorem State.addDiag_cmdHi (s : State) (d : BitVec 6) : (s.addDiag d).cmdHi = s.cmdHi := rfl
@[simp] theorem State.addDiag_code (s : State) (d : BitVec 6) : (s.addDiag d).code = s.code := rfl
@[simp] theorem State.addDiag_busy (s : State) (d : BitVec 6) : (s.addDiag d).busy = s.busy := rfl
@[simp] theorem State.addDiag_diag (s : State) (d : BitVec 6) : (s.addDiag d).diag = s.diag ||| d := rfl
@[simp] theorem State.addDiag_bufIn (s : State) (d : BitVec 6) : (s.addDiag d).bufIn = s.bufIn := rfl
@[simp] theorem State.addDiag_bufInLen (s : State) (d : BitVec 6) : (s.addDiag d).bufInLen = s.bufInLen := rfl
@[simp] theorem State.addDiag_bufOut (s : State) (d : BitVec 6) : (s.addDiag d).bufOut = s.bufOut := rfl
@[simp] theorem State.addDiag_outGen (s : State) (d : BitVec 6) : (s.addDiag d).outGen = s.outGen := rfl
@[simp] theorem State.addDiag_frame (s : State) (d : BitVec 6) : (s.addDiag d).frame = s.frame := rfl
@[simp] theorem State.addDiag_resClass (s : State) (d : BitVec 6) : (s.addDiag d).resClass = s.resClass := rfl
@[simp] theorem State.addDiag_resAddr (s : State) (d : BitVec 6) : (s.addDiag d).resAddr = s.resAddr := rfl
@[simp] theorem State.addDiag_resHdr (s : State) (d : BitVec 6) : (s.addDiag d).resHdr = s.resHdr := rfl
@[simp] theorem State.addDiag_resInfoLen (s : State) (d : BitVec 6) : (s.addDiag d).resInfoLen = s.resInfoLen := rfl
@[simp] theorem State.addDiag_plan (s : State) (d : BitVec 6) : (s.addDiag d).plan = s.plan := rfl
@[simp] theorem State.addDiag_fcs (s : State) (d : BitVec 6) : (s.addDiag d).fcs = s.fcs := rfl
@[simp] theorem State.addDiag_corrHdr (s : State) (d : BitVec 6) : (s.addDiag d).corrHdr = s.corrHdr := rfl
@[simp] theorem State.addDiag_corrPay (s : State) (d : BitVec 6) : (s.addDiag d).corrPay = s.corrPay := rfl
@[simp] theorem State.addDiag_hdr (s : State) (d : BitVec 6) : (s.addDiag d).hdr = s.hdr := rfl

end Sys2Proof.Machine
end

