-- ==== Sys2Proof/Laws/Exec.lean ====
section
/-! SUPPORT. What each shared operation of a command's meaning can do, said once. -/

namespace Sys2Proof.Machine

@[simp] theorem ok_next {s t : State} : (ok s = .next t) ↔ t = s.setCode .ok := by
  simp [ok, eq_comm]

@[simp] theorem fail_next {c : StatusCode} {s t : State} : (fail c s = .next t) ↔ t = s.setCode c := by
  simp [fail, eq_comm]

/-- A command that reads BUF_IN either ends BAD_LEN with nothing else written, or goes on with the bytes of BUF_IN. -/
theorem withInput_cases (s : State) (body : List Byte → Host.Outcome State Fault Refusal) :
    (s.params.bufCap < s.bufInLen.toNat ∧ withInput s body = .next (s.setCode .badLen)) ∨
      (s.bufInLen.toNat ≤ s.params.bufCap ∧ withInput s body = body s.inBytes) := by
  unfold withInput State.inTooLong
  by_cases h : s.params.bufCap < s.bufInLen.toNat
  · exact .inl ⟨h, by simp [h, fail]⟩
  · exact .inr ⟨by omega, by simp [h]⟩

theorem withInput_fits {s : State} (h : s.bufInLen.toNat ≤ s.params.bufCap)
    (body : List Byte → Host.Outcome State Fault Refusal) : withInput s body = body s.inBytes := by
  have h' : ¬ s.params.bufCap < s.bufInLen.toNat := by omega
  simp [withInput, State.inTooLong, h']

theorem withInput_over {s : State} (h : s.params.bufCap < s.bufInLen.toNat)
    (body : List Byte → Host.Outcome State Fault Refusal) : withInput s body = .next (s.setCode .badLen) := by
  simp [withInput, State.inTooLong, h, fail]

@[simp] theorem inBytes_length (s : State) : s.inBytes.length = s.bufInLen.toNat := by
  unfold State.inBytes
  have : ∀ (m : Memory) n a, (Memory.readBytes m a n).length = n := by
    intro m n
    induction n with
    | zero => intro a; rfl
    | succ n ih => intro a; simp [Memory.readBytes, ih]
  exact this _ _ _

/-- A builder either finds no address block and writes nothing but STATUS, or commits the built frame and its DIAG bits. -/
theorem buildFrom_cases (s : State) (b : List Byte) (build : List AddrImage → List Byte → Built) :
    (findAddrBlock b = 0 ∧ buildFrom s b build = .next (s.setCode .badAddrBlock)) ∨
      (findAddrBlock b ≠ 0 ∧ ∃ r, r = build (imagesOf (findAddrBlock b) b) (b.drop (7 * findAddrBlock b)) ∧
        buildFrom s b build = .next (({ s with frame := r.frame }.addDiag r.diag).setCode .ok)) := by
  unfold buildFrom
  by_cases h : findAddrBlock b = 0
  · exact .inl ⟨h, by simp [h, fail]⟩
  · exact .inr ⟨h, _, rfl, by simp [h, ok, Config.addrOctets]⟩

/-- The payload part of IL2P_DECODE either finds an uncorrectable block, keeping CORR, or hands the payload on. -/
theorem il2pPayload_cases (s : State) (h : Hdr) (b : List Byte) (mh : Nat)
    (fin : State → List Byte → Host.Outcome State Fault Refusal) :
    (decodeBlocks (planFor (hdrCount h).toNat (hdrFec h)).parity (planFor (hdrCount h).toNat (hdrFec h)).sizes
        (b.drop 15) = none ∧
      il2pPayload s h b mh fin =
        .next ({ s with corrHdr := BitVec.ofNat 8 mh, corrPay := 0xFF }.setCode .fecFail)) ∨
      ∃ p mp, decodeBlocks (planFor (hdrCount h).toNat (hdrFec h)).parity
          (planFor (hdrCount h).toNat (hdrFec h)).sizes (b.drop 15) = some (p, mp) ∧
        il2pPayload s h b mh fin = fin (il2pCommit s h (planFor (hdrCount h).toNat (hdrFec h)) mh mp) p := by
  unfold il2pPayload
  simp only [Config.il2pHdrLen, Config.il2pHdrParity]
  cases hd : decodeBlocks (planFor (hdrCount h).toNat (hdrFec h)).parity
      (planFor (hdrCount h).toNat (hdrFec h)).sizes (b.drop 15) with
  | none => exact .inl ⟨rfl, by simp [fail]⟩
  | some r => exact .inr ⟨r.1, r.2, rfl, rfl⟩

end Sys2Proof.Machine
end

