-- ==== Sys2Proof/Laws/Plan.lean ====
section
/-! SUPPORT. The arithmetic of a payload plan (44_il2p_plan.md R241 to R244). -/

namespace Sys2Proof.Machine

/-- Data bytes per block and the bounds every plan of 1..1023 bytes meets. -/
theorem planFor_bounds {n : Nat} (h1 : 1 ≤ n) (h2 : n ≤ 1023) (f : Bool) :
    let p := planFor n f
    1 ≤ p.blocks ∧ p.blocks ≤ 5 ∧ p.largeSize = p.smallSize + 1 ∧ p.parity ∈ Config.paritySet ∧
      p.smallSize + p.parity ≤ 255 ∧ (0 < p.largeCount → p.largeSize + p.parity ≤ 255) ∧
      p.smallCount * p.smallSize + p.largeCount * p.largeSize = n ∧ p.largeCount < p.blocks ∧ p.smallSize ≤ 247 := by
  have h0 : n ≠ 0 := by omega
  cases f
  · simp only [planFor, planBlockData, h0, if_false, Bool.false_eq_true]
    generalize hb : (n + (247 - 1)) / 247 = b
    have hb1 : 1 ≤ b := by omega
    have hb5 : b ≤ 5 := by omega
    generalize hq : n / b = q
    have hpar : planParity q false ∈ Config.paritySet ∧ q + 1 + planParity q false ≤ max (q + 9) 0 := by
      unfold planParity
      split
      · contradiction
      · repeat' split
        all_goals simp; try omega
    have hpb : q ≤ 247 ∧ (q = 247 → n = b * 247) := by
      interval_cases b <;> omega
    have hqb : b * q ≤ n ∧ n < b * q + b := by
      interval_cases b <;> omega
    have hp8 : planParity q false ≤ 8 := by omega
    refine ⟨by simp only [Plan.blocks]; omega, by simp only [Plan.blocks]; omega, trivial, hpar.1, by omega, ?_, ?_, ?_,
      hpb.1⟩
    · intro hl
      show q + 1 + planParity q false ≤ 255
      have : q ≠ 247 := by
        intro e
        have := hpb.2 e
        subst e
        omega
      omega
    · show (b - (n - b * q)) * q + (n - b * q) * (q + 1) = n
      obtain ⟨r, hr⟩ : ∃ r, n = b * q + r := ⟨n - b * q, by omega⟩
      have hrb : r < b := by omega
      have e : n - b * q = r := by omega
      rw [e, Nat.mul_add, Nat.mul_one, ← Nat.add_assoc, ← Nat.add_mul, Nat.sub_add_cancel (by omega)]
      exact hr.symm
    · simp only [Plan.blocks]
      omega
  · simp only [planFor, planBlockData, h0, if_false, if_true]
    generalize hb : (n + (239 - 1)) / 239 = b
    have hb1 : 1 ≤ b := by omega
    have hb5 : b ≤ 5 := by omega
    generalize hq : n / b = q
    have hpar : planParity q true = 16 := rfl
    have hpb : q ≤ 239 ∧ (q = 239 → n = b * 239) := by
      interval_cases b <;> omega
    have hqb : b * q ≤ n ∧ n < b * q + b := by
      interval_cases b <;> omega
    refine ⟨by simp only [Plan.blocks]; omega, by simp only [Plan.blocks]; omega, trivial, by rw [hpar]; decide,
      by omega, ?_, ?_, ?_, by omega⟩
    · intro hl
      show q + 1 + planParity q true ≤ 255
      have : q ≠ 239 := by
        intro e
        have := hpb.2 e
        subst e
        omega
      omega
    · show (b - (n - b * q)) * q + (n - b * q) * (q + 1) = n
      obtain ⟨r, hr⟩ : ∃ r, n = b * q + r := ⟨n - b * q, by omega⟩
      have hrb : r < b := by omega
      have e : n - b * q = r := by omega
      rw [e, Nat.mul_add, Nat.mul_one, ← Nat.add_assoc, ← Nat.add_mul, Nat.sub_add_cancel (by omega)]
      exact hr.symm
    · simp only [Plan.blocks]
      omega

/-- The sizes are the large blocks, then the small ones (R243). -/
theorem sizes_eq (p : Plan) :
    p.sizes = List.replicate p.largeCount p.largeSize ++ List.replicate p.smallCount p.smallSize := by
  apply List.ext_getElem?
  intro i
  simp only [Plan.sizes, Plan.blocks, List.getElem?_map, List.getElem?_append, List.getElem?_replicate,
    List.length_replicate]
  by_cases h1 : i < p.largeCount
  · have h2 : i < p.smallCount + p.largeCount := by omega
    simp [Plan.size, h1, h2]
  · by_cases h2 : i < p.smallCount + p.largeCount
    · have h3 : i - p.largeCount < p.smallCount := by omega
      simp [Plan.size, h1, h2, h3]
    · have h3 : ¬ i - p.largeCount < p.smallCount := by omega
      simp [h1, h2, h3]

theorem sizes_sum {n : Nat} (h2 : n ≤ 1023) (f : Bool) : (planFor n f).sizes.sum = n := by
  by_cases h1 : n = 0
  · subst h1
    rfl
  · have h := planFor_bounds (by omega : 1 ≤ n) h2 f
    rw [sizes_eq]
    simp only [List.sum_append, List.sum_replicate, smul_eq_mul]
    have := h.2.2.2.2.2.2.1
    omega

@[simp] theorem sizes_length (p : Plan) : p.sizes.length = p.blocks := by simp [Plan.sizes]

/-- Every block fits one RS codeword. -/
theorem sizes_fit {n : Nat} (h2 : n ≤ 1023) (f : Bool) :
    ∀ k ∈ (planFor n f).sizes, k + (planFor n f).parity ≤ 255 := by
  intro k hk
  by_cases h1 : n = 0
  · subst h1
    simp [Plan.sizes, planFor, Plan.blocks] at hk
  · have h := planFor_bounds (by omega : 1 ≤ n) h2 f
    rw [sizes_eq, List.mem_append, List.mem_replicate, List.mem_replicate] at hk
    rcases hk with ⟨hc, rfl⟩ | ⟨-, rfl⟩
    · exact h.2.2.2.2.2.1 (Nat.pos_of_ne_zero hc)
    · exact h.2.2.2.2.1

/-- The parity of a plan with blocks is one RS allows. -/
theorem parity_mem {n : Nat} (h1 : 1 ≤ n) (h2 : n ≤ 1023) (f : Bool) : (planFor n f).parity ∈ Config.paritySet :=
  (planFor_bounds h1 h2 f).2.2.2.1

/-- The longest on-air payload is 1103 bytes (R244). -/
theorem payLen_le {n : Nat} (h2 : n ≤ 1023) (f : Bool) : payLen n f ≤ 1103 := by
  by_cases h1 : n = 0
  · subst h1
    simp [payLen, planFor, Plan.blocks]
  · have h := planFor_bounds (by omega : 1 ≤ n) h2 f
    have hp : (planFor n f).parity ≤ 16 := by
      have := h.2.2.2.1
      simp only [Config.paritySet, List.mem_cons, List.not_mem_nil, or_false] at this
      omega
    have := Nat.mul_le_mul h.2.1 hp
    unfold payLen
    omega

end Sys2Proof.Machine
end

