-- ==== Sys2Proof/Laws/Il2p.lean ====
section
/-! SUPPORT. The payload blocks of an IL2P frame (45_il2p_frame.md R260 to R263). -/

namespace Sys2Proof.Machine

/-- The payload that decodes from long enough blocks has as many bytes as the plan's sizes sum to. -/
theorem decodeBlocks_length {parity : Nat} : ∀ {sizes : List Nat} {b p : List Byte} {m : Nat},
    sizes.sum + sizes.length * parity ≤ b.length → decodeBlocks parity sizes b = some (p, m) → p.length = sizes.sum := by
  intro sizes
  induction sizes with
  | nil =>
    intro b p m _ h
    simp only [decodeBlocks, Option.some.injEq, Prod.mk.injEq] at h
    simp [← h.1]
  | cons k ks ih =>
    intro b p m hl h
    simp only [List.sum_cons, List.length_cons, Nat.add_mul, Nat.one_mul] at hl
    simp only [decodeBlocks] at h
    split at h
    · cases h
    · next w mw hw =>
      split at h
      · cases h
      · next q mq hq =>
        simp only [Option.some.injEq, Prod.mk.injEq] at h
        have hw' := (rsDecode_spec hw).1
        have hq' := ih (by rw [List.length_drop]; omega) hq
        rw [List.length_take] at hw'
        rw [← h.1, List.length_append, descramble_length, List.length_take, hq', List.sum_cons]
        omega

/-- Decoding the blocks that were encoded gives the payload back, with no correction. -/
theorem decodeBlocks_onAirBlocks {parity : Nat} : ∀ {sizes : List Nat} {p : List Byte},
    (sizes ≠ [] → parity ∈ Config.paritySet) → (∀ k ∈ sizes, k + parity ≤ 255) → sizes.sum = p.length →
    decodeBlocks parity sizes (onAirBlocks parity sizes p) = some (p, 0) := by
  intro sizes
  induction sizes with
  | nil =>
    intro p _ _ hs
    have : p = [] := List.eq_nil_of_length_eq_zero (by simpa using hs.symm)
    simp [decodeBlocks, this]
  | cons k ks ih =>
    intro p hp hk hs
    rw [List.sum_cons] at hs
    have hpar := hp (List.cons_ne_nil _ _)
    have hkl : (p.take k).length = k := by rw [List.length_take]; omega
    have hpl : (protect parity (p.take k)).length = k + parity := by rw [protect_length, hkl]
    obtain ⟨h1, h2⟩ := rsDecode_protect (d := p.take k) hpar (by rw [hkl]; exact hk k List.mem_cons_self)
    rw [hkl] at h2
    rw [onAirBlocks, decodeBlocks, List.take_left' hpl, h1, List.drop_left' hpl]
    simp only
    rw [ih (fun _ => hpar) (fun j hj => hk j (List.mem_cons_of_mem _ hj)) (by rw [List.length_drop]; omega)]
    simp only
    rw [h2, List.take_append_drop]

/-- The length of the encoded blocks (R244). -/
theorem onAirBlocks_length {parity : Nat} : ∀ {sizes : List Nat} {p : List Byte}, sizes.sum = p.length →
    (onAirBlocks parity sizes p).length = p.length + sizes.length * parity := by
  intro sizes
  induction sizes with
  | nil => intro p hs; simp at hs; simp [onAirBlocks, ← hs]
  | cons k ks ih =>
    intro p hs
    rw [List.sum_cons] at hs
    rw [onAirBlocks, List.length_append, protect_length, ih (by rw [List.length_drop]; omega), List.length_take,
      List.length_drop, List.length_cons, Nat.add_mul, Nat.one_mul]
    omega

/-- The length of an on-air frame (R244, R260). -/
theorem onAir_length (h : Hdr) {p : List Byte} (hp : p.length ≤ 1023) (f : Bool) :
    (onAir h (planFor p.length f) p).length = 15 + payLen p.length f := by
  unfold onAir
  rw [List.length_append, protect_length, onAirBlocks_length (sizes_sum hp f), sizes_length]
  simp [hdrBytes, payLen, Config.il2pHdrParity]

/-- An encoded payload of at most 1023 bytes decodes back under its plan. -/
theorem decodeBlocks_onAir {p : List Byte} (hp : p.length ≤ 1023) (f : Bool) :
    decodeBlocks (planFor p.length f).parity (planFor p.length f).sizes
      (onAirBlocks (planFor p.length f).parity (planFor p.length f).sizes p) = some (p, 0) := by
  refine decodeBlocks_onAirBlocks (fun hne => ?_) (sizes_fit hp f) (sizes_sum hp f)
  by_cases h0 : p.length = 0
  · exact absurd (by rw [h0]; rfl) hne
  · exact parity_mem (by omega) hp f

end Sys2Proof.Machine
end

