-- ==== Sys2Proof/Laws/Commands.lean ====
section
/-! SUPPORT. Every way each command can end, said once: `Ends o bad good` where `bad` says what a failed command may have kept and
`good` what a command that ends OK has written. A proof about all commands goes through these and unfolds no meaning. -/

namespace Sys2Proof.Machine

/-- The command ended, with a failure code on a state `bad` allows, or OK on a state `good` allows. -/
def Ends (o : Host.Outcome State Fault Refusal) (bad : StatusCode → State → Prop) (good : State → Prop) : Prop :=
  (∃ c u, c ≠ .ok ∧ bad c u ∧ o = .next (u.setCode c)) ∨ ∃ u, good u ∧ o = .next (u.setCode .ok)

/-- The command fails with nothing written but STATUS. -/
def Clean (s : State) (_ : StatusCode) (u : State) : Prop := u = s

variable {bad : StatusCode → State → Prop} {good : State → Prop}

theorem Ends.ok {t : State} (h : good t) : Ends (ok t) bad good := .inr ⟨t, h, rfl⟩

theorem Ends.fail {c : StatusCode} {u : State} (hc : c ≠ .ok) (h : bad c u) : Ends (fail c u) bad good :=
  .inl ⟨c, u, hc, h, rfl⟩

theorem Ends.input {s : State} {body : List Byte → Host.Outcome State Fault Refusal} (h : bad .badLen s)
    (hb : s.bufInLen.toNat ≤ s.params.bufCap → Ends (body s.inBytes) bad good) : Ends (withInput s body) bad good := by
  rcases withInput_cases s body with ⟨-, e⟩ | ⟨hf, e⟩ <;> rw [e]
  · exact .inl ⟨_, s, by decide, h, rfl⟩
  · exact hb hf

theorem Ends.build {s : State} {b : List Byte} {build : List AddrImage → List Byte → Built} (h : bad .badAddrBlock s)
    (hb : findAddrBlock b ≠ 0 → ∀ r, r = build (imagesOf (findAddrBlock b) b) (b.drop (7 * findAddrBlock b)) →
      good ({ s with frame := r.frame }.addDiag r.diag)) : Ends (buildFrom s b build) bad good := by
  rcases buildFrom_cases s b build with ⟨-, e⟩ | ⟨hk, r, hr, e⟩ <;> rw [e]
  · exact .inl ⟨_, s, by decide, h, rfl⟩
  · exact .inr ⟨_, hb hk r hr, rfl⟩

/-- What a command that ended left: the state `bad` or `good` speaks of, with the code in STATUS. -/
theorem Ends.cases {o : Host.Outcome State Fault Refusal} {t : State} (h : Ends o bad good) (ht : o = .next t) :
    (∃ u, t.code ≠ .ok ∧ bad t.code u ∧ t = u.setCode t.code) ∨ ∃ u, good u ∧ t = u.setCode .ok := by
  rcases h with ⟨c, u, hc, hb, e⟩ | ⟨u, hg, e⟩
  · rw [e] at ht
    cases ht
    exact .inl ⟨u, hc, hb, rfl⟩
  · rw [e] at ht
    cases ht
    exact .inr ⟨u, hg, rfl⟩

theorem Ends.next {o : Host.Outcome State Fault Refusal} (h : Ends o bad good) : ∃ t, o = .next t := by
  rcases h with ⟨c, u, -, -, e⟩ | ⟨u, -, e⟩ <;> exact ⟨_, e⟩

/-! ### Housekeeping and addresses -/

theorem execNop_ends (s : State) : Ends (execNop s) (Clean s) (· = s) := Ends.ok rfl

theorem execXfer_ends (s : State) : Ends (execXfer s) (Clean s)
    (· = { s with bufIn := Memory.writeBytes s.params.bufCap s.bufIn 0 s.bufOut, bufInLen := s.bufOutLen }) := Ends.ok rfl

theorem execDiagClear_ends (s : State) : Ends (execDiagClear s) (Clean s) (· = { s with diag := 0 }) := Ends.ok rfl

theorem execAddrEncode_ends (ssid : BitVec 4) (hbit last : Bool) (s : State) : Ends (execAddrEncode ssid hbit last s)
    (Clean s) (· = s.putOut (addrEncode s.inBytes ssid hbit last).bytes) := by
  refine Ends.input rfl fun _ => ?_
  split
  · exact Ends.ok rfl
  · exact Ends.fail (by decide) rfl

theorem execAddrDecode_ends (s : State) : Ends (execAddrDecode s) (Clean s) (fun t => ∃ a : AddrImage,
    t = { s with resAddr := addrFields a a.last }.putOut (addrDecodeCall a)) := by
  refine Ends.input rfl fun _ => ?_
  split
  · exact Ends.ok ⟨_, rfl⟩
  · exact Ends.fail (by decide) rfl

theorem execAddrRead_ends (n : BitVec 4) (s : State) : Ends (execAddrRead n s) (Clean s) (fun t => ∃ a l,
    t = { s with resAddr := addrFields a l }.putOut (addrDecodeCall a)) := by
  unfold execAddrRead
  split
  · split
    · exact Ends.fail (by decide) rfl
    · exact Ends.ok ⟨_, _, rfl⟩
  · exact Ends.fail (by decide) rfl

theorem execAddrSet_ends (n ssid : BitVec 4) (hbit : Bool) (s : State) : Ends (execAddrSet n ssid hbit s) (Clean s)
    (fun t => s.frame.valid = true ∧ ∃ call bit7, t = { s with
      frame := { s.frame with addrs := s.frame.addrs.set n.toNat (addrEncode call ssid bit7 false) } }) := by
  refine Ends.input rfl fun _ => ?_
  split
  · next hv =>
    split
    · exact Ends.fail (by decide) rfl
    · split
      · exact Ends.ok ⟨hv, _, _, rfl⟩
      · exact Ends.fail (by decide) rfl
  · exact Ends.fail (by decide) rfl

theorem execAddrInsert_ends (n ssid : BitVec 4) (hbit : Bool) (s : State) : Ends (execAddrInsert n ssid hbit s) (Clean s)
    (fun t => s.frame.valid = true ∧ 2 ≤ s.frame.naddr ∧ s.frame.naddr ≠ 10 ∧ n.toNat ≤ s.frame.naddr ∧
      s.frame.len + 7 ≤ s.params.maxPacketLen ∧
      ∃ call, t = { s with
        frame := { s.frame with addrs := insertAt s.frame.addrs n.toNat (addrEncode call ssid hbit false) } }) := by
  refine Ends.input rfl fun _ => ?_
  split
  · next hv =>
    split
    · exact Ends.fail (by decide) rfl
    · next hi =>
      split
      · exact Ends.fail (by decide) rfl
      · next hl =>
        simp only [Config.addrOctets, Config.minAddrs, Config.maxAddrs] at hi hl
        split
        · exact Ends.ok ⟨hv, by omega, by omega, by omega, by omega, _, rfl⟩
        · exact Ends.fail (by decide) rfl
  · exact Ends.fail (by decide) rfl

theorem execAddrRemove_ends (n : BitVec 4) (s : State) : Ends (execAddrRemove n s) (Clean s)
    (fun t => s.frame.valid = true ∧ 2 ≤ n.toNat ∧ n.toNat < s.frame.naddr ∧
      t = { s with frame := { s.frame with addrs := removeAt s.frame.addrs n.toNat } }) := by
  unfold execAddrRemove
  split
  · next hv =>
    split
    · exact Ends.fail (by decide) rfl
    · exact Ends.ok ⟨hv, by omega, by omega, rfl⟩
  · exact Ends.fail (by decide) rfl

/-! ### Frames -/

theorem execFrameLoad_ends (m128 : Bool) (s : State) : Ends (execFrameLoad m128 s) (Clean s)
    (fun t => loadable s.params s.inBytes.length = true ∧ t = { s with frame := loadFrame s.inBytes m128 }) := by
  refine Ends.input rfl fun _ => ?_
  split
  · next h => exact Ends.ok ⟨h, rfl⟩
  · exact Ends.fail (by decide) rfl

theorem execFramePack_ends (s : State) : Ends (execFramePack s) (Clean s)
    (fun t => s.frame.valid = true ∧ t = s.putOut (pack s.frame)) := by
  unfold execFramePack
  split
  · next h => exact Ends.ok ⟨h, rfl⟩
  · exact Ends.fail (by decide) rfl

theorem execFrameClassify_ends (s : State) : Ends (execFrameClassify s) (Clean s)
    (· = { s with resClass := (classify s.frame).regs }) := by
  unfold execFrameClassify
  split
  · exact Ends.ok rfl
  · exact Ends.fail (by decide) rfl

/-- What a builder commits, for the images and the information it found in BUF_IN. -/
def Builds (s : State) (build : List AddrImage → List Byte → Built) (t : State) : Prop :=
  findAddrBlock s.inBytes ≠ 0 ∧ ∃ r,
    r = build (imagesOf (findAddrBlock s.inBytes) s.inBytes) (s.inBytes.drop (7 * findAddrBlock s.inBytes)) ∧
    t = { s with frame := r.frame }.addDiag r.diag

theorem execBuildU_ends (sel : BitVec 4) (cr pf : Bool) (pid : Byte) (m128 : Bool) (s : State) :
    Ends (execBuildU sel cr pf pid m128 s) (Clean s)
      (fun t => sel.toNat ≤ 8 ∧ Builds s (buildU s.params (FrameType.ofCode sel) cr pf pid m128) t) := by
  refine Ends.input rfl fun _ => ?_
  split
  · exact Ends.fail (by decide) rfl
  · exact Ends.build rfl fun hk r hr => ⟨by omega, hk, r, hr, rfl⟩

theorem execBuildS_ends (sel : BitVec 4) (cr pf : Bool) (nr : BitVec 7) (m128 : Bool) (s : State) :
    Ends (execBuildS sel cr pf nr m128 s) (Clean s)
      (fun t => 9 ≤ sel.toNat ∧ sel.toNat ≤ 12 ∧
        Builds s (buildS s.params (FrameType.ofCode sel) cr pf nr m128) t) := by
  refine Ends.input rfl fun _ => ?_
  split
  · exact Ends.fail (by decide) rfl
  · exact Ends.build rfl fun hk r hr => ⟨by omega, by omega, hk, r, hr, rfl⟩

theorem execBuildI_ends (cr pf : Bool) (nr ns : BitVec 7) (pid : Byte) (m128 : Bool) (s : State) :
    Ends (execBuildI cr pf nr ns pid m128 s) (Clean s) (Builds s (buildI s.params cr pf nr ns pid m128)) := by
  refine Ends.input rfl fun _ => ?_
  exact Ends.build rfl fun hk r hr => ⟨hk, r, hr, rfl⟩

/-! ### The frame check sequence -/

theorem execFcsCalc_ends (s : State) : Ends (execFcsCalc s) (Clean s) (· = { s with fcs := fcs s.inBytes }) :=
  Ends.input rfl fun _ => Ends.ok rfl

theorem execFcsGen_ends (s : State) : Ends (execFcsGen s) (Clean s)
    (fun t => s.inBytes.length + 2 ≤ s.params.bufCap ∧
      t = { s with fcs := fcs s.inBytes }.putOut (s.inBytes ++ fcsBytes (fcs s.inBytes))) := by
  refine Ends.input rfl fun _ => ?_
  split
  · exact Ends.fail (by decide) rfl
  · exact Ends.ok ⟨by omega, rfl⟩

theorem execFcsCheck_ends (s : State) : Ends (execFcsCheck s) (Clean s) (fun t => ∃ f, t = { s with fcs := f }) := by
  refine Ends.input rfl fun _ => ?_
  dsimp only
  split
  · exact Ends.fail (by decide) rfl
  · split
    · exact Ends.ok ⟨_, rfl⟩
    · exact Ends.fail (by decide) rfl

theorem execFramePackFcs_ends (s : State) : Ends (execFramePackFcs s) (Clean s)
    (fun t => s.frame.valid = true ∧
      t = { s with fcs := fcs (pack s.frame) }.putOut (pack s.frame ++ fcsBytes (fcs (pack s.frame)))) := by
  unfold execFramePackFcs
  split
  · next h => exact Ends.ok ⟨h, rfl⟩
  · exact Ends.fail (by decide) rfl

/-! ### IL2P headers and the planner -/

theorem hdr1Enc_error {f : Frame} {m : Bool} {c : StatusCode} (h : hdr1Enc f m = .error c) : c ≠ .ok := by
  unfold hdr1Enc at h
  repeat' split at h
  all_goals first
    | (cases h; decide)
    | cases h

theorem hdr0Enc_error {f : Frame} {m : Bool} {c : StatusCode} (h : hdr0Enc f m = .error c) : c ≠ .ok := by
  unfold hdr0Enc at h
  repeat' split at h
  all_goals first
    | (cases h; decide)
    | cases h

/-- HDR1_ENC succeeds only on a valid frame that is encodable and not too long, and answers R210's header. -/
theorem hdr1Enc_ok {f : Frame} {m : Bool} {h : Hdr} {n : Nat} (e : hdr1Enc f m = .ok (h, n)) :
    f.valid = true ∧ type1Refused f = false ∧ (infoOf f).length ≤ 1023 ∧ h = type1Header f m ∧ n = (infoOf f).length := by
  unfold hdr1Enc at e
  split at e
  · cases e
  · split at e
    · cases e
    · split at e
      · cases e
      · next h1 h2 h3 =>
          simp only [Config.il2pMaxPayload] at h3
          simp only [Except.ok.injEq, Prod.mk.injEq] at e
          obtain ⟨rfl, rfl⟩ := e
          exact ⟨by simpa using h1, by simpa using h2, by omega, rfl, rfl⟩

/-- HDR0_ENC succeeds only on a valid frame of 14 to 1023 bytes, and answers R211's header. -/
theorem hdr0Enc_ok {f : Frame} {m : Bool} {h : Hdr} (e : hdr0Enc f m = .ok h) :
    f.valid = true ∧ 14 ≤ f.len ∧ f.len ≤ 1023 ∧ h = putTrailer zeroHdr m false f.len := by
  unfold hdr0Enc at e
  split at e
  · cases e
  · split at e
    · cases e
    · split at e
      · cases e
      · next h1 h2 h3 =>
          simp only [Config.il2pMaxPayload, Config.type0MinLen] at h2 h3
          simp only [Except.ok.injEq] at e
          subst e
          exact ⟨by simpa using h1, by omega, by omega, rfl⟩

theorem execHdr1Enc_ends (maxFec : Bool) (s : State) : Ends (execHdr1Enc maxFec s) (Clean s)
    (fun t => hdr1Enc s.frame maxFec = .ok (type1Header s.frame maxFec, (infoOf s.frame).length) ∧
      t = { s with hdr := type1Header s.frame maxFec, resInfoLen := BitVec.ofNat 11 (infoOf s.frame).length,
                   resHdr := { hdrType := true, maxFec := maxFec,
                               count := BitVec.ofNat 10 (infoOf s.frame).length } }) := by
  unfold execHdr1Enc
  split
  · next h => exact Ends.fail (hdr1Enc_error h) rfl
  · next h =>
    obtain ⟨-, -, -, rfl, rfl⟩ := hdr1Enc_ok h
    exact Ends.ok ⟨h, rfl⟩

theorem execHdr0Enc_ends (maxFec : Bool) (s : State) : Ends (execHdr0Enc maxFec s) (Clean s)
    (fun t => hdr0Enc s.frame maxFec = .ok (putTrailer zeroHdr maxFec false s.frame.len) ∧
      t = { s with hdr := putTrailer zeroHdr maxFec false s.frame.len, resInfoLen := 0,
                   resHdr := { hdrType := false, maxFec := maxFec, count := BitVec.ofNat 10 s.frame.len } }) := by
  unfold execHdr0Enc
  split
  · next h => exact Ends.fail (hdr0Enc_error h) rfl
  · next h =>
    obtain ⟨-, -, -, rfl⟩ := hdr0Enc_ok h
    exact Ends.ok ⟨h, rfl⟩

theorem execHdrAttr_ends (s : State) : Ends (execHdrAttr s) (Clean s) (· = { s with resHdr := hdrAttrs s.hdr }) :=
  Ends.ok rfl

/-- A type-1 header with a bad call keeps DIAG.HDR_SUSPICIOUS; everything else that HDR1_DEC fails with is clean. -/
theorem execHdr1Dec_ends (s : State) : Ends (execHdr1Dec s)
    (fun c u => c = .hdrReject ∧ ∃ b, u = s.addDiag (diagIf b .hdrSuspicious))
    (fun t => ∃ r, hdr1Dec s.params s.hdr = .built r ∧ t = { s with frame := r.frame }.addDiag r.diag) := by
  unfold execHdr1Dec
  split
  · exact Ends.fail (by decide) ⟨rfl, false, by simp [diagIf, State.addDiag]⟩
  · exact Ends.fail (by decide) ⟨rfl, _, rfl⟩
  · next r h => exact Ends.ok ⟨r, h, rfl⟩

theorem execHdrClarify_ends (s : State) : Ends (execHdrClarify s)
    (fun c u => u = s ∨ c = .fecFail ∧ u = { s with corrHdr := 0xFF })
    (fun t => ∃ h m, t = { s with hdr := h, corrHdr := BitVec.ofNat 8 m, resHdr := hdrAttrs h }) := by
  refine Ends.input (.inl rfl) fun _ => ?_
  split
  · exact Ends.fail (by decide) (.inl rfl)
  · split
    · exact Ends.fail (by decide) (.inr ⟨rfl, rfl⟩)
    · exact Ends.ok ⟨_, _, rfl⟩

theorem execHdrEmit_ends (s : State) : Ends (execHdrEmit s) (Clean s) (· = s.putOut (protect 2 (hdrBytes s.hdr))) :=
  Ends.ok rfl

theorem execPlan_ends (count : BitVec 10) (maxFec : Bool) (s : State) : Ends (execPlan count maxFec s) (Clean s)
    (· = { s with plan := (planFor count.toNat maxFec).regs }) := Ends.ok rfl

/-! ### IL2P frames -/

/-- What IL2P_ENCODE sends: the type-1 header and the information, or, where that is NOT_ENCODABLE, the type-0 header and the
packed frame. -/
theorem il2pChoose_cases (f : Frame) (maxFec : Bool) :
    (∃ c, c ≠ .ok ∧ il2pChoose f maxFec = .error c) ∨
    (∃ h n, hdr1Enc f maxFec = .ok (h, n) ∧
      il2pChoose f maxFec = .ok { hdr := h, type1 := true, body := infoOf f, ilen := n }) ∨
    (hdr1Enc f maxFec = .error .notEncodable ∧ ∃ h, hdr0Enc f maxFec = .ok h ∧
      il2pChoose f maxFec = .ok { hdr := h, type1 := false, body := pack f, ilen := 0 }) := by
  unfold il2pChoose
  cases h1 : hdr1Enc f maxFec with
  | ok r => exact .inr (.inl ⟨r.1, r.2, rfl, rfl⟩)
  | error c =>
    have hc := hdr1Enc_error h1
    by_cases e : c = .notEncodable
    · subst e
      cases h0 : hdr0Enc f maxFec with
      | ok h => exact .inr (.inr ⟨rfl, h, rfl, rfl⟩)
      | error c => exact .inl ⟨c, hdr0Enc_error h0, rfl⟩
    · exact .inl ⟨c, hc, by cases c <;> first | rfl | exact absurd rfl e⟩

/-- The writes of an IL2P_ENCODE that ends OK. -/
def il2pSent (s : State) (maxFec : Bool) (r : Il2pChoice) : State :=
  { s with hdr := r.hdr, resInfoLen := BitVec.ofNat 11 r.ilen, plan := (planFor r.body.length maxFec).regs,
           resHdr := { hdrType := r.type1, maxFec := maxFec, count := BitVec.ofNat 10 r.body.length } }.putOut
    (onAir r.hdr (planFor r.body.length maxFec) r.body)

theorem execIl2pEncode_ends (maxFec : Bool) (s : State) : Ends (execIl2pEncode maxFec s) (Clean s)
    (fun t => ∃ r, il2pChoose s.frame maxFec = .ok r ∧ t = il2pSent s maxFec r) := by
  unfold execIl2pEncode
  split
  · next c h =>
    rcases il2pChoose_cases s.frame maxFec with ⟨c', hc, e⟩ | ⟨_, _, -, e⟩ | ⟨-, _, -, e⟩ <;> rw [h] at e <;> cases e
    exact Ends.fail hc rfl
  · next r h => exact Ends.ok ⟨r, h, rfl⟩

theorem Ends.payload {s : State} {h : Hdr} {b : List Byte} {mh : Nat}
    {fin : State → List Byte → Host.Outcome State Fault Refusal}
    (hl : 15 + payLen (hdrCount h).toNat (hdrFec h) ≤ b.length)
    (hbad : bad .fecFail { s with corrHdr := BitVec.ofNat 8 mh, corrPay := 0xFF })
    (hf : ∀ p mp, p.length = (hdrCount h).toNat →
      Ends (fin (il2pCommit s h (planFor (hdrCount h).toNat (hdrFec h)) mh mp) p) bad good) :
    Ends (il2pPayload s h b mh fin) bad good := by
  rcases il2pPayload_cases s h b mh fin with ⟨-, e⟩ | ⟨p, mp, hd, e⟩ <;> rw [e]
  · exact Ends.fail (by decide) hbad
  · refine hf p mp ?_
    have hn : (hdrCount h).toNat ≤ 1023 := by have := (hdrCount h).isLt; omega
    have hsum := sizes_sum hn (hdrFec h)
    rw [← hsum]
    refine decodeBlocks_length ?_ hd
    rw [hsum, sizes_length, List.length_drop]
    unfold payLen at hl
    omega

/-- What IL2P_DECODE keeps when it fails: CORR on FEC_FAIL, DIAG.HDR_SUSPICIOUS on HDR_REJECT; and what it writes when it ends
OK, the frame being that of the type-1 header with the payload appended, or that of the payload loaded. -/
theorem execIl2pDecode_ends (m128 : Bool) (s : State) : Ends (execIl2pDecode m128 s)
    (fun c u => (c = .badLen ∨ c = .hdrReject) ∧ u = s ∨
      c = .fecFail ∧ (∃ m, u = { s with corrHdr := m, corrPay := 0xFF }) ∨
      c = .hdrReject ∧ ∃ b, u = s.addDiag (diagIf b .hdrSuspicious))
    (fun t => ∃ h plan mh mp p,
      (∃ r, hdr1Dec s.params h = .built r ∧ p.length = (hdrCount h).toNat ∧
        t = { il2pCommit s h plan mh mp with frame := { r.frame with rest := r.frame.rest ++ p } }.addDiag r.diag) ∨
      (p.length = (hdrCount h).toNat ∧ loadable s.params (hdrCount h).toNat = true ∧
        t = { il2pCommit s h plan mh mp with frame := loadFrame p m128 })) := by
  refine Ends.input (.inl ⟨.inl rfl, rfl⟩) fun _ => ?_
  simp only [Config.il2pHdrLen, Config.il2pHdrParity]
  split
  · exact Ends.fail (by decide) (.inl ⟨.inl rfl, rfl⟩)
  · split
    · exact Ends.fail (by decide) (.inr (.inl ⟨rfl, _, rfl⟩))
    · next c mh hc =>
      generalize hdrOfBytes (descramble (c.take 13)) = h
      split
      · exact Ends.fail (by decide) (.inl ⟨.inl rfl, rfl⟩)
      · next hl =>
        split
        · split
          · exact Ends.fail (by decide) (.inl ⟨.inr rfl, rfl⟩)
          · exact Ends.fail (by decide) (.inr (.inr ⟨rfl, _, rfl⟩))
          · next r hr => exact Ends.payload (by omega) (.inr (.inl ⟨rfl, _, rfl⟩)) fun p mp hp => Ends.ok ⟨_, _, _, _, _, .inl ⟨r, hr, hp, rfl⟩⟩
        · refine Ends.payload (by omega) (.inr (.inl ⟨rfl, _, rfl⟩)) fun p mp hp => ?_
          split
          · next hload => exact Ends.ok ⟨_, _, _, _, _, .inr ⟨hp, hload, rfl⟩⟩
          · exact Ends.fail (by decide) (.inl ⟨.inl rfl, rfl⟩)

end Sys2Proof.Machine
end

