-- ==== Sys2Proof/Laws/Encoding.lean ====
section
/-! SUPPORT. Where each field stands in a command word built by `CmdFields.word` (30_encoding.md R80). -/

namespace Sys2Proof

/-- Bit by bit, the word of R80. -/
theorem word_getLsbD (f : CmdFields) {k : Nat} (hk : k < 64) : f.word.getLsbD k =
    if k < 8 then f.op.getLsbD k
    else if k < 16 then f.pid.getLsbD (k - 8)
    else if k < 20 then f.sel.getLsbD (k - 16)
    else if k < 21 then f.cr
    else if k < 22 then f.pf
    else if k < 29 then f.nr.getLsbD (k - 22)
    else if k < 36 then f.ns.getLsbD (k - 29)
    else if k < 37 then f.m128
    else if k < 38 then f.maxFec
    else if k < 39 then f.hbit
    else if k < 43 then f.ssid.getLsbD (k - 39)
    else if k < 53 then f.count.getLsbD (k - 43)
    else if k < 54 then f.last
    else false := by
  simp only [CmdFields.word, BitVec.getLsbD_append]
  interval_cases k <;> simp

/-- RSV of a built word is 0. -/
theorem word_rsv (f : CmdFields) : CmdWord.rsv f.word = 0 := by
  apply BitVec.eq_of_getLsbD_eq
  intro i hi
  rw [CmdWord.rsv, BitVec.getLsbD_extractLsb', word_getLsbD f (by omega)]
  interval_cases i <;> simp

/-- Operand assembly reads back the fields a word was built from. -/
theorem fields_word (f : CmdFields) : CmdWord.fields f.word = f := by
  have ext : ∀ {w : Nat} (x : BitVec w) (lo : Nat), (∀ i, i < w → f.word.getLsbD (lo + i) = x.getLsbD i) →
      f.word.extractLsb' lo w = x := by
    intro w x lo h
    apply BitVec.eq_of_getLsbD_eq
    intro i hi
    rw [BitVec.getLsbD_extractLsb', h i hi]
    simp [hi]
  obtain ⟨op, pid, sel, cr, pf, nr, ns, m128, maxFec, hbit, ssid, count, last⟩ := f
  simp only [CmdWord.fields, CmdFields.mk.injEq]
  refine ⟨ext _ _ ?_, ext _ _ ?_, ext _ _ ?_, ?_, ?_, ext _ _ ?_, ext _ _ ?_, ?_, ?_, ?_, ext _ _ ?_, ext _ _ ?_, ?_⟩
  all_goals first
    | (intro i hi; rw [word_getLsbD _ (by omega)]; interval_cases i <;> simp)
    | (rw [word_getLsbD _ (by omega)]; simp)

/-- A word whose RSV is 0 is the word built from the fields read off it. -/
theorem word_fields {w : CmdWord} (h : w.rsv = 0) : w.fields.word = w := by
  apply BitVec.eq_of_getLsbD_eq
  intro k hk
  rw [word_getLsbD _ hk]
  simp only [CmdWord.fields, BitVec.getLsbD_extractLsb']
  have hr : 54 ≤ k → w.getLsbD k = false := by
    intro h54
    have := congrArg (fun x => x.getLsbD (k - 54)) h
    simp only [CmdWord.rsv, BitVec.getLsbD_extractLsb'] at this
    have e : 54 + (k - 54) = k := by omega
    have e2 : k - 54 < 10 := by omega
    simpa [e, e2] using this
  by_cases h54 : 54 ≤ k
  · rw [hr h54]
    interval_cases k <;> rfl
  · clear hr
    interval_cases k <;> simp at *

/-- A built word whose opcode R83 assigns is legal. -/
theorem word_wf {f : CmdFields} (h : assignedOpcodes.contains f.op.toNat = true) : CmdWord.wf f.word = true := by
  have hr : f.word.extractLsb' 54 10 = 0 := word_rsv f
  have ho : f.word.extractLsb' 0 8 = f.op := congrArg CmdFields.op (fields_word f)
  rw [CmdWord.wf, hr, ho, h]
  rfl

end Sys2Proof
end

