-- ==== Sys2Proof/Laws/Fcs.lean ====
section
/-! SUPPORT. The shift register of the frame check sequence (42_fcs.md R180) is linear and loses nothing. -/

namespace Sys2Proof.Machine

theorem crcShift_xor (a b : BitVec 16) : crcShift (a ^^^ b) = crcShift a ^^^ crcShift b := by
  unfold crcShift
  have hx : (a ^^^ b) >>> 1 = (a >>> 1) ^^^ (b >>> 1) := by
    apply BitVec.eq_of_getLsbD_eq
    intro i _
    simp
  rw [BitVec.getLsbD_xor, hx]
  cases a.getLsbD 0 <;> cases b.getLsbD 0 <;> simp
  · ac_rfl
  · ac_rfl
  · rw [BitVec.xor_assoc, BitVec.xor_comm (33800#16), BitVec.xor_assoc, BitVec.xor_self]
    simp

theorem crcRepeat_xor (n : Nat) : ∀ a b : BitVec 16,
    Nat.repeat crcShift n (a ^^^ b) = Nat.repeat crcShift n a ^^^ Nat.repeat crcShift n b := by
  induction n with
  | zero => intro a b; rfl
  | succ n ih => intro a b; simp only [Nat.repeat]; rw [ih, crcShift_xor]

/-- A shift gives 0 only from 0: what falls out comes back in bit 15. -/
theorem crcShift_eq_zero {a : BitVec 16} (h : crcShift a = 0) : a = 0 := by
  unfold crcShift at h
  have hb : ∀ k, (a >>> 1).getLsbD k = a.getLsbD (k + 1) := by
    intro k
    rw [BitVec.getLsbD_ushiftRight, Nat.add_comm]
  cases h0 : a.getLsbD 0 with
  | false =>
    rw [h0] at h
    simp only [Bool.false_eq_true, if_false] at h
    apply BitVec.eq_of_getLsbD_eq
    intro i _
    cases i with
    | zero => rw [h0]; rfl
    | succ i => rw [← hb, h]; simp
  | true =>
    rw [h0] at h
    simp only [if_true] at h
    have h15 := congrArg (fun x => x.getLsbD 15) h
    simp only [BitVec.getLsbD_xor, hb] at h15
    rw [BitVec.getLsbD_of_ge a 16 (by omega)] at h15
    exact absurd h15 (by decide)

theorem crcRepeat_eq_zero : ∀ (n : Nat) {a : BitVec 16}, Nat.repeat crcShift n a = 0 → a = 0
  | 0, _, h => h
  | n + 1, _, h => crcRepeat_eq_zero n (crcShift_eq_zero h)

/-- The register moves over a byte without losing anything. -/
theorem crcRepeat_injective (n : Nat) {a b : BitVec 16} (h : Nat.repeat crcShift n a = Nat.repeat crcShift n b) : a = b := by
  have : Nat.repeat crcShift n (a ^^^ b) = 0 := by
    rw [crcRepeat_xor, h, BitVec.xor_self]
    rfl
  exact BitVec.xor_eq_zero_iff.mp (crcRepeat_eq_zero n this)

/-- Eight shifts of a register whose low byte is 0 only move its high byte down. -/
theorem crcRepeat_high (b : Byte) : Nat.repeat crcShift 8 (b.setWidth 16 <<< 8) = b.setWidth 16 := by
  revert b
  decide

/-- Eight shifts of a byte leave the high byte 0 only where the byte is 0. -/
theorem crcRepeat_low {b : Byte} (h : (Nat.repeat crcShift 8 (b.setWidth 16)).extractLsb' 8 8 = 0) : b = 0 := by
  revert b
  decide

/-- One more byte of the register (R180). -/
@[simp] theorem fcsReg_append (s t : List Byte) : fcsReg (s ++ t) = t.foldl crcByte (fcsReg s) :=
  List.foldl_append ..

/-- The FCS bytes, low-order byte first (R181). -/
theorem fcsBytes_eq (f : BitVec 16) : fcsBytes f = [f.setWidth 8, (f >>> 8).setWidth 8] := by
  rfl

end Sys2Proof.Machine
end

