-- ==== Sys2Proof/Laws/Memory.lean ====
section
/-! SUPPORT. The laws of the byte storage of BUF_IN: a read after a write, and that every operation keeps the canonical form. -/

namespace Sys2Proof.Machine.Memory

@[simp] theorem read_nil (a : Nat) : read [] a = unlistedByte := rfl

theorem wfFrom_mono {lo lo' : Nat} {m : Memory} (h : lo' ≤ lo) (hm : wfFrom lo m = true) : wfFrom lo' m = true := by
  cases m with
  | nil => rfl
  | cons c m =>
    obtain ⟨k, v⟩ := c
    simp only [wfFrom, Bool.and_eq_true, decide_eq_true_eq] at hm ⊢
    exact ⟨⟨by omega, hm.1.2⟩, hm.2⟩

/-- Below its first possible index nothing is listed. -/
theorem read_below {lo a : Nat} {m : Memory} (hm : wfFrom lo m = true) (ha : a < lo) : read m a = unlistedByte := by
  cases m with
  | nil => rfl
  | cons c m =>
    obtain ⟨k, v⟩ := c
    simp only [wfFrom, Bool.and_eq_true, decide_eq_true_eq] at hm
    have h1 : k ≠ a := by omega
    have h2 : a < k := by omega
    simp [read, h1, h2]

theorem write_wfFrom {lo a : Nat} {m : Memory} (b : Byte) (hm : wfFrom lo m = true) (ha : lo ≤ a) :
    wfFrom lo (write m a b) = true := by
  induction m generalizing lo with
  | nil =>
    by_cases hb : b = unlistedByte <;> simp [write, wfFrom, hb, ha]
  | cons c m ih =>
    obtain ⟨k, v⟩ := c
    have hm' := hm
    simp only [wfFrom, Bool.and_eq_true, decide_eq_true_eq] at hm
    obtain ⟨⟨hlo, hv⟩, hrest⟩ := hm
    rcases Nat.lt_trichotomy k a with hk | hk | hk
    · simp [write, hk, wfFrom, hlo, hv, ih hrest (by omega : k + 1 ≤ a)]
    · subst hk
      by_cases hb : b = unlistedByte
      · simpa [write, hb] using wfFrom_mono (by omega : lo ≤ k + 1) hrest
      · simp [write, hb, wfFrom, hlo, hrest]
    · have h1 : ¬ k < a := by omega
      have h2 : k ≠ a := by omega
      by_cases hb : b = unlistedByte
      · simpa [write, h1, h2, hb] using hm'
      · have h3 : a + 1 ≤ k := by omega
        simp [write, h1, h2, hb, wfFrom, ha, h3, hv, hrest]

/-- A write keeps the canonical form. -/
theorem write_wf {m : Memory} (a : Nat) (b : Byte) (hm : wf m = true) : wf (write m a b) = true :=
  write_wfFrom b hm (Nat.zero_le a)

theorem read_write_same_from {lo : Nat} {m : Memory} (a : Nat) (b : Byte) (hm : wfFrom lo m = true) :
    read (write m a b) a = b := by
  induction m generalizing lo with
  | nil => by_cases hb : b = unlistedByte <;> simp [write, read, hb]
  | cons c m ih =>
    obtain ⟨k, v⟩ := c
    simp only [wfFrom, Bool.and_eq_true, decide_eq_true_eq] at hm
    obtain ⟨⟨-, -⟩, hrest⟩ := hm
    rcases Nat.lt_trichotomy k a with hk | hk | hk
    · have h1 : k ≠ a := by omega
      have h2 : ¬ a < k := by omega
      simp [write, hk, read, h1, h2, ih hrest]
    · subst hk
      by_cases hb : b = unlistedByte
      · simp [write, hb, read_below hrest (Nat.lt_succ_self k)]
      · simp [write, hb, read]
    · have h1 : ¬ k < a := by omega
      have h2 : k ≠ a := by omega
      by_cases hb : b = unlistedByte <;> simp [write, h1, h2, hb, read, hk]

/-- A read after a write to the same index gives the byte written. -/
theorem read_write_same {m : Memory} (a : Nat) (b : Byte) (hm : wf m = true) : read (write m a b) a = b :=
  read_write_same_from a b hm

theorem read_write_ne_from {lo a a' : Nat} {m : Memory} (b : Byte) (hm : wfFrom lo m = true) (h : a' ≠ a) :
    read (write m a b) a' = read m a' := by
  induction m generalizing lo with
  | nil =>
    by_cases hb : b = unlistedByte
    · simp [write, hb]
    · have h1 : a ≠ a' := fun e => h e.symm
      simp [write, hb, read, h1]
  | cons c m ih =>
    obtain ⟨k, v⟩ := c
    simp only [wfFrom, Bool.and_eq_true, decide_eq_true_eq] at hm
    obtain ⟨⟨-, -⟩, hrest⟩ := hm
    rcases Nat.lt_trichotomy k a with hk | hk | hk
    · simp only [write, hk, if_true, read]
      split
      · rfl
      · split
        · rfl
        · exact ih hrest
    · subst hk
      have h1 : k ≠ a' := fun e => h e.symm
      by_cases hb : b = unlistedByte
      · simp only [write, hb, lt_self_iff_false, if_false, if_true, read, h1]
        split
        · exact read_below hrest (by omega)
        · rfl
      · simp [write, hb, read, h1]
    · have h1 : ¬ k < a := by omega
      have h2 : k ≠ a := by omega
      by_cases hb : b = unlistedByte
      · simp [write, h1, h2, hb]
      · simp only [write, h1, h2, hb, if_false, read]
        have h3 : a ≠ a' := fun e => h e.symm
        simp only [h3, if_false]
        by_cases h4 : a' < a
        · have h5 : k ≠ a' := by omega
          have h6 : a' < k := by omega
          simp [h4, h5, h6]
        · simp [h4]

/-- A write leaves every other index alone. -/
theorem read_write_ne {m : Memory} {a a' : Nat} (b : Byte) (hm : wf m = true) (h : a' ≠ a) :
    read (write m a b) a' = read m a' :=
  read_write_ne_from b hm h

theorem write_below {cap a : Nat} {m : Memory} (b : Byte) (hm : below cap m = true) (ha : a < cap) :
    below cap (write m a b) = true := by
  induction m with
  | nil => by_cases hb : b = unlistedByte <;> simp [write, below, hb, ha]
  | cons c m ih =>
    obtain ⟨k, v⟩ := c
    simp only [below, List.all_cons, Bool.and_eq_true, decide_eq_true_eq] at hm ih ⊢
    unfold write
    split
    · simp [hm.1, ih hm.2]
    · split <;> split <;> simp [ha, hm.1, hm.2]

/-- What writing a byte string does: the canonical form and the bound stay, and every index reads its new or its old byte. -/
theorem writeBytes_spec (cap : Nat) (bs : List Byte) : ∀ (m : Memory) (a : Nat), wf m = true →
    wf (writeBytes cap m a bs) = true ∧
    (below cap m = true → below cap (writeBytes cap m a bs) = true) ∧
    ∀ j, read (writeBytes cap m a bs) j =
      if a ≤ j ∧ j < a + bs.length ∧ j < cap then bs.getD (j - a) 0 else read m j := by
  induction bs with
  | nil =>
    intro m a hm
    refine ⟨hm, id, fun j => ?_⟩
    rw [if_neg (by rw [List.length_nil]; omega)]
    rfl
  | cons b bs ih =>
    intro m a hm
    by_cases hc : a < cap
    · have h := ih (write m a b) (a + 1) (write_wf a b hm)
      simp only [writeBytes, hc, if_true]
      refine ⟨h.1, fun hb => h.2.1 (write_below b hb hc), fun j => ?_⟩
      rw [h.2.2]
      simp only [List.length_cons]
      by_cases hj : j = a
      · subst hj
        have e2 : j ≤ j ∧ j < j + (bs.length + 1) ∧ j < cap := by omega
        simp [e2, read_write_same j b hm]
      · rw [read_write_ne b hm hj]
        by_cases hr : a + 1 ≤ j ∧ j < a + 1 + bs.length ∧ j < cap
        · have e2 : a ≤ j ∧ j < a + (bs.length + 1) ∧ j < cap := by omega
          have e3 : j - a = (j - (a + 1)) + 1 := by omega
          rw [if_pos hr, if_pos e2, e3, List.getD_cons_succ]
        · have e2 : ¬ (a ≤ j ∧ j < a + (bs.length + 1) ∧ j < cap) := by omega
          rw [if_neg hr, if_neg e2]
    · have h := ih m (a + 1) hm
      simp only [writeBytes, hc, if_false]
      refine ⟨h.1, h.2.1, fun j => ?_⟩
      rw [h.2.2]
      simp only [List.length_cons]
      have e1 : ¬ (a + 1 ≤ j ∧ j < a + 1 + bs.length ∧ j < cap) := by omega
      have e2 : ¬ (a ≤ j ∧ j < a + (bs.length + 1) ∧ j < cap) := by omega
      rw [if_neg e1, if_neg e2]

@[simp] theorem readBytes_length (m : Memory) (n : Nat) : ∀ a, (readBytes m a n).length = n := by
  induction n with
  | zero => intro a; rfl
  | succ n ih => intro a; simp [readBytes, ih]

theorem readBytes_getElem? (m : Memory) (n : Nat) :
    ∀ a j, (readBytes m a n)[j]? = if j < n then some (read m (a + j)) else none := by
  induction n with
  | zero => intro a j; simp [readBytes]
  | succ n ih =>
    intro a j
    cases j with
    | zero => simp [readBytes]
    | succ j =>
      simp only [readBytes, List.getElem?_cons_succ, ih, Nat.add_lt_add_iff_right]
      have e : a + 1 + j = a + (j + 1) := by omega
      rw [e]

/-- Reading back a byte string just written within the bound gives the string. -/
theorem readBytes_writeBytes {cap : Nat} {m : Memory} {bs : List Byte} (hm : wf m = true) (hb : bs.length ≤ cap) :
    readBytes (writeBytes cap m 0 bs) 0 bs.length = bs := by
  apply List.ext_getElem?
  intro j
  rw [readBytes_getElem?, (writeBytes_spec cap bs m 0 hm).2.2]
  by_cases hj : j < bs.length
  · have e : 0 ≤ 0 + j ∧ 0 + j < 0 + bs.length ∧ 0 + j < cap := by omega
    rw [if_pos hj, if_pos e]
    simp [hj]
  · rw [if_neg hj, List.getElem?_eq_none (by omega)]

end Sys2Proof.Machine.Memory
end

