-- ==== Sys2Proof/Laws/PerInstr.lean ====
section
/-! SUPPORT. What holds of every instruction as syntax, one lemma per constructor. -/

namespace Sys2Proof.Laws.EncWf

/-- The command's word is legal (30_encoding.md R82, R84) and holds exactly the command's fields (R80, R86). -/
def Statement (i : Instr) : Prop := CmdWord.wf (encode i) = true ∧ CmdWord.fields (encode i) = i.fields

theorem nop : Statement .nop := ⟨word_wf rfl, fields_word _⟩
theorem xfer : Statement .xfer := ⟨word_wf rfl, fields_word _⟩
theorem diagClear : Statement .diagClear := ⟨word_wf rfl, fields_word _⟩
theorem addrEncode (ssid : BitVec 4) (hbit last : Bool) : Statement (.addrEncode ssid hbit last) :=
  ⟨word_wf rfl, fields_word _⟩
theorem addrDecode : Statement .addrDecode := ⟨word_wf rfl, fields_word _⟩
theorem addrRead (n : BitVec 4) : Statement (.addrRead n) := ⟨word_wf rfl, fields_word _⟩
theorem addrSet (n ssid : BitVec 4) (hbit : Bool) : Statement (.addrSet n ssid hbit) := ⟨word_wf rfl, fields_word _⟩
theorem addrInsert (n ssid : BitVec 4) (hbit : Bool) : Statement (.addrInsert n ssid hbit) :=
  ⟨word_wf rfl, fields_word _⟩
theorem addrRemove (n : BitVec 4) : Statement (.addrRemove n) := ⟨word_wf rfl, fields_word _⟩
theorem frameLoad (m128 : Bool) : Statement (.frameLoad m128) := ⟨word_wf rfl, fields_word _⟩
theorem framePack : Statement .framePack := ⟨word_wf rfl, fields_word _⟩
theorem frameClassify : Statement .frameClassify := ⟨word_wf rfl, fields_word _⟩
theorem buildU (sel : BitVec 4) (cr pf : Bool) (pid : Byte) (m128 : Bool) : Statement (.buildU sel cr pf pid m128) :=
  ⟨word_wf rfl, fields_word _⟩
theorem buildS (sel : BitVec 4) (cr pf : Bool) (nr : BitVec 7) (m128 : Bool) : Statement (.buildS sel cr pf nr m128) :=
  ⟨word_wf rfl, fields_word _⟩
theorem buildI (cr pf : Bool) (nr ns : BitVec 7) (pid : Byte) (m128 : Bool) : Statement (.buildI cr pf nr ns pid m128) :=
  ⟨word_wf rfl, fields_word _⟩
theorem fcsCalc : Statement .fcsCalc := ⟨word_wf rfl, fields_word _⟩
theorem fcsGen : Statement .fcsGen := ⟨word_wf rfl, fields_word _⟩
theorem fcsCheck : Statement .fcsCheck := ⟨word_wf rfl, fields_word _⟩
theorem framePackFcs : Statement .framePackFcs := ⟨word_wf rfl, fields_word _⟩
theorem hdr1Enc (maxFec : Bool) : Statement (.hdr1Enc maxFec) := ⟨word_wf rfl, fields_word _⟩
theorem hdr0Enc (maxFec : Bool) : Statement (.hdr0Enc maxFec) := ⟨word_wf rfl, fields_word _⟩
theorem hdrAttr : Statement .hdrAttr := ⟨word_wf rfl, fields_word _⟩
theorem hdr1Dec : Statement .hdr1Dec := ⟨word_wf rfl, fields_word _⟩
theorem hdrClarify : Statement .hdrClarify := ⟨word_wf rfl, fields_word _⟩
theorem hdrEmit : Statement .hdrEmit := ⟨word_wf rfl, fields_word _⟩
theorem plan (count : BitVec 10) (maxFec : Bool) : Statement (.plan count maxFec) := ⟨word_wf rfl, fields_word _⟩
theorem il2pEncode (maxFec : Bool) : Statement (.il2pEncode maxFec) := ⟨word_wf rfl, fields_word _⟩
theorem il2pDecode (m128 : Bool) : Statement (.il2pDecode m128) := ⟨word_wf rfl, fields_word _⟩

end Sys2Proof.Laws.EncWf
end

