-- ==== Sys2Proof/Tests/Slice0.lean ====
section
/-! SUPPORT. The model's own tests. Every expected value is one of spec/95_test_vectors.md (named T-…, P…) or of the rule cited;
none is a run of the model. The second half shows, for each statement, states and operands that meet its hypotheses. -/

namespace Sys2Proof.Tests

open Sys2Proof Sys2Proof.Machine Sys2Proof.Claim

/-! ### Helpers -/

/-- A field of the next state. -/
def look {α : Type} (o : Host.Outcome State Fault Refusal) (f : State → α) : Option α :=
  match o with
  | .next t => some (f t)
  | .fault _ => none
  | .refused _ => none

/-- BUF_IN holds the bytes, and BUF_IN_LEN their number. -/
def input (s : State) (b : List Byte) : State :=
  { s with bufIn := Memory.writeBytes s.params.bufCap [] 0 b, bufInLen := BitVec.ofNat 12 b.length }

/-- The reset state with a frame. -/
def withFrame (addrs : List AddrImage) (rest : List Byte) (m128 : Bool := false) : State :=
  { State.reset with frame := { valid := true, mod128 := m128, addrs := addrs, rest := rest } }

/-- The reset state with a header. -/
def withHdr (h : Hdr) : State := { State.reset with hdr := h }

/-- The reset state with host actions waiting. -/
def withHost (l : List HostAction) : State := { State.reset with host := l }

/-- The two addresses of the block A. -/
def apdw16 : AddrImage := ⟨0x82, 0xA0, 0x88, 0xAE, 0x62, 0x6C, 0xE0⟩
def n0call : AddrImage := ⟨0x9C, 0x60, 0x86, 0x82, 0x98, 0x98, 0x61⟩

/-- The block A. -/
def blockA : List Byte := [0x82, 0xA0, 0x88, 0xAE, 0x62, 0x6C, 0xE0, 0x9C, 0x60, 0x86, 0x82, 0x98, 0x98, 0x61]

/-- The bytes of T-F1, and the state that holds it as its frame. -/
def bytesF1 : List Byte := blockA ++ [0x03, 0xF0, 0x48, 0x69]
def stateF1 : State := withFrame [apdw16, n0call] [0x03, 0xF0, 0x48, 0x69]

/-- The repeater of T-A19 as stored, and P3's frame after step 5. -/
def wb2osz5 : AddrImage := ⟨0xAE, 0x84, 0x64, 0x9E, 0xA6, 0xB4, 0xEA⟩
def stateP3 : State := withFrame [apdw16, n0call, wb2osz5] [0x03, 0xF0, 0x48, 0x69]

/-- "WB2OSZ". -/
def wb2osz : List Byte := [0x57, 0x42, 0x32, 0x4F, 0x53, 0x5A]

/-- Headers T-H1, T-H2, T-H3, T-H4, T-H9, and the bad one of T-D7. -/
def hdrH1 : Hdr := #v[0x61, 0xF0, 0x64, 0x77, 0x51, 0x16, 0x6E, 0x10, 0x63, 0x61, 0xAC, 0x2C, 0x00]
def hdrH2 : Hdr := #v[0x21, 0xF0, 0x64, 0x77, 0x51, 0x16, 0x2E, 0x50, 0x63, 0x21, 0xEC, 0x2C, 0x00]
def hdrH3 : Hdr := #v[0x21, 0xB0, 0x24, 0x37, 0x11, 0x56, 0x6E, 0x10, 0x63, 0x21, 0x2C, 0x2C, 0x00]
def hdrH4 : Hdr := #v[0xA1, 0xB0, 0x24, 0x37, 0x51, 0x56, 0x2E, 0x10, 0x23, 0x61, 0x2C, 0x2C, 0x00]
def hdrH9 : Hdr := #v[0x00, 0x00, 0x00, 0x00, 0x00, 0x00, 0x00, 0x80, 0x00, 0x00, 0x80, 0x00, 0x00]
def hdrD7 : Hdr := #v[0x5F, 0xF0, 0x64, 0x77, 0x51, 0x16, 0x6E, 0x10, 0x63, 0x61, 0xAC, 0x2C, 0x00]

/-! ### Well-formedness: each check refuses an ill-formed term -/

theorem test_wf_default : Params.default.wf = true := by decide
theorem test_wf_minPacketLen_zero : ({ Params.default with minPacketLen := 0 }).wf = false := by decide
theorem test_wf_minPacketLen_over_max : ({ Params.default with minPacketLen := 1040 }).wf = false := by decide
theorem test_wf_maxPacketLen_small : ({ Params.default with maxPacketLen := 1038 }).wf = false := by decide
theorem test_wf_maxPacketLen_over_buf : ({ Params.default with maxPacketLen := 2047 }).wf = false := by decide
theorem test_wf_maxInfoLen_zero : ({ Params.default with maxInfoLen := 0 }).wf = false := by decide
theorem test_wf_maxInfoLen_large : ({ Params.default with maxInfoLen := 967 }).wf = false := by decide
theorem test_wf_bufCap_small : ({ Params.default with bufCap := 1117 }).wf = false := by decide
theorem test_wf_bufCap_large : ({ Params.default with bufCap := 2049 }).wf = false := by decide
theorem test_wf_word : CmdWord.wf 0x000000000016F023 = true := by decide
theorem test_wf_word_reserved : CmdWord.wf 0x0040000000000000 = false := by decide
theorem test_wf_word_opcode : CmdWord.wf 0x0000000000000003 = false := by decide

/-! ### Decoding: the words of part B.1, every opcode -/

theorem test_decode_housekeeping :
    decode 0x0000000000000000 = .ok .nop ∧ decode 0x0000000000000001 = .ok .xfer ∧
    decode 0x0000000000000002 = .ok .diagClear := ⟨rfl, rfl, rfl⟩
theorem test_decode_address :
    decode 0x002007C000000010 = .ok (.addrEncode 15 true true) ∧ decode 0x0000000000000011 = .ok .addrDecode ∧
    decode 0x0000000000020012 = .ok (.addrRead 2) ∧ decode 0x0000008000020013 = .ok (.addrSet 2 1 false) ∧
    decode 0x000002C000020014 = .ok (.addrInsert 2 5 true) ∧ decode 0x0000000000020015 = .ok (.addrRemove 2) :=
  ⟨rfl, rfl, rfl, rfl, rfl, rfl⟩
theorem test_decode_frame :
    decode 0x0000001000000020 = .ok (.frameLoad true) ∧ decode 0x0000000000000021 = .ok .framePack ∧
    decode 0x0000000000000022 = .ok .frameClassify ∧ decode 0x0000000000310023 = .ok (.buildU 1 true true 0 false) ∧
    decode 0x0000001001690024 = .ok (.buildS 9 false true 5 true) ∧
    decode 0x000000012010FF25 = .ok (.buildI true false 0 9 0xFF false) := ⟨rfl, rfl, rfl, rfl, rfl, rfl⟩
theorem test_decode_fcs :
    decode 0x0000000000000030 = .ok .fcsCalc ∧ decode 0x0000000000000031 = .ok .fcsGen ∧
    decode 0x0000000000000032 = .ok .fcsCheck ∧ decode 0x0000000000000033 = .ok .framePackFcs := ⟨rfl, rfl, rfl, rfl⟩
theorem test_decode_header :
    decode 0x0000002000000040 = .ok (.hdr1Enc true) ∧ decode 0x0000000000000041 = .ok (.hdr0Enc false) ∧
    decode 0x0000000000000042 = .ok .hdrAttr ∧ decode 0x0000000000000043 = .ok .hdr1Dec ∧
    decode 0x0000000000000044 = .ok .hdrClarify ∧ decode 0x0000000000000045 = .ok .hdrEmit :=
  ⟨rfl, rfl, rfl, rfl, rfl, rfl⟩
theorem test_decode_plan_il2p :
    decode 0x0003202000000050 = .ok (.plan 100 true) ∧ decode 0x0000002000000060 = .ok (.il2pEncode true) ∧
    decode 0x0000000000000061 = .ok (.il2pDecode false) := ⟨rfl, rfl, rfl⟩
theorem test_decode_illegal :
    decode 0x0000000000000003 = .error .unassignedOpcode ∧ decode 0x00000000000000FF = .error .unassignedOpcode ∧
    decode 0x800000000016F023 = .error .reservedBits := ⟨rfl, rfl, rfl⟩

/-- The pseudo-instruction `U_UI cr=1, pid=0xF0` (30_encoding.md R87, R88). -/
theorem test_asm_pseudo : ((Pseudo.u .uUi).expand [.field .cr 1, .field .pid 0xF0]).bind AsmLine.actions =
    some (issueActions 0x000000000016F023) := by decide
theorem test_asm_refuses : asmWord .plan [.field .count 1024] = none ∧ asmWord .addrRead [.n 1, .field .sel 1] = none := by
  decide

/-! ### Steps and the register space -/

/-- 10_state.md R25: two writes issue a command; T-P18's word. -/
theorem test_step_issues : (match step (State.reset.withFetchWord 64 0x0003200000000050) with
    | .next t => (readReg t 0x030, readReg t 0x034, t.cmdHi) | _ => (0, 0, 0)) = (0x00006564, 0x00020401, 0x00032000) := by
  decide
/-- T-E1. -/
theorem test_step_illegal : step (State.reset.withFetchWord 64 3) = .next { State.reset with cmdLo := 3, code := .illegalCmd } :=
  rfl
/-- T-M4. -/
theorem test_step_stuck : step (withHost [.read 0x001 4]) = .fault .misaligned ∧
    step (withHost [.read 0x000 2]) = .fault .accessWidth := ⟨rfl, rfl⟩
/-- T-M1. -/
theorem test_read_window : readReg (input State.reset [1, 2, 3, 4, 5]) 0x1000 = 0x04030201 ∧
    readReg (input State.reset [1, 2, 3, 4, 5]) 0x1004 = 0x00000005 := by decide
/-- T-M2. -/
theorem test_read_hdr : readReg (withHdr hdrH1) 0x040 = 0x7764F061 ∧ readReg (withHdr hdrH1) 0x04C = 0 := by decide
/-- T-M3. -/
theorem test_read_output :
    readReg { State.reset with bufOut := [0xAE, 0x84, 0x64, 0x9E, 0xA6, 0xB4, 0xFF] } 0x2000 = 0x9E6484AE := by decide
/-- T-M5. -/
theorem test_write_above_cap :
    writeReg { State.reset with params := { Params.default with bufCap := 1200 } } 0x14B0 0x12345678 =
      { State.reset with params := { Params.default with bufCap := 1200 } } := by decide
/-- T-E11, T-E12, T-E13. -/
theorem test_read_only_and_reserved : writeReg State.reset 0x008 0xFFFFFFFF = State.reset ∧ readReg State.reset 0x050 = 0 ∧
    readReg (writeReg State.reset 0x010 0xFFFFF123) 0x010 = 0x00000123 := by decide

/-! ### Commands -/

/-- T-F11. -/
theorem test_nop : exec .nop { State.reset with code := .badCall } = .next State.reset := rfl
/-- T-F9. -/
theorem test_xfer : look (exec .xfer { State.reset with bufOut := bytesF1 }) (fun t => (t.inBytes, readReg t 0x010)) =
    some (bytesF1, 18) := by decide
/-- T-F10. -/
theorem test_diag_clear : look (exec .diagClear { State.reset with diag := 0x11 }) (·.diag) = some 0 := by decide
/-- T-A1. -/
theorem test_addr_encode : look (exec (.addrEncode 15 true true) (input State.reset wb2osz)) (fun t => (t.code, t.bufOut)) =
    some (.ok, [0xAE, 0x84, 0x64, 0x9E, 0xA6, 0xB4, 0xFF]) := by decide
/-- T-A5, "qAR". -/
theorem test_addr_encode_bad : look (exec (.addrEncode 0 false false) (input State.reset [0x71, 0x41, 0x52])) (·.code) =
    some .badCall := by decide
/-- T-A6. -/
theorem test_addr_decode : look (exec .addrDecode (input State.reset [0xAE, 0x84, 0x64, 0x9E, 0xA6, 0xB4, 0xFF]))
    (fun t => (t.bufOut, readReg t 0x024)) = some (wb2osz, 0x000006FF) := by decide
/-- T-A10: only trailing blanks are stripped. -/
theorem test_addr_decode_inner_blank : look (exec .addrDecode (input State.reset [0x82, 0x40, 0x84, 0x40, 0x40, 0x40, 0x60]))
    (fun t => (t.bufOut, readReg t 0x024)) = some ([0x41, 0x20, 0x42], 0x00000360) := by decide
/-- T-A13. -/
theorem test_addr_read : look (exec (.addrRead 1) stateF1) (fun t => (t.bufOut, readReg t 0x024)) =
    some ([0x4E, 0x30, 0x43, 0x41, 0x4C, 0x4C], 0x000006E0) := by decide
/-- T-A16: the C bit is kept and HBIT ignored. -/
theorem test_addr_set : look (exec (.addrSet 0 1 false) (input stateF1 [0x43, 0x51])) (fun t => t.frame.addrs) =
    some [⟨0x86, 0xA2, 0x40, 0x40, 0x40, 0x40, 0xE2⟩, n0call] := by decide
/-- T-A19. -/
theorem test_addr_insert : look (exec (.addrInsert 2 5 true) (input stateF1 wb2osz)) (fun t => (t.frame.addrs, readReg t 0x018)) =
    some ([apdw16, n0call, wb2osz5], 0x00000007) := by decide
/-- T-A20. -/
theorem test_addr_insert_index : look (exec (.addrInsert 3 5 true) (input stateF1 wb2osz)) (·.code) = some .badIndex := by
  decide
/-- T-A23. -/
theorem test_addr_remove : look (exec (.addrRemove 2) stateP3) (fun t => (t.frame.addrs, pack t.frame)) =
    some ([apdw16, n0call], bytesF1) := by decide
/-- T-A24. -/
theorem test_addr_remove_index : look (exec (.addrRemove 1) stateP3) (·.code) = some .badIndex := by decide
/-- T-F1. -/
theorem test_frame_load : look (exec (.frameLoad false) (input State.reset bytesF1))
    (fun t => (readReg t 0x018, readReg t 0x01C, t.frame.rest)) = some (0x00000005, 4, [0x03, 0xF0, 0x48, 0x69]) := by decide
/-- T-F4: a one-address block is none. -/
theorem test_frame_load_one_address : look (exec (.frameLoad false) (input State.reset
    [0x82, 0xA0, 0x88, 0xAE, 0x62, 0x6C, 0xE1, 0x9C, 0x60, 0x86, 0x82, 0x98, 0x98, 0x61, 0x03, 0xF0]))
    (fun t => (readReg t 0x018, readReg t 0x01C)) = some (0x00000001, 16) := by decide
/-- P3 step 5: the marker moves to the repeater. -/
theorem test_frame_pack : look (exec .framePack stateP3) (·.bufOut) =
    some [0x82, 0xA0, 0x88, 0xAE, 0x62, 0x6C, 0xE0, 0x9C, 0x60, 0x86, 0x82, 0x98, 0x98, 0x60, 0xAE, 0x84, 0x64, 0x9E, 0xA6,
      0xB4, 0xEB, 0x03, 0xF0, 0x48, 0x69] := by decide
/-- T-K1 and T-K22. -/
theorem test_frame_classify : look (exec .frameClassify stateF1) (readReg · 0x020) = some 0x00000026 ∧
    look (exec .frameClassify (withFrame [apdw16, n0call] [0x04, 0x07, 0xF0] true)) (readReg · 0x020) = some 0x000207ED := by
  decide
/-- T-K13 and T-K24. -/
theorem test_frame_classify_odd : look (exec .frameClassify (withFrame [apdw16, n0call] [0x0B])) (readReg · 0x020) =
      some 0x0000002E ∧
    look (exec .frameClassify (withFrame [apdw16, n0call] [0x04] true)) (readReg · 0x020) = some 0x0000002F := by decide
/-- T-B1. -/
theorem test_build_u : look (exec (.buildU 6 true false 0xF0 false) (input State.reset (blockA ++ [0x48, 0x69])))
    (fun t => (t.diag, pack t.frame)) = some (0, bytesF1) := by decide
/-- T-B3. -/
theorem test_build_u_illegal : look (exec (.buildU 1 false false 0 false) (input State.reset blockA))
    (fun t => (t.diag, pack t.frame)) = some (0x08, [0x82, 0xA0, 0x88, 0xAE, 0x62, 0x6C, 0x60, 0x9C, 0x60, 0x86, 0x82, 0x98,
      0x98, 0xE1, 0x2F]) := by decide
/-- T-B15. -/
theorem test_build_s : look (exec (.buildS 12 true false 9 false) (input State.reset (blockA ++ [0x58])))
    (fun t => (t.diag, t.frame.rest)) = some (0x18, [0x2D, 0x58]) := by decide
/-- T-B16. -/
theorem test_build_s_wide : look (exec (.buildS 12 false true 127 true) (input State.reset blockA))
    (fun t => (t.diag, t.frame.rest)) = some (0, [0x0D, 0xFF]) := by decide
/-- T-B20. -/
theorem test_build_i : look (exec (.buildI true false 0 9 0xFF false) (input State.reset blockA))
    (fun t => (t.diag, t.frame.rest)) = some (0x11, [0x02, 0xF0]) := by decide
/-- T-B21. -/
theorem test_build_i_wide : look (exec (.buildI true true 3 2 0xF0 true) (input State.reset blockA))
    (fun t => (t.diag, t.frame.rest)) = some (0, [0x04, 0x07, 0xF0]) := by decide
/-- T-C7. -/
theorem test_fcs_calc : look (exec .fcsCalc (input State.reset [0x01, 0x02])) (·.fcs) = some 0x358D := by
  decide +kernel
/-- T-C2 with 42_fcs.md R181. -/
theorem test_fcs_gen : look (exec .fcsGen (input State.reset [0x00])) (fun t => (t.fcs, t.bufOut)) =
    some (0xF078, [0x00, 0x78, 0xF0]) := by decide
/-- T-C11 and T-C12. -/
theorem test_fcs_check : look (exec .fcsCheck (input State.reset [0x00, 0x00])) (fun t => (t.code, t.fcs)) = some (.ok, 0) ∧
    look (exec .fcsCheck (input State.reset [0x61])) (·.code) = some .badLen := by decide
/-- T-C6. -/
theorem test_frame_pack_fcs : look (exec .framePackFcs stateF1) (fun t => (t.fcs, t.bufOut)) =
    some (0x60AB, bytesF1 ++ [0xAB, 0x60]) := by decide +kernel
/-- T-H1. -/
theorem test_hdr1_enc : look (exec (.hdr1Enc false) stateF1) (fun t => (t.hdr, readReg t 0x028, readReg t 0x02C)) =
    some (hdrH1, 0x00000009, 2) := by decide
/-- T-N3. -/
theorem test_hdr1_enc_refused : look (exec (.hdr1Enc false) (withFrame [apdw16, n0call] [0x6F])) (·.code) =
    some .notEncodable := by decide
/-- T-H9. -/
theorem test_hdr0_enc : look (exec (.hdr0Enc false) stateF1) (fun t => (t.hdr, readReg t 0x028, readReg t 0x02C)) =
    some (hdrH9, 0x00000048, 0) := by decide
/-- 43_il2p_header.md R212 on T-H1. -/
theorem test_hdr_attr : look (exec .hdrAttr (withHdr hdrH1)) (readReg · 0x028) = some 0x00000009 := by decide
/-- T-D3. -/
theorem test_hdr1_dec : look (exec .hdr1Dec (withHdr hdrH3)) (fun t => (t.code, t.diag, pack t.frame)) =
    some (.ok, 0, [0x82, 0xA0, 0x88, 0xAE, 0x62, 0x6C, 0x60, 0x9C, 0x60, 0x86, 0x82, 0x98, 0x98, 0xE1, 0xB1]) := by decide
/-- T-D7 and T-D9. -/
theorem test_hdr1_dec_reject : look (exec .hdr1Dec (withHdr hdrD7)) (fun t => (t.code, t.diag)) = some (.hdrReject, 0x20) ∧
    look (exec .hdr1Dec { withHdr hdrD7 with corrHdr := 1 }) (fun t => (t.code, t.diag)) = some (.hdrReject, 0) := by decide
/-- B.7: BUF_IN_LEN 14. -/
theorem test_hdr_clarify_short : look (exec .hdrClarify { State.reset with bufInLen := 14 }) (·.code) = some .badLen := by decide
/-- T-R6: the length of HDR_EMIT's output. -/
theorem test_hdr_emit : look (exec .hdrEmit State.reset) (·.bufOut.length) = some 15 := by
  simp [exec, execHdrEmit, ok, look, hdrBytes, State.putOut, State.setCode, Config.il2pHdrParity]
/-- T-P17. -/
theorem test_plan : look (exec (.plan 1023 false) State.reset) (fun t => (readReg t 0x030, readReg t 0x034)) =
    some (0x0000CDCC, 0x00041462) := by decide
/-- T-P11 and T-P12. -/
theorem test_plan_blocks : look (exec (.plan 248 false) State.reset) (readReg · 0x034) = some 0x00030802 ∧
    look (exec (.plan 239 true) State.reset) (readReg · 0x034) = some 0x00080401 := by decide
/-- T-I1, beside the output. -/
theorem test_il2p_encode : look (exec (.il2pEncode false) stateF1)
    (fun t => (t.hdr, readReg t 0x028, readReg t 0x030, readReg t 0x034)) = some (hdrH1, 0x00000009, 0x00000302, 0x00010401) := by
  decide +kernel
/-- T-I3: type 1 with an empty payload. -/
theorem test_il2p_choose :
    il2pChoose (withFrame [{ apdw16 with a6 := 0x60 }, { n0call with a6 := 0xE1 }] [0xB1]).frame false =
    .ok { hdr := hdrH3, type1 := true, body := [], ilen := 0 } := by rfl
/-- T-I3: the whole output is the protected header. -/
theorem test_il2p_encode_no_payload : look (exec (.il2pEncode false)
    (withFrame [{ apdw16 with a6 := 0x60 }, { n0call with a6 := 0xE1 }] [0xB1])) (fun t => (t.hdr, t.bufOut)) =
    some (hdrH3, scramble hdrH3.toList ++ rsParity 2 (scramble hdrH3.toList) ++ []) := by
  rw [exec, execIl2pEncode, test_il2p_choose]
  rfl
/-- T-I10. -/
theorem test_il2p_decode_short : look (exec (.il2pDecode false) { State.reset with bufInLen := 14 }) (·.code) =
    some .badLen := by decide

/-! ### Witnesses: states and operands that meet the hypotheses of each statement

`witness_<Name>` goes with `Obligations.<Name>`: one conjunct or theorem per clause, at the edges of its range. `DecodeInvertsEncode`,
`SpecWordsDecode`, `ResetValues`, `ResetMeetsTheInvariant`, `NopAndDiagClear`, `FcsResidueAndCheckValue`, `HeaderFieldsAndHdrAttr`,
`HdrEmitOutcome` and `PlanWorkedExamples` have no hypotheses. -/

/-- BUF_IN_LEN is one over BUF_CAP. -/
def stateOver : State := { State.reset with bufInLen := 2049 }

/-- A frame and one over BUF_CAP. -/
def stateF1Over : State := { stateF1 with bufInLen := 2049 }

/-- The reset state with the smallest buffers the tests use. -/
def stateSmall : State := { State.reset with params := { State.reset.params with bufCap := 1200 } }

theorem inv_reset : State.reset.Inv := ⟨by decide, rfl, by decide, by decide, by decide, by intro h; cases h⟩
theorem inv_stateF1 : stateF1.Inv := ⟨by decide, rfl, by decide, by decide, by decide, by intro _; decide⟩

/-- What `input` puts into BUF_IN is what the next command reads. -/
theorem input_inBytes (s : State) (b : List Byte) (hs : s.params.bufCap = 2048) (h : b.length ≤ 2048) :
    (input s b).inBytes = b := by
  have hl : (input s b).bufInLen.toNat = b.length := by
    show (BitVec.ofNat 12 b.length).toNat = _
    rw [BitVec.toNat_ofNat, Nat.mod_eq_of_lt (by omega)]
  rw [State.inBytes, hl]
  exact Memory.readBytes_writeBytes rfl (by omega)

theorem input_fits (s : State) (b : List Byte) (h : b.length ≤ s.params.bufCap) : inputFits (input s b) := by
  show (BitVec.ofNat 12 b.length).toNat ≤ s.params.bufCap
  rw [BitVec.toNat_ofNat]
  exact Nat.le_trans (Nat.mod_le _ _) h

/-- A word whose other fields are set still decodes to XFER. -/
theorem witness_UnnamedFieldsAreIgnored :
    (0x003FFFFFFFFFFF01 : CmdWord) &&& Instr.xfer.namedBits = encode .xfer ∧ decode 0x003FFFFFFFFFFF01 = .ok .xfer :=
  ⟨rfl, rfl⟩

/-- Every edge of the illegal opcode ranges, the lowest and the highest RSV bit, and the edges of the assigned opcodes. -/
theorem witness_IllegalWordsEndIllegalCmd :
    (withHost [.write 0x004 4 0x00400000]).host = .write 0x004 4 0x00400000 :: [] ∧
    (withHost [.write 0x004 4 0x00400000]).busy = false ∧
    (∀ op ∈ [0x03, 0x0F, 0x16, 0x1F, 0x26, 0x2F, 0x34, 0x3F, 0x46, 0x4F, 0x51, 0x5F, 0x62, 0xFF],
      illegalOp (((0#32 ++ BitVec.ofNat 32 op).extractLsb' 0 8).toNat)) ∧
    (∀ v ∈ [0x00400000#32, 0x80000000], (v ++ 0#32).extractLsb' 54 10 ≠ 0) ∧
    (∀ op ∈ [0x00, 0x02, 0x10, 0x15, 0x20, 0x25, 0x30, 0x33, 0x40, 0x45, 0x50, 0x60, 0x61],
      ¬ ((0x003FFFFF#32 ++ BitVec.ofNat 32 op).extractLsb' 54 10 ≠ 0 ∨
        illegalOp (((0x003FFFFF#32 ++ BitVec.ofNat 32 op).extractLsb' 0 8).toNat))) :=
  ⟨rfl, rfl, by simp [illegalOp], by simp, by simp [illegalOp]⟩

theorem witness_StepExecutesIssuedCommand :
    (withHost [.write 0x004 4 0x001FF800]).busy = false ∧
    decode ((0x001FF800 : Word) ++ ({ withHost [.write 0x004 4 0x001FF800] with cmdLo := 0x50 }).cmdLo) = .ok (.plan 1023 false) ∧
    (withHost [.write 0x000 4 0x50]).host = .write 0x000 4 0x50 :: [] ∧
    (withHost [.read 0x008 4]).host = .read 0x008 4 :: [] ∧
    (withHost (issueActions 0x001FF80000000050)).host = issueActions 0x001FF80000000050 ++ [] ∧
    decode 0x001FF80000000050 = .ok (.plan 1023 false) := ⟨rfl, rfl, rfl, rfl, rfl, rfl⟩

theorem witness_OnlyAlignedWordAccessesStep :
    (∀ aw ∈ [(0x000, 3), (0x000, 5), (0x001, 4), (0x2FFF, 4), (0x3000, 4)], aw.2 ≠ 4 ∨ aw.1 % 4 ≠ 0 ∨ 0x2FFF < aw.1) ∧
    (∀ a ∈ [0x000, 0x2FFC], a % 4 = 0 ∧ a ≤ 0x2FFF ∧ (withHost [.read a 4]).host = .read a 4 :: [] ∧
      (withHost [.write a 4 1]).host = .write a 4 1 :: []) := by decide

theorem witness_ReadOnlyWritesAreIgnored :
    ∀ a ∈ [0x008, 0x00C, 0x014, 0x03C, 0x050, 0xFFC, 0x1800, 0x2000, 0x2FFC],
      (withHost [.write a 4 1]).host = .write a 4 1 :: [] ∧ a % 4 = 0 ∧ a ≤ 0x2FFF ∧
      a ∉ [0x000, 0x004, 0x010, 0x040, 0x044, 0x048, 0x04C] ∧ ¬ (0x1000 ≤ a ∧ a < 0x1800) := by decide

theorem witness_BufInWindowWrite :
    ∀ k ∈ [0, 511], Memory.wf (withHost [.write (0x1000 + 4 * k) 4 0x01020304]).bufIn = true ∧
      (withHost [.write (0x1000 + 4 * k) 4 0x01020304]).busy = false ∧ k < 512 ∧
      (withHost [.write (0x1000 + 4 * k) 4 0x01020304]).host = .write (0x1000 + 4 * k) 4 0x01020304 :: [] := by decide

/-- The corners of both windows, the two sides of a BUF_CAP of 1200, the edges of the reserved offsets and of the code ranges. -/
theorem witness_BufferWindowsRead :
    (∀ kj ∈ [(0, 0), (511, 3)], kj.1 < 512 ∧ kj.2 < 4 ∧ 4 * kj.1 + kj.2 < State.reset.params.bufCap) ∧
    ({ State.reset with bufOut := [0x41] }).bufOut[4 * 0 + 0]? = some 0x41 ∧
    (4 * 299 + 3 < stateSmall.params.bufCap ∧ stateSmall.params.bufCap ≤ 4 * 300 + 0 ∧ stateSmall.params.wf = true) ∧
    (∀ k ∈ [0, 3], ∀ j ∈ [0, 3], k < 4 ∧ j < 4) ∧ (∀ k ∈ [0, 15], k < 16) ∧
    (∀ a ∈ [0x050, 0xFFC, 0x1800, 0x1FFC, 0x2800, 0x2FFC], a % 4 = 0 ∧ a ≤ 0x2FFF ∧ 0x050 ≤ a ∧
      ¬ (0x1000 ≤ a ∧ a < 0x1800) ∧ ¬ (0x2000 ≤ a ∧ a < 0x2800)) := by decide

theorem witness_HdrAndLengthRegistersAreWritable :
    (∀ k ∈ [0, 3], k < 4 ∧ (withHost [.write (0x040 + 4 * k) 4 0x01020304]).busy = false ∧
      (withHost [.write (0x040 + 4 * k) 4 0x01020304]).host = .write (0x040 + 4 * k) 4 0x01020304 :: []) ∧
    (withHost [.write 0x010 4 0xFFFFF123]).host = .write 0x010 4 0xFFFFF123 :: [] := by decide

theorem witness_ResetInputResets : (withHost [.reset, .reset]).host = .reset :: [.reset] := rfl

/-- A step on a frame of two addresses. -/
theorem witness_StepKeepsTheInvariant :
    ∃ s t : State, s.Inv ∧ s.frame.callsEven ∧ s.frame.addrs ≠ [] ∧ step s = .next t ∧ t ≠ s :=
  ⟨{ stateF1 with host := [.write 0x004 4 0] }, stateF1,
    ⟨by decide, rfl, by decide, by decide, by decide, by intro _; decide⟩, by delta Frame.callsEven; decide, by decide, rfl,
    by decide⟩

theorem witness_EveryCommandEnds : (withHost [.read 0x000 4, .write 0x2FFC 4 1, .reset]).safe = true := by decide

/-- The kept DIAG write (T-D7). The CORR clauses need a string that RsDecode fails on: `witness_HdrClarifyOutcomes_fail`. -/
theorem witness_FailedCommandWritesOnlyStatus :
    (∃ t, exec .hdr1Dec (withHdr hdrD7) = .next t ∧ t.code ≠ .ok ∧ t.diag ≠ (withHdr hdrD7).diag) ∧
    (∃ t, exec .framePack State.reset = .next t ∧ t.code ≠ .ok) := by
  refine ⟨⟨{ withHdr hdrD7 with code := .hdrReject, diag := 0x20 }, by rfl, by decide, by decide⟩,
    ⟨{ State.reset with code := .noFrame }, rfl, by decide⟩⟩

theorem witness_FailedCommandWritesOnlyStatus_corr (c : List Byte) (hc : c.length = 15) (h : rsDecode 2 c = none) :
    ∃ s t : State, exec .hdrClarify s = .next t ∧ t.code ≠ .ok ∧ t.corrHdr ≠ s.corrHdr := by
  refine ⟨input State.reset c, ({ input State.reset c with corrHdr := 0xFF }).setCode .fecFail, ?_, ?_, ?_⟩
  · have ht : ¬ (input State.reset c).inTooLong = true := by
      have := input_fits State.reset c (by rw [hc]; decide)
      simpa [State.inTooLong, inputFits] using this
    simp only [exec, execHdrClarify, withInput, if_neg ht, input_inBytes State.reset c rfl (by omega), Config.il2pHdrLen,
      Config.il2pHdrParity, hc]
    rw [List.take_of_length_le (by omega), h]
    rfl
  · show StatusCode.fecFail ≠ .ok
    decide
  · show (0xFF : BitVec 8) ≠ 0
    decide

theorem witness_DiagBitsAreSticky : ∃ t, exec (.buildU 1 false false 0 false) (input State.reset blockA) = .next t ∧
    t.diag = 0x08 := ⟨_, rfl, by decide⟩

theorem witness_CommandsWriteOnlyNamedState : ∃ t, exec .framePack stateF1 = .next t ∧ t.bufOut = bytesF1 :=
  ⟨_, rfl, by decide⟩

theorem witness_CommonChecksComeFirst :
    (readsBufIn .fcsCalc ∧ ¬ inputFits stateOver) ∧ (readsFrame .framePack ∧ State.reset.frame.valid = false) ∧
    (readsFrame (.addrSet 0 0 false) ∧ State.reset.frame.valid = false ∧ inputFits State.reset) :=
  ⟨⟨trivial, by delta inputFits; decide⟩, ⟨trivial, rfl⟩, ⟨trivial, rfl, by delta inputFits; decide⟩⟩

theorem witness_BytesAboveTheLengthAreNotRead :
    (∀ k, k < (input State.reset [1, 2]).bufInLen.toNat →
      Memory.read [(0, 1), (1, 2), (2, 7)] k = Memory.read (input State.reset [1, 2]).bufIn k) ∧
    ∃ t, exec (.frameLoad false) (input State.reset [1, 2]) = .next t := ⟨by decide, _, rfl⟩

theorem witness_XferCopiesTheOutput :
    let s : State := { State.reset with bufOut := [1, 0, 2] }
    Memory.wf s.bufIn = true ∧ s.bufOut.length ≤ s.params.bufCap ∧ s.params.bufCap ≤ 2048 := by decide

theorem witness_AddrEncodeOutcomes :
    ¬ inputFits stateOver ∧
    (∀ call ∈ [[0x2F], [0x3A], [0x40], [0x5B], [0x41, 0x41, 0x41, 0x41, 0x41, 0x41, 0x41]],
      inputFits (input State.reset call) ∧ ¬ callOk (input State.reset call).inBytes) ∧
    (∀ call ∈ [[], [0x30, 0x39, 0x41, 0x5A, 0x41, 0x41]],
      inputFits (input State.reset call) ∧ callOk (input State.reset call).inBytes) := by
  delta inputFits callOk; decide

theorem witness_AddrDecodeOutcomes :
    (∀ n ∈ [6#12, 8, 2049], State.reset.params.bufCap < n.toNat ∨ n ≠ 7) ∧
    (∀ ak ∈ [((⟨0x40, 0x40, 0x40, 0x40, 0x40, 0x40, 0x60⟩ : AddrImage), 0), (⟨0x82, 0x40, 0x84, 0x40, 0x40, 0x40, 0x60⟩, 3),
        (wb2osz5, 6)], callLength ak.1.chars ak.2) ∧
    (inputFits (input State.reset wb2osz5.bytes) ∧ (input State.reset wb2osz5.bytes).inBytes =
      [wb2osz5.a0, wb2osz5.a1, wb2osz5.a2, wb2osz5.a3, wb2osz5.a4, wb2osz5.a5, wb2osz5.a6]) :=
  ⟨by simp, by delta callLength; decide, input_fits _ _ (by decide), input_inBytes _ _ rfl (by decide)⟩

theorem witness_AddrReadOutcomes :
    State.reset.frame.valid = false ∧ (stateF1.frame.valid = true ∧ stateF1.frame.naddr ≤ (2 : BitVec 4).toNat) ∧
    stateF1.frame.addrs[(1 : BitVec 4).toNat]? = some n0call ∧ callLength n0call.chars 6 := by
  delta callLength; decide

theorem witness_AddrSetOutcomes :
    ¬ inputFits stateOver ∧ (inputFits State.reset ∧ State.reset.frame.valid = false) ∧
    (inputFits stateF1 ∧ stateF1.frame.valid = true ∧ stateF1.frame.naddr ≤ (2 : BitVec 4).toNat) ∧
    (inputFits (input stateF1 [0x40]) ∧ (1 : BitVec 4).toNat < stateF1.frame.naddr ∧
      ¬ callOk (input stateF1 [0x40]).inBytes) ∧
    (inputFits (input stateP3 [0x41]) ∧ callOk (input stateP3 [0x41]).inBytes ∧ stateP3.frame.valid = true ∧
      stateP3.frame.addrs[(1 : BitVec 4).toNat]? = some n0call ∧
      stateP3.frame.addrs[(2 : BitVec 4).toNat]? = some wb2osz5) := by
  delta inputFits callOk; decide

/-- A frame of the given number of REST bytes. -/
def longFrame (n : Nat) : State := withFrame [apdw16, n0call] (List.replicate n 0x03)

/-- Ten addresses. -/
def fullFrame : State := withFrame [apdw16, n0call, wb2osz5, wb2osz5, wb2osz5, wb2osz5, wb2osz5, wb2osz5, wb2osz5, wb2osz5] []

theorem witness_AddrInsertOutcomes :
    ¬ inputFits stateOver ∧ (inputFits State.reset ∧ State.reset.frame.valid = false) ∧
    (inputFits stateF1 ∧ stateF1.frame.valid = true ∧ (withFrame [] []).frame.naddr < 2 ∧ fullFrame.frame.naddr = 10 ∧
      (1 : BitVec 4).toNat < 2 ∧ stateF1.frame.naddr < (3 : BitVec 4).toNat) ∧
    (¬ (stateF1.frame.naddr < 2 ∨ stateF1.frame.naddr = 10 ∨ (2 : BitVec 4).toNat < 2 ∨
        stateF1.frame.naddr < (2 : BitVec 4).toNat) ∧
      ¬ callOk (input stateF1 [0x40]).inBytes ∧ callOk (input stateF1 [0x41]).inBytes) := by
  delta inputFits callOk; decide

theorem longFrame_len (n : Nat) : (longFrame n).frame.len = 14 + n := by
  simp [longFrame, withFrame, Frame.len, Frame.naddr, Frame.restLen]

theorem witness_AddrInsertOutcomes_length :
    (longFrame 1018).frame.len + 7 ≤ State.reset.params.maxPacketLen ∧
    State.reset.params.maxPacketLen < (longFrame 1019).frame.len + 7 ∧ (longFrame 1019).frame.naddr = 2 := by
  rw [longFrame_len, longFrame_len]
  exact ⟨by decide, by decide, rfl⟩

theorem witness_AddrRemoveOutcomes :
    State.reset.frame.valid = false ∧
    (stateP3.frame.valid = true ∧ (1 : BitVec 4).toNat < 2 ∧ stateP3.frame.naddr ≤ (3 : BitVec 4).toNat) ∧
    (2 ≤ (2 : BitVec 4).toNat ∧ (2 : BitVec 4).toNat < stateP3.frame.naddr) := by decide

theorem witness_EncodedAddressDecodesBack : ∃ s t u : State, s.Inv ∧ inputFits s ∧ callOk s.inBytes ∧
    exec (.addrEncode 15 true true) s = .next t ∧ exec .xfer t = .next u :=
  ⟨input State.reset wb2osz, _, _, ⟨by decide, rfl, by decide, by decide, by decide, by intro h; cases h⟩,
    by delta inputFits; decide, by delta callOk; decide, rfl, rfl⟩

theorem witness_AddressBlockIsFoundByItsMarker :
    (0 < 2 ∧ findAddrBlock blockA = 2) ∧
    findAddrBlock ((List.replicate 69 0x40) ++ [0x61]) = 10 ∧ (∀ b ∈ ([0x82, 0x40] : List Byte), b.getLsbD 0 = false) := by
  decide

theorem witness_FrameLoadOutcomes :
    ¬ inputFits stateOver ∧
    (∀ n ∈ [14#12, 1040], n.toNat < State.reset.params.minPacketLen ∨ State.reset.params.maxPacketLen < n.toNat) ∧
    (∀ n ∈ [15#12, 1039], inputFits { State.reset with bufInLen := n } ∧ State.reset.params.minPacketLen ≤ n.toNat ∧
      n.toNat ≤ State.reset.params.maxPacketLen) := by
  simp [inputFits, stateOver, State.reset, Params.default]

theorem witness_FramePackOutcomes : State.reset.frame.valid = false ∧ stateF1.frame.valid = true := by decide

theorem witness_LoadThenPackIsIdentity : ∃ t, exec (.frameLoad false) (input State.reset bytesF1) = .next t ∧ t.code = .ok :=
  ⟨_, rfl, by decide⟩

/-- The clauses of `FrameClassifyOutcomes`, one row each. -/
theorem witness_FrameClassifyOutcomes :
    State.reset.frame.valid = false ∧
    ((withFrame [] [0x03]).frame.valid = true ∧ (withFrame [] [0x03]).frame.addrs = []) ∧
    ((withFrame [apdw16, n0call] []).frame.addrs = apdw16 :: n0call :: [] ∧ (withFrame [apdw16, n0call] []).frame.rest = []) ∧
    (∀ k, k < 9 → (uValues.getD k 0).getLsbD 0 = true ∧ (uValues.getD k 0).getLsbD 1 = true ∧
      (uValues.getD k 0 ||| 0x10) &&& 0xEF = uValues.getD k 0) ∧
    ((0x0B : Byte).getLsbD 0 = true ∧ (0x0B : Byte).getLsbD 1 = true ∧ (0x0B : Byte) &&& 0xEF ∉ uValues) ∧
    ((0x64 : Byte).getLsbD 0 = false ∧ (withFrame [apdw16, n0call] [0x64]).frame.mod128 = false ∧
      (withFrame [apdw16, n0call] [0x64]).frame.rest = 0x64 :: []) ∧
    ((0xB1 : Byte).getLsbD 0 = true ∧ (0xB1 : Byte).getLsbD 1 = false) ∧
    ((withFrame [apdw16, n0call] [0x04, 0x07] true).frame.rest = 0x04 :: 0x07 :: [] ∧ (0x04 : Byte).getLsbD 0 = false ∧
      (withFrame [apdw16, n0call] [0x04, 0x07] true).frame.mod128 = true) ∧
    ((0x01 : Byte).getLsbD 0 = true ∧ (0x01 : Byte).getLsbD 1 = false) ∧
    ((withFrame [apdw16, n0call] [0x04] true).frame.rest = [0x04]) := by decide

/-- The builders' inputs: too long, no address block, and A with information. -/
theorem witness_BuildUOutcomes :
    ¬ inputFits stateOver ∧ inputFits State.reset ∧ 8 < (9 : BitVec 4).toNat ∧ (8 : BitVec 4).toNat ≤ 8 ∧
    findAddrBlock State.reset.inBytes = 0 ∧ inputFits (input State.reset (blockA ++ [0x58])) ∧
    findAddrBlock (input State.reset (blockA ++ [0x58])).inBytes ≠ 0 := by
  delta inputFits; decide

theorem witness_BuildSOutcomes :
    ¬ inputFits stateOver ∧ inputFits State.reset ∧ (8 : BitVec 4).toNat < 9 ∧ 12 < (13 : BitVec 4).toNat ∧
    (∀ sel ∈ [9#4, 12], 9 ≤ sel.toNat ∧ sel.toNat ≤ 12) ∧ findAddrBlock State.reset.inBytes = 0 ∧
    findAddrBlock (input State.reset (blockA ++ [0x58])).inBytes ≠ 0 := by
  delta inputFits; decide

theorem witness_BuildIOutcomes :
    ¬ inputFits stateOver ∧ inputFits State.reset ∧ findAddrBlock State.reset.inBytes = 0 ∧
    inputFits (input State.reset blockA) ∧ findAddrBlock (input State.reset blockA).inBytes ≠ 0 := by
  delta inputFits; decide

theorem witness_BuiltFrameClassifiesBack :
    (∃ t, exec (.buildU 8 true true 0 true) (input State.reset blockA) = .next t ∧ t.code = .ok) ∧
    (∃ t, exec (.buildS 12 true true 127 true) (input State.reset blockA) = .next t ∧ t.code = .ok) ∧
    (∃ t, exec (.buildI true true 127 127 0xF0 true) (input State.reset blockA) = .next t ∧ t.code = .ok) :=
  ⟨⟨_, rfl, by decide⟩, ⟨_, rfl, by decide⟩, ⟨_, rfl, by decide⟩⟩

theorem witness_FcsCalcAndGenOutcomes :
    ¬ inputFits stateOver ∧ inputFits State.reset ∧
    (∀ n ∈ [2047#12, 2048], inputFits { State.reset with bufInLen := n } ∧ State.reset.params.bufCap < n.toNat + 2) ∧
    (∀ n ∈ [0#12, 2046], inputFits { State.reset with bufInLen := n } ∧ n.toNat + 2 ≤ State.reset.params.bufCap) := by
  simp [inputFits, stateOver, State.reset, Params.default]

theorem witness_FcsCheckOutcomes :
    (1 : BitVec 12).toNat < 2 ∧ inputFits (input State.reset [0x00, 0x00]) ∧
    (input State.reset [0x00, 0x00]).inBytes = [] ++ [0x00, 0x00] ∧ (0x00 : Byte) = (fcs []).setWidth 8 ∧
    (0x00 : Byte) = (fcs [] >>> 8).setWidth 8 ∧
    ((input State.reset [0x01, 0x00]).inBytes = [] ++ [0x01, 0x00] ∧
      ¬ ((0x01 : Byte) = (fcs []).setWidth 8 ∧ (0x00 : Byte) = (fcs [] >>> 8).setWidth 8)) := by
  delta inputFits; decide

theorem witness_FramePackFcsOutcomes :
    State.reset.frame.valid = false ∧ stateF1.Inv ∧ stateF1.frame.valid = true := ⟨rfl, inv_stateF1, rfl⟩

theorem witness_FcsCheckPassesExactlyTheResidue :
    inputFits (input State.reset [0x00, 0x00]) ∧ 2 ≤ (input State.reset [0x00, 0x00]).bufInLen.toNat := by
  delta inputFits; decide

/-! #### IL2P headers -/

theorem classify_f1 (rest : List Byte) :
    classify { stateF1.frame with rest := 0x03 :: 0xF0 :: rest } =
      { ftype := .uUi, cr := 2, pf := false, nr := none, ns := none, ctlLen := 1, hasPid := true } := rfl

theorem info_f1 (rest : List Byte) : infoField { stateF1.frame with rest := 0x03 :: 0xF0 :: rest } = rest := by
  simp [infoField, controlLength, pidFollows, stateF1, withFrame]

theorem pid_f1 (rest : List Byte) : pidField { stateF1.frame with rest := 0x03 :: 0xF0 :: rest } = some 0xF0 := by
  simp [pidField, controlLength, pidFollows, stateF1, withFrame]

/-- A UI frame with any information can take a type-1 header. -/
theorem encodable_f1 (rest : List Byte) : type1Encodable { stateF1.frame with rest := 0x03 :: 0xF0 :: rest } := by
  refine ⟨rfl, rfl, by show ∀ a ∈ [apdw16, n0call], _; decide, ?_, fun _ => ⟨0xF0, 0xF, pid_f1 rest, by decide⟩, fun h => ?_⟩
  · rw [classify_f1]; decide
  · rw [classify_f1] at h; exact absurd (by decide) h

/-- A frame of three addresses cannot. -/
theorem not_encodable_p3 : ¬ type1Encodable stateP3.frame := by
  intro h
  exact absurd h.1 (by decide)

/-- The reset state with a UI frame of n information bytes. -/
def uiFrame (n : Nat) : State := withFrame [apdw16, n0call] (0x03 :: 0xF0 :: List.replicate n 0x41)

/-- The reset state with a pass-through frame of n bytes. -/
def rawFrame (n : Nat) : State := withFrame [] (List.replicate n 0x40)

theorem rawFrame_len (n : Nat) : (rawFrame n).frame.len = n := by
  simp [rawFrame, withFrame, Frame.len, Frame.naddr, Frame.restLen]

theorem not_encodable_raw (n : Nat) : ¬ type1Encodable (rawFrame n).frame := by
  intro h
  exact absurd h.1 (by show ¬ 0 = 2; decide)

theorem witness_Hdr1EncOutcomes :
    State.reset.frame.valid = false ∧ (stateP3.frame.valid = true ∧ ¬ type1Encodable stateP3.frame) ∧
    (type1Encodable (uiFrame 1024).frame ∧ 1023 < (infoField (uiFrame 1024).frame).length) ∧
    ((uiFrame 1023).frame.valid = true ∧ (uiFrame 1023).frame.addrs = [apdw16, n0call] ∧
      type1Encodable (uiFrame 1023).frame ∧ (infoField (uiFrame 1023).frame).length ≤ 1023) := by
  have h : ∀ n, (infoField (uiFrame n).frame).length = n := fun n =>
    (congrArg List.length (info_f1 (List.replicate n 0x41))).trans List.length_replicate
  rw [h, h]
  exact ⟨rfl, ⟨rfl, not_encodable_p3⟩, ⟨encodable_f1 _, by decide⟩, rfl, rfl, encodable_f1 _, by decide⟩

theorem witness_Hdr0EncOutcomes :
    State.reset.frame.valid = false ∧ (rawFrame 13).frame.len < 14 ∧ 1023 < (rawFrame 1024).frame.len ∧
    (∀ n ∈ [14, 1023], (rawFrame n).frame.valid = true ∧ 14 ≤ (rawFrame n).frame.len ∧ (rawFrame n).frame.len ≤ 1023) := by
  refine ⟨rfl, ?_, ?_, ?_⟩
  · rw [rawFrame_len]; decide
  · rw [rawFrame_len]; decide
  · intro n hn
    rw [rawFrame_len]
    refine ⟨rfl, ?_⟩
    revert n
    simp

theorem witness_EncodedHeaderAttributes :
    (∃ t, exec (.hdr1Enc true) stateF1 = .next t ∧ t.code = .ok) ∧
    (∃ t, exec (.hdr0Enc true) stateF1 = .next t ∧ t.code = .ok) := by
  refine ⟨⟨_, rfl, rfl⟩, ?_⟩
  rw [exec, execHdr0Enc, hdr0Enc, if_neg (by decide), if_neg (by decide), if_neg (by decide)]
  exact ⟨_, rfl, rfl⟩

theorem call_apdw16 : hdrCallIs hdrH1 0 [0x41, 0x50, 0x44, 0x57, 0x31, 0x36] :=
  ⟨6, by decide, by decide, by decide, by decide, by decide⟩
theorem call_n0call : hdrCallIs hdrH1 6 [0x4E, 0x30, 0x43, 0x41, 0x4C, 0x4C] :=
  ⟨6, by decide, by decide, by decide, by decide, by decide⟩

/-- The calls are those of T-H1 in T-H2, T-H3 and T-H4 too; "?PDW16" and an all-blank call (T-D8) are refused. -/
theorem witness_Hdr1DecOutcomes :
    hdrBit State.reset.hdr 1 7 = false ∧
    (hdrBit hdrD7 1 7 = true ∧ hdrCallIs hdrD7 0 [0x3F, 0x50, 0x44, 0x57, 0x31, 0x36] ∧
      hdrCallIs hdrD7 6 [0x4E, 0x30, 0x43, 0x41, 0x4C, 0x4C] ∧ ¬ callOk [0x3F, 0x50, 0x44, 0x57, 0x31, 0x36]) ∧
    (hdrCallIs #v[0x40, 0xC0, 0x40, 0x40, 0x40, 0x00, 0x6E, 0x10, 0x63, 0x61, 0x2C, 0x2C, 0x00] 0 [0x20] ∧ ¬ callOk [0x20]) ∧
    (∀ h ∈ [hdrH1, hdrH2, hdrH3, hdrH4], hdrBit h 1 7 = true ∧ hdrCallIs h 0 [0x41, 0x50, 0x44, 0x57, 0x31, 0x36] ∧
      hdrCallIs h 6 [0x4E, 0x30, 0x43, 0x41, 0x4C, 0x4C]) ∧
    (callOk [0x41, 0x50, 0x44, 0x57, 0x31, 0x36] ∧ callOk [0x4E, 0x30, 0x43, 0x41, 0x4C, 0x4C]) ∧
    hdrBit hdrH1 0 6 = true ∧ (hdrBit hdrH3 0 6 = false ∧ hdrPid4 hdrH3 = 0) ∧
    (hdrBit hdrH4 0 6 = false ∧ hdrPid4 hdrH4 = 1) ∧ (hdrBit hdrH2 0 6 = false ∧ 2 ≤ (hdrPid4 hdrH2).toNat) := by
  refine ⟨by decide, ⟨by decide, ⟨6, ?_⟩, ⟨6, ?_⟩, by delta callOk; decide⟩, ⟨⟨1, ?_⟩, by delta callOk; decide⟩, ?_,
    by delta callOk; decide, by decide, by decide, by decide, by decide⟩
  · decide
  · decide
  · decide
  · intro h hh
    simp only [List.mem_cons, List.not_mem_nil, or_false] at hh
    rcases hh with rfl | rfl | rfl | rfl <;> exact ⟨by decide, ⟨6, by decide⟩, ⟨6, by decide⟩⟩

/-- The header clauses, for whatever fifteen bytes RsDecode fails on, and for a codeword. -/
theorem witness_HdrClarifyOutcomes_fail (c : List Byte) (hc : c.length = 15) (h : rsDecode 2 c = none) :
    inputFits (input State.reset c) ∧ 15 ≤ (input State.reset c).bufInLen.toNat ∧
    rsDecode 2 ((input State.reset c).inBytes.take 15) = none := by
  refine ⟨input_fits _ _ (by rw [hc]; decide), ?_, ?_⟩
  · show 15 ≤ (BitVec.ofNat 12 c.length).toNat
    rw [hc]; decide
  · rw [input_inBytes _ _ rfl (by omega), List.take_of_length_le (by omega), h]

/-- The reset state with BUF_IN holding a protected header and what follows it. -/
def airState (h : Hdr) (tail : List Byte) : State := input State.reset (protect 2 h.toList ++ tail)

theorem airState_inBytes (h : Hdr) {tail : List Byte} (ht : tail.length ≤ 100) :
    (airState h tail).inBytes = protect 2 h.toList ++ tail :=
  input_inBytes _ _ rfl (by simp; omega)

theorem airState_len (h : Hdr) {tail : List Byte} (ht : tail.length ≤ 100) :
    (airState h tail).bufInLen.toNat = 15 + tail.length := by
  show (BitVec.ofNat 12 (protect 2 h.toList ++ tail).length).toNat = _
  simp
  omega

theorem airState_fits (h : Hdr) {tail : List Byte} (ht : tail.length ≤ 100) : inputFits (airState h tail) := by
  show (airState h tail).bufInLen.toNat ≤ 2048
  rw [airState_len h ht]; omega

/-- The header of an `airState` decodes with no correction. -/
theorem airState_header (h : Hdr) {tail : List Byte} (ht : tail.length ≤ 100) :
    rsDecode 2 ((airState h tail).inBytes.take 15) = some (protect 2 h.toList, 0) ∧
    h.toList = descramble ((protect 2 h.toList).take 13) := by
  obtain ⟨h1, h2⟩ := rsDecode_protect (k := 2) (d := h.toList) (by decide) (by simp)
  rw [airState_inBytes h ht, List.take_left' (by simp)]
  refine ⟨h1, ?_⟩
  rw [show h.toList.length = 13 from by simp] at h2
  exact h2.symm

theorem witness_HdrClarifyOutcomes :
    ¬ inputFits stateOver ∧ (14#12).toNat < 15 ∧ inputFits (airState hdrH1 []) ∧ 15 ≤ (airState hdrH1 []).bufInLen.toNat ∧
    rsDecode 2 ((airState hdrH1 []).inBytes.take 15) = some (protect 2 hdrH1.toList, 0) :=
  ⟨by delta inputFits; decide, by decide, airState_fits _ (by decide), by rw [airState_len _ (by decide)]; decide,
    (airState_header hdrH1 (by decide)).1⟩

theorem witness_EmittedHeaderClarifiesBack : ∃ s t u : State, s.Inv ∧ exec .hdrEmit s = .next t ∧ exec .xfer t = .next u :=
  ⟨State.reset, _, _, inv_reset, rfl, rfl⟩

/-- T-N10's frame: "?PDW16" encodes and does not decode. -/
def queryFrame : State := withFrame [{ apdw16 with a0 := 0x7E }, n0call] [0x03, 0xF0, 0x48, 0x69]

theorem calls_f1 (rest : List Byte) : callsDecodable { stateF1.frame with rest := rest } := by
  intro a ha
  refine ⟨6, ?_, by decide, ?_⟩
  · revert a; show ∀ a ∈ [apdw16, n0call], _; delta callLength; decide
  · revert a; show ∀ a ∈ [apdw16, n0call], _; delta callOk; decide

theorem not_calls_query : ¬ callsDecodable queryFrame.frame := by
  intro h
  obtain ⟨k, _, hk, _, hok⟩ := h { apdw16 with a0 := 0x7E } (.head _)
  obtain ⟨j, rfl⟩ : ∃ j, k = j + 1 := ⟨k - 1, by omega⟩
  exact absurd (hok 0x3F (.head _)) (by decide)

theorem witness_Type1HeaderDecodesBack :
    (∃ t, exec (.hdr1Enc false) queryFrame = .next t ∧ t.code = .ok ∧
      queryFrame.frame.addrs = [{ apdw16 with a0 := 0x7E }, n0call] ∧ ¬ callsDecodable queryFrame.frame) ∧
    (∃ t, exec (.hdr1Enc false) stateF1 = .next t ∧ t.code = .ok ∧ stateF1.frame.addrs = [apdw16, n0call] ∧
      callsDecodable stateF1.frame) :=
  ⟨⟨_, rfl, rfl, rfl, not_calls_query⟩, ⟨_, rfl, rfl, rfl, calls_f1 _⟩⟩

/-! #### Plans and IL2P frames -/

theorem witness_PlanOutcome : (0 : BitVec 10) = 0 ∧ (1 : BitVec 10) ≠ 0 ∧ (1023 : BitVec 10) ≠ 0 := by decide

theorem witness_PlanInvariants : (1 ≤ 1 ∧ 1 ≤ 1023) ∧ (1 ≤ 1023 ∧ 1023 ≤ 1023) := by decide

theorem witness_Il2pEncodeOutcomes :
    State.reset.frame.valid = false ∧
    (type1Encodable (uiFrame 1024).frame ∧ 1023 < (infoField (uiFrame 1024).frame).length) ∧
    (type1Encodable (uiFrame 1023).frame ∧ (infoField (uiFrame 1023).frame).length ≤ 1023) ∧
    (∀ n, (rawFrame n).frame.valid = true ∧ ¬ type1Encodable (rawFrame n).frame) ∧ (rawFrame 13).frame.len < 14 ∧
    1023 < (rawFrame 1024).frame.len ∧ 14 ≤ (rawFrame 14).frame.len ∧ (rawFrame 1023).frame.len ≤ 1023 :=
  ⟨rfl, witness_Hdr1EncOutcomes.2.2.1, ⟨encodable_f1 _, witness_Hdr1EncOutcomes.2.2.2.2.2.2⟩,
    fun n => ⟨rfl, not_encodable_raw n⟩, witness_Hdr0EncOutcomes.2.1, witness_Hdr0EncOutcomes.2.2.1,
    by rw [rawFrame_len], by rw [rawFrame_len]⟩

theorem encodes_f1 : ∃ t, exec (.il2pEncode false) stateF1 = .next t ∧ t.code = .ok ∧ hdrType t.hdr = true := by
  have h : il2pChoose stateF1.frame false = .ok { hdr := hdrH1, type1 := true, body := [0x48, 0x69], ilen := 2 } := by rfl
  rw [exec, execIl2pEncode, h]
  exact ⟨_, rfl, rfl, rfl⟩

theorem witness_OnAirLength : ∃ s t : State, s.Inv ∧ exec (.il2pEncode false) s = .next t ∧ t.code = .ok := by
  obtain ⟨t, h, hc, -⟩ := encodes_f1
  exact ⟨stateF1, t, inv_stateF1, h, hc⟩

/-- The string that ends BAD_LEN, and those for which RsDecode answers for the header. -/
theorem witness_Il2pDecodeOutcomes :
    ¬ inputFits stateOver ∧ (14#12).toNat < 15 ∧
    -- too short for the payload
    ¬ (15 + payLen (hdrCount hdrH1).toNat (hdrFec hdrH1) ≤ (airState hdrH1 []).bufInLen.toNat) ∧
    -- a bad call behind a whole payload
    (15 + payLen (hdrCount hdrD7).toNat (hdrFec hdrD7) ≤ (airState hdrD7 [0, 0, 0, 0]).bufInLen.toNat ∧ hdrType hdrD7 = true ∧
      inputFits (airState hdrD7 [0, 0, 0, 0])) := by
  refine ⟨by delta inputFits; decide, by decide, ?_, ?_, by decide, airState_fits _ (by decide)⟩
  · rw [airState_len _ (by decide)]; decide
  · rw [airState_len _ (by decide)]; decide

/-- A type-1 frame whose only payload block is the given four bytes. -/
theorem air_block (h : Hdr) {c : List Byte} (n : Nat) (hc : c.length = n + 2) (hn : n ≤ 61) (h0 : n ≠ 0)
    (hcount : (hdrCount h).toNat = n) (hf : hdrFec h = false) :
    (planFor n false).blocks = 1 ∧ (planFor n false).parity = 2 ∧
    codeword (planFor (hdrCount h).toNat (hdrFec h)) (airState h c).inBytes 0 = c ∧
    15 + payLen (hdrCount h).toNat (hdrFec h) ≤ (airState h c).bufInLen.toNat := by
  have hb : (n + 246) / 247 = 1 := by omega
  have hp : planFor n false = ⟨n, n + 1, 1, 0, 2⟩ := by
    simp [planFor, h0, planBlockData, hb, planParity, hn]
  rw [hcount, hf, airState_inBytes h (by omega), airState_len h (by omega)]
  refine ⟨by rw [hp]; rfl, by rw [hp], ?_, by rw [payLen, hp, hc]; show 15 + (n + 1 * 2) ≤ _; omega⟩
  rw [hp]
  show ((protect 2 h.toList ++ c).drop 15).take (n + 2) = c
  rw [List.drop_left' (by simp), List.take_of_length_le (by omega)]

/-- A block that RsDecode fails on, and one that it decodes (type 1, and type 0 in and out of the loadable lengths). -/
theorem witness_Il2pDecodeOutcomes_block (c : List Byte) (hc : c.length = 4) (h : rsDecode 2 c = none) :
    rsDecode (planFor (hdrCount hdrH1).toNat (hdrFec hdrH1)).parity
      (codeword (planFor (hdrCount hdrH1).toNat (hdrFec hdrH1)) (airState hdrH1 c).inBytes 0) = none := by
  obtain ⟨_, hp, hw, _⟩ := air_block hdrH1 2 hc (by decide) (by decide) (by decide) (by decide)
  rw [hw, show (hdrCount hdrH1).toNat = 2 from by decide, show hdrFec hdrH1 = false from by decide, hp, h]

theorem witness_Il2pDecodeOutcomes_type1 :
    ∃ w u, rsDecode (planFor (hdrCount hdrH1).toNat (hdrFec hdrH1)).parity
        (codeword (planFor (hdrCount hdrH1).toNat (hdrFec hdrH1)) (airState hdrH1 (protect 2 [0x48, 0x69])).inBytes 0) =
          some (w, 0) ∧
      hdrType hdrH1 = true ∧ exec .hdr1Dec { airState hdrH1 (protect 2 [0x48, 0x69]) with hdr := hdrH1 } = .next u := by
  obtain ⟨_, hp, hw, _⟩ := air_block hdrH1 (c := protect 2 [0x48, 0x69]) 2 (by simp) (by decide) (by decide) (by decide)
    (by decide)
  rw [hw, show (hdrCount hdrH1).toNat = 2 from by decide, show hdrFec hdrH1 = false from by decide, hp]
  exact ⟨_, _, (rsDecode_protect (by decide) (by simp)).1, by decide, rfl⟩

theorem witness_Il2pDecodeOutcomes_type0 (h : Hdr) (d : List Byte) (hd : d.length ≤ 61) (h0 : d.length ≠ 0)
    (hcount : (hdrCount h).toNat = d.length) (hf : hdrFec h = false) :
    ∃ w, rsDecode (planFor (hdrCount h).toNat (hdrFec h)).parity
      (codeword (planFor (hdrCount h).toNat (hdrFec h)) (airState h (protect 2 d)).inBytes 0) = some (w, 0) := by
  obtain ⟨_, hp, hw, _⟩ := air_block h (c := protect 2 d) d.length (by simp) hd h0 hcount hf
  rw [hw, hcount, hf, hp]
  exact ⟨_, (rsDecode_protect (by decide) (by omega)).1⟩

def hdrI16 : Hdr := #v[0, 0, 0, 0, 0, 0, 0, 0, 0x80, 0x80, 0x80, 0, 0]

/-- T-H9 announces 18 bytes, T-I16's header 14: in and out of MIN_PACKET_LEN..MAX_PACKET_LEN. -/
theorem witness_Il2pDecodeOutcomes_range :
    (hdrType hdrH9 = false ∧ (hdrCount hdrH9).toNat = 18 ∧ State.reset.params.minPacketLen ≤ 18 ∧
      18 ≤ State.reset.params.maxPacketLen) ∧
    (hdrType hdrI16 = false ∧ (hdrCount hdrI16).toNat = 14 ∧ ¬ State.reset.params.minPacketLen ≤ 14) := by decide

/-- N0CALL with the C bit set. -/
def n0callC : AddrImage := ⟨0x9C, 0x60, 0x86, 0x82, 0x98, 0x98, 0xE1⟩

/-- T-F1's frame with the source's C bit set too: R216 gives it back with that bit cleared. -/
def stateCC : State := withFrame [apdw16, n0callC] [0x03, 0xF0, 0x48, 0x69]

theorem calls_cc : callsDecodable stateCC.frame := by
  intro a ha
  refine ⟨6, ?_, by decide, ?_⟩
  · revert a; show ∀ a ∈ [apdw16, n0callC], _; delta callLength; decide
  · revert a; show ∀ a ∈ [apdw16, n0callC], _; delta callOk; decide

theorem survives_f1 : survivesType1 stateF1.frame apdw16 n0call := by
  refine ⟨by decide, fun h => absurd h (by decide), fun p hp => .inr ?_, by decide, by decide⟩
  have hq : (0xF0 : Byte) = p := Option.some.inj ((pid_f1 [0x48, 0x69]).symm.trans hp)
  subst hq
  decide

theorem witness_Il2pRoundTrip :
    (∃ t u, stateF1.Inv ∧ exec (.il2pEncode false) stateF1 = .next t ∧ t.code = .ok ∧ exec .xfer t = .next u ∧
      hdrType t.hdr = true ∧ callsDecodable stateF1.frame ∧ stateF1.frame.addrs = [apdw16, n0call] ∧
      stateF1.frame.callsEven ∧ survivesType1 stateF1.frame apdw16 n0call) ∧
    (∃ t u, stateCC.Inv ∧ exec (.il2pEncode false) stateCC = .next t ∧ t.code = .ok ∧ exec .xfer t = .next u ∧
      hdrType t.hdr = true ∧ callsDecodable stateCC.frame ∧ stateCC.frame.addrs = [apdw16, n0callC] ∧
      stateCC.frame.callsEven ∧ ¬ survivesType1 stateCC.frame apdw16 n0callC) ∧
    (∃ t u, stateP3.Inv ∧ exec (.il2pEncode false) stateP3 = .next t ∧ t.code = .ok ∧ exec .xfer t = .next u ∧
      hdrType t.hdr = false ∧ stateP3.params.minPacketLen ≤ stateP3.frame.len) := by
  refine ⟨?_, ?_, ?_⟩
  · obtain ⟨t, h, hc, ht⟩ := encodes_f1
    exact ⟨t, _, inv_stateF1, h, hc, rfl, ht, calls_f1 _, rfl, by delta Frame.callsEven; decide, survives_f1⟩
  · have he : ∃ t, exec (.il2pEncode false) stateCC = .next t ∧ t.code = .ok ∧ hdrType t.hdr = true := by
      have h : (match il2pChoose stateCC.frame false with | .ok r => hdrType r.hdr | .error _ => false) = true := by
        decide +kernel
      rw [exec, execIl2pEncode]
      split at h
      · next r hr => rw [hr]; exact ⟨_, rfl, rfl, h⟩
      · cases h
    obtain ⟨t, h, hc, ht⟩ := he
    exact ⟨t, _, ⟨by decide, rfl, by decide, by decide, by decide, by intro _; decide⟩, h, hc, rfl, ht, calls_cc, rfl,
      by delta Frame.callsEven; decide, fun h => absurd h.1 (by decide)⟩
  · have h : ∃ r, il2pChoose stateP3.frame false = .ok r ∧ hdrType r.hdr = false := ⟨_, rfl, rfl⟩
    obtain ⟨r, h, ht⟩ := h
    have he : ∃ t, exec (.il2pEncode false) stateP3 = .next t ∧ t.code = .ok ∧ t.hdr = r.hdr := by
      rw [exec, execIl2pEncode, h]
      exact ⟨_, rfl, rfl, rfl⟩
    obtain ⟨t, h, hc, hh⟩ := he
    exact ⟨t, _, ⟨by decide, rfl, by decide, by decide, by decide, by intro _; decide⟩, h, hc, rfl, by rw [hh, ht], by decide⟩

theorem witness_Il2pDecodeErrorTiers : ∃ t, exec (.il2pDecode false) State.reset = .next t ∧ t.code ≠ .ok :=
  ⟨_, rfl, by decide⟩

end Sys2Proof.Tests
end

section
/-! SUPPORT. Register words: as four bytes, as the sum of their fields, and what a write of HDR leaves (10_state.md R24, 20_memory.md
R62). -/

namespace Sys2Proof.Machine

open Claim

/-! ### Words as bytes and as numbers -/

/-- The number of a concatenation: the low part, and the high part above it. -/
theorem toNat_append_eq_add {v w : Nat} (x : BitVec v) (y : BitVec w) : (x ++ y).toNat = y.toNat + 2 ^ w * x.toNat := by
  rw [BitVec.toNat_append, ← Nat.shiftLeft_add_eq_or_of_lt y.isLt, Nat.shiftLeft_eq, Nat.mul_comm, Nat.add_comm]

theorem toNat_ofBool_eq_num (b : Bool) : (BitVec.ofBool b).toNat = num b := by
  cases b <;> rfl

/-- Byte j of the word of four bytes of a window (20_memory.md R62). -/
theorem extractLsb'_windowWord (byte : Nat → Byte) (i : Nat) {j : Nat} (hj : j < 4) :
    (windowWord byte i).extractLsb' (8 * j) 8 = byte (i + j) := by
  apply BitVec.eq_of_getLsbD_eq
  intro p hp
  simp only [windowWord, wordOfBytes, BitVec.getLsbD_extractLsb', BitVec.getLsbD_append, hp, decide_true, Bool.true_and]
  interval_cases j
  · rw [if_pos (by omega)]; congr 1; omega
  · rw [if_neg (by omega), if_pos (by omega)]; congr 1; omega
  · rw [if_neg (by omega), if_neg (by omega), if_pos (by omega)]; congr 1; omega
  · rw [if_neg (by omega), if_neg (by omega), if_neg (by omega)]; congr 1; omega

/-- Two words with the same four bytes are equal. -/
theorem word_ext {v w : Word} (h : ∀ j, j < 4 → v.extractLsb' (8 * j) 8 = w.extractLsb' (8 * j) 8) : v = w := by
  apply BitVec.eq_of_getLsbD_eq
  intro p hp
  have hb := congrArg (·.getLsbD (p % 8)) (h (p / 8) (by omega))
  have hlt : p % 8 < 8 := Nat.mod_lt _ (by decide)
  simpa [BitVec.getLsbD_extractLsb', hlt, Nat.div_add_mod] using hb

theorem extractLsb'_and_lowByte (v : Word) {j : Nat} (hj : j < 4) :
    (v &&& 0xFF).extractLsb' (8 * j) 8 = if j = 0 then v.extractLsb' (8 * j) 8 else 0 := by
  rw [BitVec.extractLsb'_and]
  interval_cases j
  · exact BitVec.and_allOnes
  all_goals exact BitVec.and_zero

/-- A command word is its two halves (10_state.md R25). -/
theorem commandWord_halves (w : CmdWord) : w.extractLsb' 32 32 ++ w.extractLsb' 0 32 = w := by
  apply BitVec.eq_of_getLsbD_eq
  intro p hp
  rw [BitVec.getLsbD_append, BitVec.getLsbD_extractLsb', BitVec.getLsbD_extractLsb']
  split
  · next h => simp [h]
  · next h => simp [show p - 32 < 32 by omega, show 32 + (p - 32) = p by omega]

/-! ### The register words as numbers -/

/-- The values of STATUS.CODE (60_exceptions.md R280). -/
theorem StatusCode.byte_toNat (c : StatusCode) : c.byte.toNat = statusCodes.idxOf c := by
  cases c <;> decide

/-- The codes of FTYPE (30_encoding.md R90). -/
theorem frameType_code_toNat (t : FrameType) : t.code.toNat = frameTypes.idxOf t := by
  cases t <;> decide

theorem statusWord_toNat (s : State) : (statusWord s).toNat = statusCodes.idxOf s.code + 2 ^ 31 * num s.busy := by
  simp only [statusWord, toNat_append_eq_add, toNat_ofBool_eq_num, StatusCode.byte_toNat, BitVec.toNat_ofNat]
  omega

/-- STATUS.BUSY is bit 31. -/
theorem statusWord_busy (s : State) : (statusWord s).getLsbD 31 = s.busy := by
  simp only [statusWord, BitVec.getLsbD_append]
  simp

theorem diagWord_toNat (s : State) : (diagWord s).toNat = s.diag.toNat := by
  simp only [diagWord, toNat_append_eq_add, BitVec.toNat_ofNat]
  omega

theorem frameCtlWord_toNat (s : State) : (frameCtlWord s).toNat =
    num s.frame.valid + 2 * (s.frame.naddr % 2 ^ 4) + 2 ^ 5 * num s.frame.mod128 := by
  simp only [frameCtlWord, toNat_append_eq_add, toNat_ofBool_eq_num, BitVec.toNat_ofNat]
  omega

theorem frameRlenWord_toNat (s : State) : (frameRlenWord s).toNat = s.frame.restLen % 2 ^ 11 := by
  simp only [frameRlenWord, toNat_append_eq_add, BitVec.toNat_ofNat]
  omega

theorem resClassWord_toNat (r : ResClass) : (resClassWord r).toNat =
    frameTypes.idxOf r.ftype + 2 ^ 4 * r.cr.toNat + 2 ^ 6 * num r.pf + 2 ^ 7 * num r.nrV + 2 ^ 8 * num r.nsV
      + 2 ^ 9 * r.nr.toNat + 2 ^ 16 * r.ns.toNat := by
  simp only [resClassWord, toNat_append_eq_add, toNat_ofBool_eq_num, frameType_code_toNat, BitVec.toNat_ofNat]
  omega

theorem resAddrWord_toNat (r : ResAddr) : (resAddrWord r).toNat =
    r.ssid.toNat + 2 ^ 4 * num r.bit7 + 2 ^ 5 * r.rsv.toNat + 2 ^ 7 * num r.last + 2 ^ 8 * r.callLen.toNat := by
  simp only [resAddrWord, toNat_append_eq_add, toNat_ofBool_eq_num, BitVec.toNat_ofNat]
  omega

theorem resHdrWord_toNat (r : ResHdr) : (resHdrWord r).toNat =
    num r.hdrType + 2 * num r.maxFec + 2 ^ 2 * r.count.toNat := by
  simp only [resHdrWord, toNat_append_eq_add, toNat_ofBool_eq_num, BitVec.toNat_ofNat]
  omega

theorem planSizesWord_toNat (p : PlanRegs) : (planSizesWord p).toNat = p.smallSize.toNat + 2 ^ 8 * p.largeSize.toNat := by
  simp only [planSizesWord, toNat_append_eq_add, BitVec.toNat_ofNat]
  omega

theorem planCountsWord_toNat (p : PlanRegs) : (planCountsWord p).toNat =
    p.smallCount.toNat + 2 ^ 5 * p.largeCount.toNat + 2 ^ 10 * p.blockCount.toNat + 2 ^ 15 * p.parity.toNat := by
  simp only [planCountsWord, toNat_append_eq_add, BitVec.toNat_ofNat]
  omega

theorem corrWord_toNat (s : State) : (corrWord s).toNat = s.corrHdr.toNat + 2 ^ 8 * s.corrPay.toNat := by
  simp only [corrWord, toNat_append_eq_add, BitVec.toNat_ofNat]
  omega

/-! ### HDR as four words (10_state.md R36) -/

theorem hdrByte_of_ge (h : Hdr) {i : Nat} (hi : 13 ≤ i) : hdrByte h i = 0 := by
  simp [hdrByte, Vector.getD, show ¬ i < 13 by omega]

/-- A write of HDR[i] changes HDR[i] only, and nothing where HDR has no byte i. -/
theorem hdrByte_setHdrByte_of_lt (h : Hdr) (i : Nat) (b : Byte) {j : Nat} (hj : j < 13) :
    hdrByte (setHdrByte h i b) j = if j = i then b else hdrByte h j := by
  by_cases hi : i < 13
  · exact hdrByte_setHdrByte h hi b j
  · rw [if_neg (by omega), setHdrByte, Vector.setIfInBounds_eq_of_size_le (by omega)]

/-- Byte j of HDR_Wk is HDR[4k + j]. -/
theorem extractLsb'_hdrWord (h : Hdr) (k : Nat) {j : Nat} (hj : j < 4) :
    (hdrWord h k).extractLsb' (8 * j) 8 = hdrByte h (4 * k + j) :=
  extractLsb'_windowWord (hdrByte h) (4 * k) hj

/-- HDR_Wk takes its four bytes, those of them that exist. -/
theorem hdrByte_setHdrWord (h : Hdr) (k : Nat) (v : Word) {i : Nat} (hi : i < 13) :
    hdrByte (setHdrWord h k v) i = if i / 4 = k then v.extractLsb' (8 * (i % 4)) 8 else hdrByte h i := by
  simp only [setHdrWord, hdrByte_setHdrByte_of_lt _ _ _ hi]
  split
  · rw [if_pos (by omega), show i % 4 = 3 by omega]; rfl
  split
  · rw [if_pos (by omega), show i % 4 = 2 by omega]; rfl
  split
  · rw [if_pos (by omega), show i % 4 = 1 by omega]; rfl
  split
  · rw [if_pos (by omega), show i % 4 = 0 by omega]; rfl
  · rw [if_neg (by omega)]

/-- HDR_Wk reads back as written, HDR_W3 in the byte it has. -/
theorem hdrWord_setHdrWord (h : Hdr) {k : Nat} (hk : k < 4) (v : Word) :
    hdrWord (setHdrWord h k v) k = if k = 3 then v &&& 0xFF else v := by
  apply word_ext
  intro j hj
  rw [extractLsb'_hdrWord _ _ hj]
  by_cases hi : 4 * k + j < 13
  · rw [hdrByte_setHdrWord h k v hi, if_pos (by omega), show (4 * k + j) % 4 = j by omega]
    split
    · rw [extractLsb'_and_lowByte v hj, if_pos (by omega)]
    · rfl
  · rw [hdrByte_of_ge _ (by omega), if_pos (by omega), extractLsb'_and_lowByte v hj, if_neg (by omega)]

/-! ### The register space -/

/-- Above the registers there are the two windows and reserved offsets (20_memory.md R61). -/
theorem readReg_of_ge (s : State) {a : Nat} (ha : 0x050 ≤ a) : readReg s a =
    if 0x1000 ≤ a ∧ a < 0x1800 then windowWord s.bufInByte (a - 0x1000)
    else if 0x2000 ≤ a ∧ a < 0x2800 then windowWord s.bufOutByte (a - 0x2000)
    else 0 := by
  unfold readReg
  split
  case h_21 => rfl
  all_goals omega

theorem readReg_hdr (s : State) {k : Nat} (hk : k < 4) : readReg s (0x040 + 4 * k) = hdrWord s.hdr k := by
  interval_cases k <;> rfl

section
variable (s : State) {k j : Nat} (hk : k < 512) (hj : j < 4)
include hk hj

theorem readReg_bufIn : (readReg s (0x1000 + 4 * k)).extractLsb' (8 * j) 8 = s.bufInByte (4 * k + j) := by
  rw [readReg_of_ge s (by omega), if_pos (by omega), Nat.add_sub_cancel_left, extractLsb'_windowWord _ _ hj]

theorem readReg_bufOut : (readReg s (0x2000 + 4 * k)).extractLsb' (8 * j) 8 = s.bufOutByte (4 * k + j) := by
  rw [readReg_of_ge s (by omega), if_neg (by omega), if_pos (by omega), Nat.add_sub_cancel_left,
    extractLsb'_windowWord _ _ hj]

end

theorem writeReg_hdr (s : State) {k : Nat} (hk : k < 4) (v : Word) :
    writeReg s (0x040 + 4 * k) v = { s with hdr := setHdrWord s.hdr k v } := by
  interval_cases k <;> rfl

/-- The four bytes of a word written to the BUF_IN window from byte `i` on. -/
def State.setBufInWord (s : State) (i : Nat) (v : Word) : State :=
  (((s.setBufInByte i (byteOfWord v 0)).setBufInByte (i + 1) (byteOfWord v 1)).setBufInByte
    (i + 2) (byteOfWord v 2)).setBufInByte (i + 3) (byteOfWord v 3)

/-- Every register write takes CMD_LO, BUF_IN_LEN, HDR or a word of the BUF_IN window, or is ignored (10_state.md R24). -/
theorem writeReg_cases (s : State) (a : Nat) (v : Word) :
    (a = 0x000 ∧ writeReg s a v = { s with cmdLo := v }) ∨
    (a = 0x010 ∧ writeReg s a v = { s with bufInLen := v.extractLsb' 0 12 }) ∨
    (∃ k, k < 4 ∧ a = 0x040 + 4 * k ∧ writeReg s a v = { s with hdr := setHdrWord s.hdr k v }) ∨
    (0x1000 ≤ a ∧ a < 0x1800 ∧ writeReg s a v = s.setBufInWord (a - 0x1000) v) ∨
    writeReg s a v = s := by
  unfold writeReg
  split
  · exact .inl ⟨rfl, rfl⟩
  · exact .inr (.inl ⟨rfl, rfl⟩)
  · exact .inr (.inr (.inl ⟨0, by decide, rfl, rfl⟩))
  · exact .inr (.inr (.inl ⟨1, by decide, rfl, rfl⟩))
  · exact .inr (.inr (.inl ⟨2, by decide, rfl, rfl⟩))
  · exact .inr (.inr (.inl ⟨3, by decide, rfl, rfl⟩))
  · split
    · next h => exact .inr (.inr (.inr (.inl ⟨h.1, h.2, rfl⟩)))
    · exact .inr (.inr (.inr (.inr rfl)))

end Sys2Proof.Machine
end

section
/-! SUPPORT. What one step can do: the serving of each host action (10_state.md R25, 20_memory.md R66, R68). -/

namespace Sys2Proof.Machine

section
variable {s : State} {a : Nat} {v : Word} {rest : List HostAction}

/-- An aligned access of four bytes in the register space has a step (20_memory.md R66). -/
theorem accessFault_aligned (h4 : a % 4 = 0) (ha : a ≤ 0x2FFF) : accessFault a 4 = none := by
  have hle : ¬ 0x2FFF < a := by omega
  simp [accessFault, h4, hle]

theorem step_read (hs : s.host = .read a 4 :: rest) (h4 : a % 4 = 0) (ha : a ≤ 0x2FFF) :
    step s = .next (hostRead { s with host := rest } a) := by
  simp only [step, hs, accessFault_aligned h4 ha]

/-- A write while BUSY is ignored (70_reset_and_hazards.md R319). -/
theorem step_write_busy (hb : s.busy = true) (hs : s.host = .write a 4 v :: rest) (h4 : a % 4 = 0) (ha : a ≤ 0x2FFF) :
    step s = .next { s with host := rest } := by
  simp only [step, hs, accessFault_aligned h4 ha, hostWrite, hb, if_true]

theorem step_write_reg (hb : s.busy = false) (hs : s.host = .write a 4 v :: rest) (h4 : a % 4 = 0) (ha : a ≤ 0x2FFF)
    (hne : a ≠ 0x004) : step s = .next (writeReg { s with host := rest } a v) := by
  simp only [step, hs, accessFault_aligned h4 ha, hostWrite, hb, Bool.false_eq_true, if_false, cmdHiOffset, hne]

/-- The write of CMD_HI runs the command whose word it completes (10_state.md R25). -/
theorem step_write_cmdHi {i : Instr} (hb : s.busy = false) (hs : s.host = .write 0x004 4 v :: rest)
    (hd : decode (v ++ s.cmdLo) = .ok i) : step s = exec i { s with host := rest, cmdHi := v } := by
  have hf : accessFault 0x004 4 = none := accessFault_aligned (by decide) (by decide)
  simp only [step, hs, hf, hostWrite, hb, Bool.false_eq_true, if_false, cmdHiOffset, if_true, issueWord, commandWord, hd]

end

/-- Every step that gives a next state: idle, the reset input, a read, a write ignored while BUSY, a register write, a command, or an
illegal word. -/
theorem step_cases {s t : State} (h : step s = .next t) :
    t = s ∨ ∃ rest,
      t = resetInput { s with host := rest } ∨
      (∃ a, t = hostRead { s with host := rest } a) ∨
      t = { s with host := rest } ∨
      (∃ a v, t = writeReg { s with host := rest } a v) ∨
      (∃ v i, exec i { s with host := rest, cmdHi := v } = .next t) ∨
      (∃ v, t = { s with host := rest, cmdHi := v, code := .illegalCmd }) := by
  unfold step at h
  split at h
  · exact .inl (by cases h; rfl)
  · exact .inr ⟨_, .inl (by cases h; rfl)⟩
  · split at h
    · cases h
    · exact .inr ⟨_, .inr (.inl ⟨_, by cases h; rfl⟩)⟩
  · next rest _ =>
    split at h
    · cases h
    · refine .inr ⟨rest, .inr (.inr ?_)⟩
      unfold hostWrite at h
      split at h
      · exact .inl (by cases h; rfl)
      · split at h
        · unfold issueWord at h
          split at h
          · exact .inr (.inr (.inl ⟨_, _, h⟩))
          · exact .inr (.inr (.inr ⟨_, fail_next.mp h⟩))
        · exact .inr (.inl ⟨_, _, by cases h; rfl⟩)

end Sys2Proof.Machine
end

section
/-! SUPPORT. The frame of every command: what it writes, whatever it ends with, and which DIAG bits it adds. -/

namespace Sys2Proof.Claim

open Sys2Proof.Machine

theorem writesOnly_setCode (i : Instr) (s : State) (c : StatusCode) : writesOnly i s (s.setCode c) := by
  cases i <;> rfl

/-- A command that fails with nothing written stays in its frame if what it writes when it ends OK does. -/
theorem writesOnly_of_ends {good : State → Prop} {o : Host.Outcome State Fault Refusal} {i : Instr} {s t : State}
    (h : Ends o (Clean s) good) (hgood : ∀ u, good u → writesOnly i s (u.setCode .ok)) (ht : o = .next t) :
    writesOnly i s t := by
  rcases h.cases ht with ⟨u, -, hu, e⟩ | ⟨u, hg, e⟩ <;> rw [e]
  · rw [show u = s from hu]
    exact writesOnly_setCode i s _
  · exact hgood u hg

/-- The frame of every command (10_state.md R26, 60_exceptions.md R281): the state its rule names, whatever it ends with. -/
theorem exec_writesOnly {i : Instr} {s t : State} (h : exec i s = .next t) : writesOnly i s t := by
  cases i with
  | nop => exact writesOnly_of_ends (execNop_ends s) (by rintro _ rfl; rfl) h
  | xfer => exact writesOnly_of_ends (execXfer_ends s) (by rintro _ rfl; rfl) h
  | diagClear => exact writesOnly_of_ends (execDiagClear_ends s) (by rintro _ rfl; rfl) h
  | addrEncode => exact writesOnly_of_ends (execAddrEncode_ends _ _ _ s) (by rintro _ rfl; rfl) h
  | addrDecode => exact writesOnly_of_ends (execAddrDecode_ends s) (by rintro _ ⟨_, rfl⟩; rfl) h
  | addrRead => exact writesOnly_of_ends (execAddrRead_ends _ s) (by rintro _ ⟨_, _, rfl⟩; rfl) h
  | addrSet => exact writesOnly_of_ends (execAddrSet_ends _ _ _ s) (by rintro _ ⟨-, _, _, rfl⟩; rfl) h
  | addrInsert => exact writesOnly_of_ends (execAddrInsert_ends _ _ _ s) (by rintro _ ⟨-, -, -, -, -, _, rfl⟩; rfl) h
  | addrRemove => exact writesOnly_of_ends (execAddrRemove_ends _ s) (by rintro _ ⟨-, -, -, rfl⟩; rfl) h
  | frameLoad => exact writesOnly_of_ends (execFrameLoad_ends _ s) (by rintro _ ⟨-, rfl⟩; rfl) h
  | framePack => exact writesOnly_of_ends (execFramePack_ends s) (by rintro _ ⟨-, rfl⟩; rfl) h
  | frameClassify => exact writesOnly_of_ends (execFrameClassify_ends s) (by rintro _ rfl; rfl) h
  | buildU => exact writesOnly_of_ends (execBuildU_ends _ _ _ _ _ s) (by rintro _ ⟨-, -, _, -, rfl⟩; rfl) h
  | buildS => exact writesOnly_of_ends (execBuildS_ends _ _ _ _ _ s) (by rintro _ ⟨-, -, -, _, -, rfl⟩; rfl) h
  | buildI => exact writesOnly_of_ends (execBuildI_ends _ _ _ _ _ _ s) (by rintro _ ⟨-, _, -, rfl⟩; rfl) h
  | fcsCalc => exact writesOnly_of_ends (execFcsCalc_ends s) (by rintro _ rfl; rfl) h
  | fcsGen => exact writesOnly_of_ends (execFcsGen_ends s) (by rintro _ ⟨-, rfl⟩; rfl) h
  | fcsCheck => exact writesOnly_of_ends (execFcsCheck_ends s) (by rintro _ ⟨_, rfl⟩; rfl) h
  | framePackFcs => exact writesOnly_of_ends (execFramePackFcs_ends s) (by rintro _ ⟨-, rfl⟩; rfl) h
  | hdr1Enc => exact writesOnly_of_ends (execHdr1Enc_ends _ s) (by rintro _ ⟨-, rfl⟩; rfl) h
  | hdr0Enc => exact writesOnly_of_ends (execHdr0Enc_ends _ s) (by rintro _ ⟨-, rfl⟩; rfl) h
  | hdrAttr => exact writesOnly_of_ends (execHdrAttr_ends s) (by rintro _ rfl; rfl) h
  | hdr1Dec =>
    rcases (execHdr1Dec_ends s).cases h with ⟨_, -, ⟨-, b, rfl⟩, e⟩ | ⟨_, ⟨r, -, rfl⟩, e⟩ <;> (rw [e]; rfl)
  | hdrClarify =>
    rcases (execHdrClarify_ends s).cases h with ⟨_, -, rfl | ⟨-, rfl⟩, e⟩ | ⟨_, ⟨_, _, rfl⟩, e⟩ <;> (rw [e]; rfl)
  | hdrEmit => exact writesOnly_of_ends (execHdrEmit_ends s) (by rintro _ rfl; rfl) h
  | plan => exact writesOnly_of_ends (execPlan_ends _ _ s) (by rintro _ rfl; rfl) h
  | il2pEncode => exact writesOnly_of_ends (execIl2pEncode_ends _ s) (by rintro _ ⟨_, -, rfl⟩; rfl) h
  | il2pDecode =>
    rcases (execIl2pDecode_ends _ s).cases h with
      ⟨_, -, ⟨-, rfl⟩ | ⟨-, _, rfl⟩ | ⟨-, _, rfl⟩, e⟩ |
      ⟨_, ⟨_, _, _, _, _, ⟨_, -, -, rfl⟩ | ⟨-, -, rfl⟩⟩, e⟩ <;> (rw [e]; rfl)

/-! ### DIAG (10_state.md R27) -/

theorem diagIf_within {b : DiagBit} {m : BitVec 6} (h : b.mask &&& m = b.mask) (c : Bool) : diagIf c b &&& m = diagIf c b := by
  cases c
  · exact BitVec.zero_and
  · exact h

theorem or_within {d e m : BitVec 6} (hd : d &&& m = d) (he : e &&& m = e) : (d ||| e) &&& m = d ||| e := by
  rw [BitVec.and_comm, BitVec.and_or_distrib_left, BitVec.and_comm m, BitVec.and_comm m, hd, he]

/-- The bit for the information given is INFO_DISCARDED or INFO_TRUNCATED. -/
theorem infoDiag_within (p : Params) (ft : FrameType) (info : List Byte) {m : BitVec 6}
    (hd : ft.mayCarryInfo = false → DiagBit.mask .infoDiscarded &&& m = DiagBit.mask .infoDiscarded)
    (ht : DiagBit.mask .infoTruncated &&& m = DiagBit.mask .infoTruncated) :
    infoDiag p ft info &&& m = infoDiag p ft info := by
  unfold infoDiag
  cases hc : ft.mayCarryInfo
  · exact diagIf_within (hd hc) _
  · exact diagIf_within ht _

/-- DIAG after a command is DIAG before it with bits of the mask added (60_exceptions.md R283). -/
def AddsDiag (m : BitVec 6) (s t : State) : Prop := ∃ d, t.diag = s.diag ||| d ∧ d &&& m = d

theorem AddsDiag.same {m : BitVec 6} {s t : State} (h : t.diag = s.diag) : AddsDiag m s t :=
  ⟨0#6, by rw [h, BitVec.or_zero], BitVec.zero_and⟩

/-- A builder adds bits of the mask to DIAG if those of every frame it can build are in the mask. -/
theorem AddsDiag.build {m : BitVec 6} {o : Host.Outcome State Fault Refusal} {s t : State}
    {good : State → Prop} {build : List AddrImage → List Byte → Built} (h : Ends o (Clean s) good) (ht : o = .next t)
    (hg : ∀ u, good u → Builds s build u) (hm : ∀ l info, (build l info).diag &&& m = (build l info).diag) :
    AddsDiag m s t := by
  rcases h.cases ht with ⟨u, -, rfl, e⟩ | ⟨u, hu, e⟩ <;> rw [e]
  · exact .same rfl
  · obtain ⟨-, r, rfl, rfl⟩ := hg u hu
    exact ⟨_, rfl, hm _ _⟩

/-- The "set by" column of R283: a command adds the DIAG bits it is listed for and clears none. -/
theorem exec_addsDiag {i : Instr} {s t : State} (h : exec i s = .next t) (hi : i ≠ .diagClear) : AddsDiag (maySet i) s t := by
  cases i with
  | diagClear => exact absurd rfl hi
  | buildU sel cr pf pid m128 =>
    show AddsDiag 0b001111 s t
    refine .build (execBuildU_ends sel cr pf pid m128 s) h (fun _ hu => hu.2) fun _ info => ?_
    exact or_within (or_within (diagIf_within (by decide) _) (diagIf_within (by decide) _))
      (infoDiag_within _ _ info (fun _ => by decide) (by decide))
  | buildS sel cr pf nr m128 =>
    show AddsDiag 0b011110 s t
    refine .build (execBuildS_ends sel cr pf nr m128 s) h (fun _ hu => hu.2.2) fun _ info => ?_
    exact or_within (or_within (diagIf_within (by decide) _) (diagIf_within (by decide) _))
      (infoDiag_within _ _ info (fun _ => by decide) (by decide))
  | buildI cr pf nr ns pid m128 =>
    show AddsDiag 0b010101 s t
    refine .build (execBuildI_ends cr pf nr ns pid m128 s) h (fun _ hu => hu) fun _ info => ?_
    exact or_within (or_within (diagIf_within (by decide) _) (diagIf_within (by decide) _))
      (infoDiag_within _ .iFrame info nofun (by decide))
  | hdr1Dec =>
    show AddsDiag 0b101000 s t
    rcases (execHdr1Dec_ends s).cases h with ⟨_, -, ⟨-, b, rfl⟩, e⟩ | ⟨_, ⟨r, hr, rfl⟩, e⟩ <;> rw [e]
    · exact ⟨_, rfl, diagIf_within (by decide) b⟩
    · obtain ⟨-, -, -, -, b, hb⟩ := hdr1Dec_built hr
      exact ⟨_, rfl, hb ▸ diagIf_within (by decide) b⟩
  | il2pDecode m128 =>
    show AddsDiag 0b101000 s t
    rcases (execIl2pDecode_ends m128 s).cases h with
      ⟨_, -, ⟨-, rfl⟩ | ⟨-, _, rfl⟩ | ⟨-, b, rfl⟩, e⟩ | ⟨_, ⟨_, _, _, _, _, ⟨r, hr, -, rfl⟩ | ⟨-, -, rfl⟩⟩, e⟩ <;> rw [e]
    · exact .same rfl
    · exact .same rfl
    · exact ⟨_, rfl, diagIf_within (by decide) b⟩
    · obtain ⟨-, -, -, -, b, hb⟩ := hdr1Dec_built hr
      exact ⟨_, rfl, hb ▸ diagIf_within (by decide) b⟩
    · exact .same rfl
  | _ =>
    have hw : t = _ := exec_writesOnly h
    exact .same (by rw [hw])

end Sys2Proof.Claim
end

section
/-! SUPPORT. Every step keeps `State.Inv` and the even call octets of FRAME (10_state.md R22, 30_encoding.md R92). -/

namespace Sys2Proof.Machine

/-! ### The invariant under the state's operations -/

/-- What 00_scope.md R8 says of the parameters, as inequalities. -/
theorem Params.bounds {p : Params} (h : p.wf = true) :
    1039 ≤ p.maxPacketLen ∧ p.maxPacketLen + 2 ≤ p.bufCap ∧ p.maxInfoLen + 73 ≤ p.maxPacketLen ∧ 1118 ≤ p.bufCap := by
  simp only [Params.wf, Bool.and_eq_true, decide_eq_true_eq] at h
  omega

/-- The reset state meets the invariant with every legal choice of the parameters. -/
theorem State.reset_inv {p : Params} (hp : p.wf = true) : ({ State.reset with params := p } : State).Inv where
  params := hp
  notBusy := rfl
  bufInWf := rfl
  bufInCap := rfl
  bufOutCap := Nat.zero_le _
  frame := nofun

/-- `State.Inv` speaks of params, BUSY, BUF_IN, BUF_OUT and FRAME only. -/
theorem State.Inv.congr {s t : State} (h : s.Inv) (hp : t.params = s.params := by rfl) (hb : t.busy = s.busy := by rfl)
    (hi : t.bufIn = s.bufIn := by rfl) (ho : t.bufOut = s.bufOut := by rfl) (hf : t.frame = s.frame := by rfl) : t.Inv := by
  obtain ⟨h1, h2, h3, h4, h5, h6⟩ := h
  constructor <;> simp only [hp, hb, hi, ho, hf] <;> assumption

/-- Both invariants pass from `s` to `t`. -/
structure Keeps (s t : State) : Prop where
  inv  : s.Inv → t.Inv
  even : s.frame.callsEven → t.frame.callsEven

/-- The fields the invariants speak of are as before: params, BUSY, BUF_IN, BUF_OUT and FRAME. -/
theorem Keeps.same {s t : State} (hp : t.params = s.params := by rfl) (hb : t.busy = s.busy := by rfl)
    (hi : t.bufIn = s.bufIn := by rfl) (ho : t.bufOut = s.bufOut := by rfl) (hf : t.frame = s.frame := by rfl) :
    Keeps s t where
  inv h := h.congr hp hb hi ho hf
  even h := hf ▸ h

theorem Keeps.refl (s : State) : Keeps s s := ⟨id, id⟩

section
variable {s t : State} (h : Keeps s t)
include h

theorem Keeps.trans {u : State} (h' : Keeps t u) : Keeps s u := ⟨h'.inv ∘ h.inv, h'.even ∘ h.even⟩

theorem Keeps.setCode (c : StatusCode) : Keeps s (t.setCode c) := h.trans .same

theorem Keeps.addDiag (d : BitVec 6) : Keeps s (t.addDiag d) := h.trans .same

/-- An output that fits BUF_OUT may be put out. -/
theorem Keeps.putOut {bs : List Byte} (hl : t.Inv → bs.length ≤ t.params.bufCap) : Keeps s (t.putOut bs) :=
  h.trans ⟨fun ht => ⟨ht.params, ht.notBusy, ht.bufInWf, ht.bufInCap, hl ht, ht.frame⟩, id⟩

/-- A frame that meets R22 and has even call octets may be written to FRAME. -/
theorem Keeps.setFrame {f : Frame} (hf : t.Inv → f.inv t.params) (he : t.frame.callsEven → f.callsEven) :
    Keeps s { t with frame := f } :=
  h.trans ⟨fun ht => ⟨ht.params, ht.notBusy, ht.bufInWf, ht.bufInCap, ht.bufOutCap, hf ht⟩, he⟩

end

/-- FRAME's addresses may be replaced by as many as R22 allows, if they fit and have even call octets. -/
theorem Keeps.setAddrs {s : State} {l : List AddrImage}
    (hl : s.Inv → s.frame.valid = true → (l.length = 0 ∨ 2 ≤ l.length ∧ l.length ≤ 10) ∧
      7 * l.length + s.frame.restLen ≤ s.params.maxPacketLen)
    (he : (∀ a ∈ s.frame.addrs, a.callEven) → ∀ a ∈ l, a.callEven) :
    Keeps s { s with frame := { s.frame with addrs := l } } :=
  (Keeps.refl s).setFrame (fun h hv => hl h hv) he

/-- XFER's write of BUF_IN. -/
theorem Keeps.writeBytes (s : State) (a : Nat) (bs : List Byte) :
    Keeps s { s with bufIn := Memory.writeBytes s.params.bufCap s.bufIn a bs } where
  inv h :=
    have hw := Memory.writeBytes_spec s.params.bufCap bs s.bufIn a h.bufInWf
    ⟨h.params, h.notBusy, hw.1, hw.2.1 h.bufInCap, h.bufOutCap, h.frame⟩
  even h := h

theorem Keeps.setBufInByte (s : State) (i : Nat) (b : Byte) : Keeps s (s.setBufInByte i b) := by
  unfold State.setBufInByte
  split
  · next hi =>
    exact ⟨fun h => ⟨h.params, h.notBusy, Memory.write_wf i b h.bufInWf, Memory.write_below b h.bufInCap hi, h.bufOutCap,
      h.frame⟩, id⟩
  · exact .same

theorem Keeps.setBufInWord (s : State) (i : Nat) (v : Word) : Keeps s (s.setBufInWord i v) :=
  (((Keeps.setBufInByte s _ _).trans (.setBufInByte _ _ _)).trans (.setBufInByte _ _ _)).trans (.setBufInByte _ _ _)

theorem Keeps.regWrite (s : State) (a : Nat) (v : Word) : Keeps s (writeReg s a v) := by
  rcases writeReg_cases s a v with ⟨-, e⟩ | ⟨-, e⟩ | ⟨k, -, -, e⟩ | ⟨-, -, e⟩ | e <;> rw [e]
  · exact .same
  · exact .same
  · exact .same
  · exact .setBufInWord s _ v
  · exact .same

/-- The reset input keeps the invariant: it leaves the parameters alone (70_reset_and_hazards.md R311). -/
theorem Keeps.reset (s : State) : Keeps s (resetInput s) where
  inv h := (State.reset_inv h.params).congr
  even _ := nofun

/-! ### The frames that commands make -/

/-- The outputs of commands that read FRAME fit BUF_OUT, with room for an FCS. -/
theorem pack_length_le {s : State} (h : s.Inv) (hv : s.frame.valid = true) : (pack s.frame).length + 2 ≤ s.params.bufCap := by
  have hlen := (h.frame hv).2
  have hp := Params.bounds h.params
  rw [pack_length]
  omega

/-- A payload IL2P_ENCODE chooses has at most 1023 bytes (45_il2p_frame.md R261). -/
theorem il2pChoose_body_le {f : Frame} {m : Bool} {r : Il2pChoice} (h : il2pChoose f m = .ok r) : r.body.length ≤ 1023 := by
  rcases il2pChoose_cases f m with ⟨c, -, e⟩ | ⟨hd, n, he, e⟩ | ⟨-, hd, he, e⟩ <;> rw [h] at e <;> cases e
  · exact (hdr1Enc_ok he).2.2.1
  · rw [pack_length]
    exact (hdr0Enc_ok he).2.2.1

/-- A decoded call and its RES_ADDR, the result of ADDR_DECODE and ADDR_READ. -/
theorem Keeps.call (s : State) (r : ResAddr) (a : AddrImage) :
    Keeps s ({ s with resAddr := r }.putOut (addrDecodeCall a)) := by
  refine Keeps.putOut .same fun hs => ?_
  have hbd := Params.bounds hs.params
  have hl : (addrDecodeCall a).length ≤ 6 := stripBlanks_length_le a.chars
  dsimp only at hbd ⊢
  omega

/-- A loaded frame meets R22 if its length is one FRAME_LOAD accepts. -/
theorem loadFrame_inv {p : Params} {b : List Byte} (h : loadable p b.length = true) (m : Bool) : (loadFrame b m).inv p := by
  intro _
  simp only [loadable, Bool.and_eq_true, decide_eq_true_eq] at h
  rw [loadFrame_naddr, loadFrame_len]
  refine ⟨?_, h.2⟩
  by_cases h0 : findAddrBlock b = 0
  · exact .inl h0
  · obtain ⟨h2, h10, -⟩ := findAddrBlock_spec rfl h0
    exact .inr ⟨h2, h10⟩

/-- A frame built from an address block meets R22: at most 70 + 3 + MAX_INFO_LEN bytes. -/
theorem builtFrame_inv {p : Params} (hp : p.wf = true) {b : List Byte} (hb : findAddrBlock b ≠ 0) (cr m : Bool)
    {r : List Byte} (hr : r.length ≤ 3 + p.maxInfoLen) :
    (builtFrame (imagesOf (findAddrBlock b) b) cr m r).inv p := by
  intro _
  obtain ⟨h2, h10, -⟩ := findAddrBlock_spec rfl hb
  have hbd := Params.bounds hp
  simp only [Frame.len, Frame.naddr, Frame.restLen, builtFrame_addrs, builtFrame_rest, setCBits_length, imagesOf_length]
  omega

theorem builtFrame_callsEven (b : List Byte) (cr m : Bool) (r : List Byte) :
    (builtFrame (imagesOf (findAddrBlock b) b) cr m r).callsEven :=
  setCBits_callEven (imagesOf_block_callEven b) cr

/-- A type-1 frame with its payload meets R22: 14 + 2 + 1023 bytes at most. -/
theorem hdr1Dec_inv {p q : Params} (hp : p.wf = true) {h : Hdr} {r : Built} (e : hdr1Dec q h = .built r) {b : List Byte}
    (hb : b.length ≤ 1023) : ({ r.frame with rest := r.frame.rest ++ b } : Frame).inv p := by
  intro _
  obtain ⟨-, -, hn, hr, -⟩ := hdr1Dec_built e
  have hbd := Params.bounds hp
  simp only [Frame.len, Frame.naddr, Frame.restLen, List.length_append] at hn hr ⊢
  omega

/-! ### Every command keeps both invariants -/

theorem Ends.keeps {bad : StatusCode → State → Prop} {good : State → Prop} {o : Host.Outcome State Fault Refusal} {s t : State}
    (h : Ends o bad good) (hbad : ∀ c u, bad c u → Keeps s u) (hgood : ∀ u, good u → Keeps s u) (ht : o = .next t) :
    Keeps s t := by
  rcases h.cases ht with ⟨u, -, hb, e⟩ | ⟨u, hg, e⟩ <;> rw [e]
  · exact (hbad _ u hb).setCode _
  · exact (hgood u hg).setCode _

/-- A command that fails with nothing written keeps the invariants if what it writes when it ends OK does. -/
theorem Ends.keeps_clean {good : State → Prop} {o : Host.Outcome State Fault Refusal} {s t : State}
    (h : Ends o (Clean s) good) (hgood : ∀ u, good u → Keeps s u) (ht : o = .next t) : Keeps s t :=
  h.keeps (fun _ _ hu => hu ▸ .refl s) hgood ht

/-- A builder keeps the invariants if what it makes is a `builtFrame` of the images, with at most 3 + MAX_INFO_LEN bytes of REST. -/
theorem Builds.keeps {s t : State} {build : List AddrImage → List Byte → Built} (h : Builds s build t) (cr m : Bool)
    (hf : ∀ l info, (build l info).frame = builtFrame l cr m (build l info).frame.rest)
    (hl : ∀ l info, (build l info).frame.rest.length ≤ 3 + s.params.maxInfoLen) : Keeps s t := by
  obtain ⟨hk, r, rfl, rfl⟩ := h
  rw [hf]
  exact ((Keeps.refl s).setFrame (fun hs => builtFrame_inv hs.params hk cr m (hl _ _))
    fun _ => builtFrame_callsEven _ cr m _).addDiag _

theorem execAddrSet_keeps {n ssid : BitVec 4} {hbit : Bool} {s t : State} (h : execAddrSet n ssid hbit s = .next t) :
    Keeps s t := by
  refine (execAddrSet_ends n ssid hbit s).keeps_clean ?_ h
  rintro _ ⟨-, call, b7, rfl⟩
  refine .setAddrs (fun hs hv => ?_) fun hl a ha => ?_
  · rw [List.length_set]
    exact hs.frame hv
  · rcases List.mem_or_eq_of_mem_set ha with ha | rfl
    · exact hl a ha
    · exact addrEncode_callEven _ _ _ _

theorem execAddrInsert_keeps {n ssid : BitVec 4} {hbit : Bool} {s t : State}
    (h : execAddrInsert n ssid hbit s = .next t) : Keeps s t := by
  refine (execAddrInsert_ends n ssid hbit s).keeps_clean ?_ h
  rintro _ ⟨-, h2, h10, hn, hmax, call, rfl⟩
  rw [insertAt_eq_insertIdx _ _ _ hn]
  refine .setAddrs (fun hs hv => ?_) fun hl a ha => ?_
  · rw [List.length_insertIdx_of_le_length hn]
    have hf := (hs.frame hv).1
    simp only [Frame.len, Frame.naddr, Frame.restLen] at hf h2 h10 hmax ⊢
    omega
  · rcases (List.mem_insertIdx hn).mp ha with rfl | ha
    · exact addrEncode_callEven _ _ _ _
    · exact hl a ha

theorem execAddrRemove_keeps {n : BitVec 4} {s t : State} (h : execAddrRemove n s = .next t) : Keeps s t := by
  refine (execAddrRemove_ends n s).keeps_clean ?_ h
  rintro _ ⟨-, h2, hn, rfl⟩
  rw [removeAt_eq_eraseIdx]
  refine .setAddrs (fun hs hv => ?_) fun hl a ha => hl a (List.mem_of_mem_eraseIdx ha)
  rw [List.length_eraseIdx_of_lt hn]
  obtain ⟨hf, hlen⟩ := hs.frame hv
  simp only [Frame.len, Frame.naddr, Frame.restLen] at hf hn hlen ⊢
  omega

theorem execIl2pDecode_keeps {m128 : Bool} {s t : State} (h : execIl2pDecode m128 s = .next t) : Keeps s t := by
  refine (execIl2pDecode_ends m128 s).keeps ?_ ?_ h
  · rintro c _ (⟨-, rfl⟩ | ⟨-, m, rfl⟩ | ⟨-, b, rfl⟩) <;> exact .same
  · rintro _ ⟨hd, plan, mh, mp, p, ⟨r, hr, hp, rfl⟩ | ⟨hp, hload, rfl⟩⟩
    · have hcount : p.length ≤ 1023 := by have := (hdrCount hd).isLt; omega
      have hk : Keeps s (il2pCommit s hd plan mh mp) := .same
      exact (hk.setFrame (fun ht => hdr1Dec_inv ht.params hr hcount) fun _ => hdr1Dec_callsEven hr).addDiag _
    · have hk : Keeps s (il2pCommit s hd plan mh mp) := .same
      exact hk.setFrame (fun _ => loadFrame_inv (hp ▸ hload) m128) fun _ => loadFrame_callsEven p m128

theorem execIl2pEncode_keeps {m : Bool} {s t : State} (h : execIl2pEncode m s = .next t) : Keeps s t := by
  refine (execIl2pEncode_ends m s).keeps_clean ?_ h
  rintro _ ⟨r, hr, rfl⟩
  have hbody := il2pChoose_body_le hr
  refine Keeps.putOut .same fun hs => ?_
  have hbd := Params.bounds hs.params
  have hpay := payLen_le hbody m
  rw [onAir_length r.hdr hbody]
  dsimp only at hbd ⊢
  omega

/-- Every command keeps both invariants. -/
theorem exec_keeps {i : Instr} {s t : State} (h : exec i s = .next t) : Keeps s t := by
  cases i with
  | nop | diagClear | frameClassify | fcsCalc | fcsCheck | hdr1Enc | hdr0Enc | hdrAttr | hdrClarify | plan =>
    have hw : t = _ := Claim.exec_writesOnly h
    refine .same ?_ ?_ ?_ ?_ ?_ <;> rw [hw]
  | xfer =>
    refine (execXfer_ends s).keeps_clean ?_ h
    rintro _ rfl
    exact Keeps.trans (.writeBytes s 0 s.bufOut) .same
  | addrEncode ssid hbit last =>
    refine (execAddrEncode_ends ssid hbit last s).keeps_clean ?_ h
    rintro _ rfl
    refine (Keeps.refl s).putOut fun hs => ?_
    have hbd := Params.bounds hs.params
    rw [AddrImage.bytes_length]
    omega
  | addrDecode =>
    refine (execAddrDecode_ends s).keeps_clean ?_ h
    rintro _ ⟨a, rfl⟩
    exact .call s _ a
  | addrRead n =>
    refine (execAddrRead_ends n s).keeps_clean ?_ h
    rintro _ ⟨a, l, rfl⟩
    exact .call s _ a
  | addrSet => exact execAddrSet_keeps h
  | addrInsert => exact execAddrInsert_keeps h
  | addrRemove => exact execAddrRemove_keeps h
  | frameLoad m128 =>
    refine (execFrameLoad_ends m128 s).keeps_clean ?_ h
    rintro _ ⟨hl, rfl⟩
    exact (Keeps.refl s).setFrame (fun _ => loadFrame_inv hl m128) fun _ => loadFrame_callsEven _ m128
  | framePack =>
    refine (execFramePack_ends s).keeps_clean ?_ h
    rintro _ ⟨hv, rfl⟩
    exact (Keeps.refl s).putOut fun hs => by have := pack_length_le hs hv; omega
  | buildU sel cr pf pid m128 =>
    refine (execBuildU_ends sel cr pf pid m128 s).keeps_clean ?_ h
    rintro _ ⟨-, hu⟩
    exact hu.keeps cr m128 (fun _ _ => rfl) fun _ _ => (buildU_rest_le ..).trans (by omega)
  | buildS sel cr pf nr m128 =>
    refine (execBuildS_ends sel cr pf nr m128 s).keeps_clean ?_ h
    rintro _ ⟨-, -, hu⟩
    exact hu.keeps cr m128 (fun _ _ => rfl) fun _ _ => (buildS_rest_le ..).trans (by omega)
  | buildI cr pf nr ns pid m128 =>
    refine (execBuildI_ends cr pf nr ns pid m128 s).keeps_clean ?_ h
    exact fun _ hu => hu.keeps cr m128 (fun _ _ => rfl) fun _ _ => buildI_rest_le ..
  | fcsGen =>
    refine (execFcsGen_ends s).keeps_clean ?_ h
    rintro _ ⟨hl, rfl⟩
    refine Keeps.putOut .same fun _ => ?_
    simpa [fcsBytes] using hl
  | framePackFcs =>
    refine (execFramePackFcs_ends s).keeps_clean ?_ h
    rintro _ ⟨hv, rfl⟩
    refine Keeps.putOut .same fun hs => ?_
    have := pack_length_le hs hv
    simpa [fcsBytes] using this
  | hdr1Dec =>
    refine (execHdr1Dec_ends s).keeps ?_ ?_ h
    · rintro _ _ ⟨-, b, rfl⟩
      exact (Keeps.refl s).addDiag _
    · rintro _ ⟨r, hr, rfl⟩
      refine ((Keeps.refl s).setFrame (fun hs => ?_) fun _ => hdr1Dec_callsEven hr).addDiag _
      simpa using hdr1Dec_inv hs.params hr (b := []) (by simp)
  | hdrEmit =>
    refine (execHdrEmit_ends s).keeps_clean ?_ h
    rintro _ rfl
    refine (Keeps.refl s).putOut fun hs => ?_
    have hbd := Params.bounds hs.params
    rw [protect_length, hdrBytes_length]
    omega
  | il2pEncode => exact execIl2pEncode_keeps h
  | il2pDecode => exact execIl2pDecode_keeps h

/-- Every step keeps both invariants. -/
theorem step_keeps {s t : State} (h : step s = .next t) : Keeps s t := by
  rcases step_cases h with rfl | ⟨rest, rfl | ⟨a, rfl⟩ | rfl | ⟨a, v, rfl⟩ | ⟨v, i, he⟩ | ⟨v, rfl⟩⟩
  · exact .same
  · exact Keeps.trans .same (.reset _)
  · exact .same
  · exact .same
  · exact Keeps.trans .same (.regWrite _ a v)
  · exact Keeps.trans .same (exec_keeps he)
  · exact .same

end Sys2Proof.Machine
end

section
/-! The statements about the state, the register space and the step (10_state.md), each assembled from the lemmas above. -/

namespace Sys2Proof.Proofs

open Sys2Proof.Machine Sys2Proof.Claim

/-- Settles O14: every host action and every command keeps both invariants (`step_keeps`). -/
theorem stepKeepsTheInvariant : Obligations.StepKeepsTheInvariant :=
  fun _ _ h => ⟨(step_keeps h).inv, (step_keeps h).even⟩

/-- Settles O13: the reset state has the default parameters, which are legal, and no address. -/
theorem resetMeetsTheInvariant : Obligations.ResetMeetsTheInvariant :=
  ⟨State.reset_inv (by decide : Params.default.wf = true), nofun⟩

/-- Settles O18, from the ways each command can end (Laws/Commands.lean). -/
theorem commandsWriteOnlyNamedState : Obligations.CommandsWriteOnlyNamedState :=
  fun _ _ _ h => exec_writesOnly h

/-- Settles O17: DIAG is written by the builders, HDR1_DEC, IL2P_DECODE and DIAG_CLEAR only, and by all but the last with an OR. -/
theorem diagBitsAreSticky : Obligations.DiagBitsAreSticky :=
  fun _ _ _ h hi => exec_addsDiag h hi

/-- Settles O7: such an offset is none of those `writeReg_cases` lists as taking the word. -/
theorem readOnlyWritesAreIgnored : Obligations.ReadOnlyWritesAreIgnored := by
  intro s a v rest hs h4 ha hreg hwin
  simp only [List.mem_cons, List.not_mem_nil, or_false, not_or] at hreg
  by_cases hb : s.busy = true
  · exact step_write_busy hb hs h4 ha
  · rw [step_write_reg (by simpa using hb) hs h4 ha (by omega)]
    rcases writeReg_cases { s with host := rest } a v with ⟨h, -⟩ | ⟨h, -⟩ | ⟨k, hk, h, -⟩ | ⟨h, h', -⟩ | e
    · omega
    · omega
    · omega
    · omega
    · rw [e]

/-- Settles O9, register by register and window by window. -/
theorem bufferWindowsRead : Obligations.BufferWindowsRead := by
  intro s
  refine ⟨rfl, rfl, statusWord_toNat s, diagWord_toNat s, BitVec.toNat_setWidth_of_le (by decide), ?_, frameCtlWord_toNat s,
    frameRlenWord_toNat s, resClassWord_toNat _, by decide, resAddrWord_toNat _, resHdrWord_toNat _,
    BitVec.toNat_setWidth_of_le (by decide), planSizesWord_toNat _, planCountsWord_toNat _,
    BitVec.toNat_setWidth_of_le (by decide), corrWord_toNat s, fun k j hk hj => ?_, fun k j hk hj hc => ?_,
    fun k j hk hj hc => ?_, fun a _ _ ha hin hout => ?_⟩
  · exact (BitVec.toNat_setWidth_of_le (by decide)).trans (BitVec.toNat_ofNat ..)
  · rw [readReg_hdr s hk, extractLsb'_hdrWord _ _ hj]
    split
    · rfl
    · exact hdrByte_of_ge _ (by omega)
  · rw [readReg_bufIn s hk hj, readReg_bufOut s hk hj]
    exact ⟨if_pos hc, fun b hb => by simp only [State.bufOutByte, if_pos hc, hb, Option.getD_some]⟩
  · rw [readReg_bufIn s hk hj, readReg_bufOut s hk hj]
    exact ⟨if_neg (by omega), if_neg (by omega)⟩
  · rw [readReg_of_ge s ha, if_neg hin, if_neg hout]

/-- Settles O10: HDR_Wk holds the bytes of HDR from 4k on, and HDR has thirteen of them (`hdrByte_setHdrWord`). -/
theorem hdrAndLengthRegistersAreWritable : Obligations.HdrAndLengthRegistersAreWritable := by
  intro s v rest hb
  refine ⟨fun k hk hs => ?_, fun hs => ?_⟩
  · refine ⟨{ s with host := rest, hdr := setHdrWord s.hdr k v }, ?_, rfl, fun i hi => hdrByte_setHdrWord s.hdr k v hi, ?_⟩
    · rw [step_write_reg hb hs (by omega) (by omega) (by omega), writeReg_hdr _ hk]
    · rw [readReg_hdr _ hk, hdrWord_setHdrWord s.hdr hk v]
  · exact step_write_reg hb hs (by decide) (by decide) (by decide)

/-- Settles O5: the two writes put the halves of the word in place, and the second runs it (`commandWord_halves`). -/
theorem stepExecutesIssuedCommand : Obligations.StepExecutesIssuedCommand := by
  intro s rest v hb
  have hlo : ∀ {v : Word} {rest : List HostAction}, s.host = .write 0x000 4 v :: rest →
      step s = .next { s with host := rest, cmdLo := v } :=
    fun hs => step_write_reg hb hs (by decide) (by decide) (by decide)
  refine ⟨fun i hs hd => step_write_cmdHi hb hs hd, hlo, fun hs => ?_, fun w i hs hd => ?_⟩
  · exact ⟨_, step_read hs (by decide) (by decide), (statusWord_busy s).trans hb⟩
  · exact ⟨_, hlo hs, step_write_cmdHi hb rfl (by rw [commandWord_halves, hd])⟩

end Sys2Proof.Proofs
end

section
/-! SUPPORT. Which host accesses have a step (20_memory.md R60, R66), and what a word written to the BUF_IN window leaves (R61, R62). -/

namespace Sys2Proof.Machine

/-! ### Accesses that have a step, and those that have none -/

/-- Every command ends (60_exceptions.md R285). -/
theorem exec_next (i : Instr) (s : State) : ∃ t, exec i s = .next t := by
  cases i with
  | nop => exact (execNop_ends s).next
  | xfer => exact (execXfer_ends s).next
  | diagClear => exact (execDiagClear_ends s).next
  | addrEncode => exact (execAddrEncode_ends _ _ _ s).next
  | addrDecode => exact (execAddrDecode_ends s).next
  | addrRead => exact (execAddrRead_ends _ s).next
  | addrSet => exact (execAddrSet_ends _ _ _ s).next
  | addrInsert => exact (execAddrInsert_ends _ _ _ s).next
  | addrRemove => exact (execAddrRemove_ends _ s).next
  | frameLoad => exact (execFrameLoad_ends _ s).next
  | framePack => exact (execFramePack_ends s).next
  | frameClassify => exact (execFrameClassify_ends s).next
  | buildU => exact (execBuildU_ends _ _ _ _ _ s).next
  | buildS => exact (execBuildS_ends _ _ _ _ _ s).next
  | buildI => exact (execBuildI_ends _ _ _ _ _ _ s).next
  | fcsCalc => exact (execFcsCalc_ends s).next
  | fcsGen => exact (execFcsGen_ends s).next
  | fcsCheck => exact (execFcsCheck_ends s).next
  | framePackFcs => exact (execFramePackFcs_ends s).next
  | hdr1Enc => exact (execHdr1Enc_ends _ s).next
  | hdr0Enc => exact (execHdr0Enc_ends _ s).next
  | hdrAttr => exact (execHdrAttr_ends s).next
  | hdr1Dec => exact (execHdr1Dec_ends s).next
  | hdrClarify => exact (execHdrClarify_ends s).next
  | hdrEmit => exact (execHdrEmit_ends s).next
  | plan => exact (execPlan_ends _ _ s).next
  | il2pEncode => exact (execIl2pEncode_ends _ s).next
  | il2pDecode => exact (execIl2pDecode_ends _ s).next

/-- A command word, legal or not, ends. -/
theorem issueWord_next (s : State) (v : Word) : ∃ t, issueWord s v = .next t := by
  unfold issueWord
  split
  · exact exec_next _ _
  · exact ⟨_, rfl⟩

/-- The framer refuses no write once its access has no fault: it ignores it, runs a command, or writes a register (R68). -/
theorem hostWrite_next (s : State) (a : Nat) (v : Word) : ∃ t, hostWrite s a v = .next t := by
  unfold hostWrite
  split
  · exact ⟨_, rfl⟩
  · split
    · exact issueWord_next s v
    · exact ⟨_, rfl⟩

/-- An access of another width, misaligned, or above the register space has a fault (R60, R66). -/
theorem accessFault_of_bad {a width : Nat} (h : width ≠ 4 ∨ a % 4 ≠ 0 ∨ 0x2FFF < a) : ∃ f, accessFault a width = some f := by
  unfold accessFault
  split
  · exact ⟨_, rfl⟩
  split
  · exact ⟨_, rfl⟩
  split
  · exact ⟨_, rfl⟩
  · omega

section
variable {s : State} {a width : Nat} {v : Word} {rest : List HostAction}

theorem step_read_fault {f : Fault} (hs : s.host = .read a width :: rest) (hf : accessFault a width = some f) :
    step s = .fault f := by
  simp only [step, hs, hf]

theorem step_write_fault {f : Fault} (hs : s.host = .write a width v :: rest) (hf : accessFault a width = some f) :
    step s = .fault f := by
  simp only [step, hs, hf]

theorem step_write_next (hs : s.host = .write a 4 v :: rest) (h4 : a % 4 = 0) (ha : a ≤ 0x2FFF) : ∃ t, step s = .next t := by
  simp only [step, hs, accessFault_aligned h4 ha]
  exact hostWrite_next _ a v

end

/-! ### The BUF_IN window -/

/-- A write of the BUF_IN window is `setBufInWord`'s. -/
theorem writeReg_bufIn (s : State) {k : Nat} (hk : k < 512) (v : Word) :
    writeReg s (0x1000 + 4 * k) v = s.setBufInWord (4 * k) v := by
  unfold writeReg
  split
  case h_7 => rw [if_pos (by omega), Nat.add_sub_cancel_left]; rfl
  all_goals omega

theorem State.setBufInByte_eq (s : State) (i : Nat) (b : Byte) :
    s.setBufInByte i b = { s with bufIn := if i < s.params.bufCap then Memory.write s.bufIn i b else s.bufIn } := by
  unfold State.setBufInByte
  split <;> rfl

/-- A word of the window is a string of four bytes, so `Memory.writeBytes_spec` says what writing it leaves. -/
theorem State.setBufInWord_eq (s : State) (i : Nat) (v : Word) : s.setBufInWord i v =
    { s with bufIn := Memory.writeBytes s.params.bufCap s.bufIn i ((List.range 4).map (byteOfWord v)) } := by
  simp only [State.setBufInWord, State.setBufInByte_eq]
  rfl

theorem State.setBufInWord_wf {s : State} (i : Nat) (v : Word) (hw : Memory.wf s.bufIn = true) :
    Memory.wf (s.setBufInWord i v).bufIn = true := by
  rw [State.setBufInWord_eq]
  exact (Memory.writeBytes_spec _ _ _ _ hw).1

/-- A word written to the window changes its own four bytes, those of them below BUF_CAP. -/
theorem State.bufInByte_setBufInWord {s : State} (k : Nat) (v : Word) (hw : Memory.wf s.bufIn = true) (i : Nat) :
    (s.setBufInWord (4 * k) v).bufInByte i =
      if s.params.bufCap ≤ i then 0 else if i / 4 = k then v.extractLsb' (8 * (i % 4)) 8 else s.bufInByte i := by
  obtain ⟨-, -, hread⟩ := Memory.writeBytes_spec s.params.bufCap ((List.range 4).map (byteOfWord v)) s.bufIn (4 * k) hw
  have hlen : ((List.range 4).map (byteOfWord v)).length = 4 := rfl
  simp only [State.setBufInWord_eq, State.bufInByte, hread, hlen]
  by_cases hc : s.params.bufCap ≤ i
  · rw [if_neg (by omega), if_pos hc]
  rw [if_pos (by omega), if_neg hc]
  by_cases hi : i / 4 = k
  · have hj : i - 4 * k = i % 4 := by omega
    have hlt : i % 4 < 4 := Nat.mod_lt _ (by decide)
    rw [if_pos (by omega), if_pos hi, hj]
    simp [List.getD, hlt, byteOfWord]
  · rw [if_neg (by omega), if_neg hi, if_pos (by omega)]

end Sys2Proof.Machine
end

section
/-! The statements about the register space and its accesses (20_memory.md), each assembled from the lemmas above. -/

namespace Sys2Proof.Proofs

open Sys2Proof.Machine Sys2Proof.Claim

/-- Settles O8: the write reaches `setBufInWord`, whose bytes `bufInByte_setBufInWord` gives. -/
theorem bufInWindowWrite : Obligations.BufInWindowWrite := by
  intro s k v rest hw hb hk hs
  refine ⟨State.setBufInWord { s with host := rest } (4 * k) v, ?_, ?_, State.setBufInWord_wf (4 * k) v hw,
    State.bufInByte_setBufInWord (s := { s with host := rest }) k v hw⟩
  · rw [step_write_reg hb hs (by omega) (by omega) (by omega), writeReg_bufIn _ hk]
  · rw [State.setBufInWord_eq]

/-- Settles O6: `accessFault` names the accesses that have no step, and every other one is served. -/
theorem onlyAlignedWordAccessesStep : Obligations.OnlyAlignedWordAccessesStep := by
  intro s a width v rest
  refine ⟨fun hbad => ?_, fun hwidth h4 ha => ?_⟩
  · obtain ⟨f, hf⟩ := accessFault_of_bad hbad
    exact ⟨fun hs => ⟨f, step_read_fault hs hf⟩, fun hs => ⟨f, step_write_fault hs hf⟩⟩
  · subst hwidth
    exact ⟨fun hs => step_read hs h4 ha, fun hs => step_write_next hs h4 ha⟩

end Sys2Proof.Proofs
end

section
/-! SUPPORT. Which command a word decodes to, and which words decode to none (30_encoding.md R80 to R85). -/

namespace Sys2Proof

open Machine Claim

/-! ### Words and their fields -/

/-- A command word is RSV and its fields, and nothing beside (30_encoding.md R80). -/
theorem eq_word_iff {w : CmdWord} {f : CmdFields} : w = f.word ↔ w.rsv = 0 ∧ w.fields = f := by
  constructor
  · rintro rfl
    exact ⟨word_rsv f, fields_word f⟩
  · rintro ⟨hr, rfl⟩
    exact (word_fields hr).symm

/-- The fields of `f` at the bits set in `g`, every other bit 0. -/
def CmdFields.and (f g : CmdFields) : CmdFields where
  op     := f.op &&& g.op
  pid    := f.pid &&& g.pid
  sel    := f.sel &&& g.sel
  cr     := f.cr && g.cr
  pf     := f.pf && g.pf
  nr     := f.nr &&& g.nr
  ns     := f.ns &&& g.ns
  m128   := f.m128 && g.m128
  maxFec := f.maxFec && g.maxFec
  hbit   := f.hbit && g.hbit
  ssid   := f.ssid &&& g.ssid
  count  := f.count &&& g.count
  last   := f.last && g.last

theorem fields_and (w v : CmdWord) : CmdWord.fields (w &&& v) = w.fields.and v.fields := by
  simp only [CmdWord.fields, CmdFields.and, BitVec.extractLsb'_and, BitVec.getLsbD_and]

/-- A field read at all its bits is kept; stated for a mask written as a numeral. -/
theorem and_eq_self_of_allOnes {n : Nat} {x m : BitVec n} (h : m = BitVec.allOnes n) : x &&& m = x := by
  rw [h, BitVec.and_allOnes]

/-! ### The opcode map (30_encoding.md R83) -/

theorem fields_instr (i : Instr) : i.fields.instr = .ok i := by
  cases i <;> rfl

theorem op_of_instr {f : CmdFields} {i : Instr} (h : f.instr = .ok i) : f.op = i.fields.op := by
  unfold CmdFields.instr at h
  split at h <;> cases h <;> exact BitVec.eq_of_toNat_eq ‹_›

/-- The opcodes R83 lists as illegal are those the map rejects, and it rejects nothing else. -/
theorem instr_cases (f : CmdFields) :
    (illegalOp f.op.toNat ∧ f.instr = .error .unassignedOpcode) ∨ (¬ illegalOp f.op.toNat ∧ ∃ i, f.instr = .ok i) := by
  have hlt := f.op.isLt
  unfold illegalOp CmdFields.instr
  split
  case h_29 => -- the default arm
    refine .inl ⟨?_, rfl⟩
    simp only [imp_false] at *
    omega
  all_goals exact .inr ⟨by omega, _, rfl⟩

/-! ### The bits a command names (30_encoding.md R81)

The masks of `Instr.namedBits` are left unevaluated (`-BitVec.reduceOr`) until the command's operands are gone from the goal: the
kernel computes with closed numerals only. -/

/-- Every command's word is read at RSV (R82). -/
theorem rsv_and_namedBits (w : CmdWord) (i : Instr) : CmdWord.rsv (w &&& i.namedBits) = w.rsv := by
  rw [CmdWord.rsv, BitVec.extractLsb'_and]
  apply and_eq_self_of_allOnes
  cases i <;> simp only [Instr.namedBits, -BitVec.reduceOr] <;> decide

/-- Fields that the opcode map takes to `i` are, at the bits `i` names, the fields of `i`. -/
theorem and_namedBits_of_instr {f : CmdFields} {i : Instr} (h : f.instr = .ok i) :
    f.and (CmdWord.fields i.namedBits) = i.fields := by
  have hop := op_of_instr h
  unfold CmdFields.instr at h
  split at h
  all_goals cases h
  all_goals
    simp only [Instr.namedBits, -BitVec.reduceOr]
    simp [CmdFields.and, CmdWord.fields, Instr.fields, and_eq_self_of_allOnes, hop]

/-- Fields that are, at the bits `i` names, the fields of `i` are taken to `i`. -/
theorem instr_of_and_namedBits {f : CmdFields} {i : Instr} (h : f.and (CmdWord.fields i.namedBits) = i.fields) :
    f.instr = .ok i := by
  cases i
  all_goals
    simp only [Instr.namedBits, -BitVec.reduceOr] at h
    simp [CmdFields.and, CmdWord.fields, Instr.fields, and_eq_self_of_allOnes] at h
    simp [CmdFields.instr, h]

/-! ### Decoding -/

theorem decode_eq_ok_iff {w : CmdWord} {i : Instr} : decode w = .ok i ↔ w.rsv = 0 ∧ w.fields.instr = .ok i := by
  unfold decode
  split
  · next hr => exact (and_iff_right hr).symm
  · next hr => exact iff_of_false nofun fun h => hr h.1

/-- A word with RSV not 0 or an illegal opcode is rejected, and every other word is a command (R82, R84). -/
theorem decode_cases (w : CmdWord) :
    ((w.rsv ≠ 0 ∨ illegalOp w.fields.op.toNat) ∧ ∃ r, decode w = .error r) ∨
      (¬ (w.rsv ≠ 0 ∨ illegalOp w.fields.op.toNat) ∧ ∃ i, decode w = .ok i) := by
  unfold decode
  by_cases hr : w.rsv = 0
  · rw [if_pos hr]
    obtain ⟨hop, hd⟩ | ⟨hop, hd⟩ := instr_cases w.fields
    · exact .inl ⟨.inr hop, _, hd⟩
    · exact .inr ⟨not_or.mpr ⟨not_not.mpr hr, hop⟩, hd⟩
  · exact .inl ⟨.inl hr, _, if_neg hr⟩

/-- The write of CMD_HI that completes an illegal word ends ILLEGAL_CMD (R82, R84). -/
theorem step_write_cmdHi_illegal {s : State} {v : Word} {rest : List HostAction} {r : Reject} (hb : s.busy = false)
    (hs : s.host = .write 0x004 4 v :: rest) (hd : decode (v ++ s.cmdLo) = .error r) :
    step s = .next { s with host := rest, cmdHi := v, code := .illegalCmd } := by
  have hf : accessFault 0x004 4 = none := accessFault_aligned (by decide) (by decide)
  simp only [step, hs, hf, hostWrite, hb, Bool.false_eq_true, if_false, cmdHiOffset, if_true, issueWord, commandWord, hd]
  rfl

end Sys2Proof
end

section
/-! The statements about the command words (30_encoding.md), each assembled from the lemmas above. -/

namespace Sys2Proof.Proofs

open Sys2Proof.Machine Sys2Proof.Claim

/-- Settles O1: the fields are read back from the word (`fields_word`), and the opcode map reads the command back from its fields. -/
theorem decodeInvertsEncode : Obligations.DecodeInvertsEncode := by
  intro i
  rw [decode_eq_ok_iff, encode, fields_word]
  exact ⟨word_rsv _, fields_instr i⟩

/-- Settles O2: a word is its RSV and its fields, masking keeps RSV, and the opcode map looks at the named bits of the fields only. -/
theorem unnamedFieldsAreIgnored : Obligations.UnnamedFieldsAreIgnored := by
  intro i w
  rw [decode_eq_ok_iff, encode, eq_word_iff, rsv_and_namedBits, fields_and]
  exact and_congr_right fun _ => ⟨and_namedBits_of_instr, instr_of_and_namedBits⟩

/-- Settles O3, by the two ways a word can decode (`decode_cases`). -/
theorem illegalWordsEndIllegalCmd : Obligations.IllegalWordsEndIllegalCmd := by
  intro s v rest hs hb w op
  obtain ⟨hbad, r, hd⟩ | ⟨hgood, i, hd⟩ := decode_cases w
  · exact ⟨fun _ => step_write_cmdHi_illegal hb hs hd, fun h => absurd hbad h⟩
  · exact ⟨fun h => absurd h hgood, fun _ => ⟨i, hd, step_write_cmdHi hb hs hd⟩⟩

/-- Settles O4, by decoding the seven words. -/
theorem specWordsDecode : Obligations.SpecWordsDecode :=
  ⟨rfl, rfl, rfl, rfl, rfl, rfl, rfl⟩

end Sys2Proof.Proofs
end

section
/-! SUPPORT. Callsigns and address images in the words of the statements (40_address.md R121 to R123), and the bytes that go from
BUF_OUT through XFER to the next command (41_frame.md R141). -/

namespace Sys2Proof.Claim

open Sys2Proof.Machine

/-! ### Callsigns and address images -/

theorem validCall_iff (c : List Byte) : validCall c = true ↔ callOk c := by
  simp [validCall, callOk, isCallChar, Config.callMax]

/-- `addrEncode` writes the seven octets of R123: past its end a call gives the blank, which is 0x40 when shifted. -/
theorem addrEncode_bytes (call : List Byte) (ssid : BitVec 4) (bit7 last : Bool) :
    (addrEncode call ssid bit7 last).bytes = addrOctets call ssid bit7 last := by
  have hoctet : ∀ j, callOctet call j = if j < call.length then call.getD j 0 <<< 1 else 0x40 := by
    intro j
    unfold callOctet
    split
    · next h => simp [List.getD_eq_getElem?_getD, h]
    · next h => rw [List.getD_eq_default _ _ (by omega)]; rfl
  simp only [AddrImage.bytes, addrEncode, hoctet, flagsOctet_eq]
  rfl

/-- The image made of the seven octets of R123. -/
theorem ofBytes_addrOctets (call : List Byte) (ssid : BitVec 4) (bit7 last : Bool) :
    AddrImage.ofBytes (addrOctets call ssid bit7 last) = addrEncode call ssid bit7 last := by
  rw [← addrEncode_bytes, AddrImage.ofBytes_bytes]

section
variable {a : AddrImage} {k : Nat} (h : callLength a.chars k)
include h

/-- A call of k characters decodes to those (R122, log 12). -/
theorem addrDecodeCall_of_callLength : addrDecodeCall a = a.chars.take k := by
  obtain ⟨hk, hblanks, hlast⟩ := h
  exact stripBlanks_eq_take hk hblanks hlast

theorem addrFields_of_callLength (last : Bool) : addrFields a last = addrResult a last k := by
  have hk : k ≤ a.chars.length := h.1
  rw [addrFields, addrDecodeCall_of_callLength h, List.length_take, Nat.min_eq_left hk]
  rfl

end

end Sys2Proof.Claim

namespace Sys2Proof.Machine

/-! ### Commands -/

/-- ADDR_DECODE of the seven octets of an image (R125). -/
theorem exec_addrDecode_bytes {s : State} {a : AddrImage} (hf : s.bufInLen.toNat ≤ s.params.bufCap)
    (hb : s.inBytes = a.bytes) : exec .addrDecode s =
      .next (({ s with resAddr := addrFields a a.last }.putOut (addrDecodeCall a)).setCode .ok) := by
  rw [exec, execAddrDecode, withInput_fits hf, hb, AddrImage.ofBytes_bytes]
  rfl

/-- The command after XFER reads what was output (R141). -/
theorem inBytes_of_xfer {s t : State} (h : exec .xfer s = .next t) (hw : Memory.wf s.bufIn = true)
    (hcap : s.bufOut.length ≤ s.params.bufCap) (hlen : s.bufOut.length < 4096) : t.inBytes = s.bufOut := by
  cases h
  have hn : s.bufOutLen.toNat = s.bufOut.length := Nat.mod_eq_of_lt hlen
  show Memory.readBytes (Memory.writeBytes s.params.bufCap s.bufIn 0 s.bufOut) 0 s.bufOutLen.toNat = s.bufOut
  rw [hn, Memory.readBytes_writeBytes hw hcap]

end Sys2Proof.Machine
end

section
/-! The statements about the address commands (40_address.md), each assembled from the lemmas above. -/

namespace Sys2Proof.Proofs

open Sys2Proof.Machine Sys2Proof.Claim

/-- Settles O23: the checks in their order, and the octets of `addrEncode` (`addrEncode_bytes`). -/
theorem addrEncodeOutcomes : Obligations.AddrEncodeOutcomes := by
  intro s ssid hbit last
  dsimp only [exec]
  refine ⟨fun h => withInput_over (Nat.lt_of_not_le h) _, fun hf hc => ?_, fun hf hc => ?_⟩
  · rw [← validCall_iff] at hc
    exact (withInput_fits hf _).trans (if_neg hc)
  · rw [← validCall_iff] at hc
    rw [← addrEncode_bytes]
    exact (withInput_fits hf _).trans (if_pos hc)

/-- Settles O24: BUF_IN holds as many bytes as BUF_IN_LEN says, and seven of them are one image. -/
theorem addrDecodeOutcomes : Obligations.AddrDecodeOutcomes := by
  intro s
  refine ⟨fun h => ?_, fun a k hf hb hk => ?_⟩
  · change execAddrDecode s = _
    rcases Nat.lt_or_ge s.params.bufCap s.bufInLen.toNat with hover | hf
    · exact withInput_over hover _
    · have h7 : s.bufInLen.toNat ≠ 7 := fun e => h.elim (by omega) fun hne => hne (BitVec.eq_of_toNat_eq e)
      rw [← inBytes_length] at h7
      exact (withInput_fits hf _).trans (if_neg h7)
  · rw [exec_addrDecode_bytes hf hb, addrDecodeCall_of_callLength hk, addrFields_of_callLength hk]
    rfl

/-- Settles O25: an address that is not there is a bad index, and any other is decoded with its positional marker. -/
theorem addrReadOutcomes : Obligations.AddrReadOutcomes := by
  intro s n
  refine ⟨fun hv => ?_, fun hv hn => ?_, fun a k hv ha hk => ?_⟩
  · simp only [exec, execAddrRead, hv]
    rfl
  · simp only [exec, execAddrRead, hv, if_true, List.getElem?_eq_none hn]
    rfl
  · have hn : n.toNat < s.frame.naddr := (List.getElem?_eq_some_iff.mp ha).1
    have hmarker : decide (n.toNat + 1 = s.frame.naddr) = decide (n.toNat = s.frame.naddr - 1) :=
      decide_eq_decide.mpr (by omega)
    simp only [exec, execAddrRead, hv, if_true, ha, addrDecodeCall_of_callLength hk, addrFields_of_callLength hk,
      hmarker]
    rfl

/-- Settles O26: the checks in their order, then the octets of `addrEncode` in place of the old ones. -/
theorem addrSetOutcomes : Obligations.AddrSetOutcomes := by
  intro s n ssid hbit
  dsimp only [exec]
  refine ⟨fun h => withInput_over (Nat.lt_of_not_le h) _, fun hf hv => ?_, fun hf hv hn => ?_, fun hf hv hn hc => ?_,
    fun a hf hv ha hc => ?_⟩ <;> refine (withInput_fits hf _).trans ?_
  · simp only [hv]
    rfl
  · simp only [hv, if_true, List.getElem?_eq_none hn]
    rfl
  · rw [← validCall_iff] at hc
    simp only [hv, if_true, List.getElem?_eq_getElem hn, if_neg hc]
    rfl
  · rw [← validCall_iff] at hc
    simp only [hv, if_true, ha, if_pos hc, ofBytes_addrOctets]
    rfl

/-- Settles O27: the checks in their order, and `insertAt` is the library's insertion (`insertAt_eq_insertIdx`). -/
theorem addrInsertOutcomes : Obligations.AddrInsertOutcomes := by
  intro s n ssid hbit
  dsimp only [exec]
  refine ⟨fun h => withInput_over (Nat.lt_of_not_le h) _, fun hf hv => ?_, fun hf hv hi => ?_, fun hf hv hi hl => ?_,
    fun hf hv hi hl hc => ?_, fun hf hv hi hl hc => ?_⟩ <;> refine (withInput_fits hf _).trans ?_
  · exact if_neg (by simp [hv])
  · exact (if_pos hv).trans (if_pos hi)
  · exact (if_pos hv).trans ((if_neg hi).trans (if_pos hl))
  · rw [← validCall_iff] at hc
    exact (if_pos hv).trans ((if_neg hi).trans ((if_neg (Nat.not_lt.mpr hl)).trans (if_neg hc)))
  · rw [← validCall_iff] at hc
    have hn : n.toNat ≤ s.frame.naddr := by omega
    rw [ofBytes_addrOctets, ← insertAt_eq_insertIdx _ _ _ hn]
    exact (if_pos hv).trans ((if_neg hi).trans ((if_neg (Nat.not_lt.mpr hl)).trans (if_pos hc)))

/-- Settles O28: the checks in their order, and `removeAt` is the library's removal (`removeAt_eq_eraseIdx`). -/
theorem addrRemoveOutcomes : Obligations.AddrRemoveOutcomes := by
  intro s n
  refine ⟨fun hv => if_neg (by simp [hv]), fun hv hi => (if_pos hv).trans (if_pos hi), fun hv h2 hn => ?_⟩
  rw [← removeAt_eq_eraseIdx]
  exact (if_pos hv).trans (if_neg (by omega))

/-- Settles O29: XFER hands the seven octets to ADDR_DECODE (`inBytes_of_xfer`), and an encoded image decodes to what it was made
of (`addrDecodeCall_addrEncode` and the rules of `addrEncode`'s fields). -/
theorem encodedAddressDecodesBack : Obligations.EncodedAddressDecodesBack := by
  intro s t u ssid hbit last hs hf hc ht hu
  have hvalid := (validCall_iff _).mpr hc
  have hinv : t.Inv := (exec_keeps ht).inv hs
  have hout : t.bufOut = (addrEncode s.inBytes ssid hbit last).bytes := by
    have henc := (addrEncodeOutcomes s ssid hbit last).2.2 hf hc
    rw [henc] at ht
    cases ht
    exact (addrEncode_bytes ..).symm
  have hin : u.inBytes = (addrEncode s.inBytes ssid hbit last).bytes :=
    (inBytes_of_xfer hu hinv.bufInWf hinv.bufOutCap (by rw [hout, AddrImage.bytes_length]; omega)).trans hout
  have hfits : u.bufInLen.toNat ≤ u.params.bufCap := by
    have hcap := Params.bounds ((exec_keeps hu).inv hinv).params
    rw [← inBytes_length, hin, AddrImage.bytes_length]
    omega
  refine ⟨_, exec_addrDecode_bytes hfits hin, rfl, addrDecodeCall_addrEncode hvalid .., ?_⟩
  simp only [State.setCode_resAddr, State.putOut_resAddr, addrFields, addrDecodeCall_addrEncode hvalid, addrEncode_ssid,
    addrEncode_bit7, addrEncode_rsv, addrEncode_last]

end Sys2Proof.Proofs
end

section
/-! SUPPORT. The address block's marker, and the housekeeping and frame commands where they end OK (41_frame.md R141 to R150). -/

namespace Sys2Proof.Machine

/-! ### The address block (R143) -/

/-- Where the first byte with bit 0 set ends a block of 2 to 10 addresses, `FindAddrBlock` finds that block. -/
theorem findAddrBlock_of_marker {s : List Byte} {k : Nat} (h2 : 2 ≤ k) (h10 : k ≤ 10) (hfits : 7 * k ≤ s.length)
    (hmarker : (s.getD (7 * k - 1) 0).getLsbD 0 = true) (hfirst : ∀ j, j < 7 * k - 1 → (s.getD j 0).getLsbD 0 = false) :
    findAddrBlock s = k := by
  have hidx : s.findIdx? (fun b => b.getLsbD 0) = some (7 * k - 1) := by
    rw [List.findIdx?_eq_some_iff_getElem]
    refine ⟨by omega, ?_, fun j hj => ?_⟩
    · rw [← List.getD_eq_getElem s 0, hmarker]
    · rw [← List.getD_eq_getElem s 0, hfirst j hj]
      decide
  have hlen : 7 * k - 1 + 1 = 7 * k := by omega
  have hdiv : 7 * k / 7 = k := Nat.mul_div_cancel_left k (by decide)
  simp only [findAddrBlock, hidx, Config.addrOctets, Config.minAddrs, Config.maxAddrs, hlen, hdiv]
  exact if_pos ⟨Nat.mul_mod_right 7 k, h2, h10⟩

theorem findAddrBlock_of_no_marker {s : List Byte} (h : ∀ b ∈ s, b.getLsbD 0 = false) : findAddrBlock s = 0 := by
  have hidx : s.findIdx? (fun b => b.getLsbD 0) = none := List.findIdx?_eq_none_iff.mpr h
  simp only [findAddrBlock, hidx]

/-! ### Commands that end OK -/

/-- A command that ended with OK in STATUS left a state that `good` speaks of. -/
theorem Ends.good_of_ok {o : Host.Outcome State Fault Refusal} {bad : StatusCode → State → Prop} {good : State → Prop}
    {t : State} (h : Ends o bad good) (ht : o = .next t) (hok : t.code = .ok) : ∃ u, good u ∧ t = u.setCode .ok := by
  rcases h.cases ht with ⟨_, hne, -, -⟩ | hgood
  · exact absurd hok hne
  · exact hgood

theorem exec_framePack_of_valid {s : State} (h : s.frame.valid = true) :
    exec .framePack s = .next ((s.putOut (pack s.frame)).setCode .ok) := if_pos h

theorem exec_frameClassify_of_valid {s : State} (h : s.frame.valid = true) :
    exec .frameClassify s = .next ({ s with resClass := (classify s.frame).regs }.setCode .ok) := if_pos h

/-! ### Builders (R150) -/

theorem buildFrom_no_block {s : State} {b : List Byte} (h : findAddrBlock b = 0)
    (build : List AddrImage → List Byte → Built) : buildFrom s b build = .next { s with code := .badAddrBlock } :=
  if_pos h

/-- With an address block, a builder commits its frame and adds its DIAG bits. -/
theorem buildFrom_block {s : State} {b : List Byte} {build : List AddrImage → List Byte → Built} {f : Frame}
    {d : BitVec 6} (hk : findAddrBlock b ≠ 0)
    (h : build (imagesOf (findAddrBlock b) b) (b.drop (7 * findAddrBlock b)) = ⟨f, d⟩) :
    buildFrom s b build = .next { s with code := .ok, frame := f, diag := s.diag ||| d } := by
  rcases buildFrom_cases s b build with ⟨h0, -⟩ | ⟨-, r, hr, e⟩
  · exact absurd h0 hk
  · rw [e, hr, h]
    rfl

/-- The block a builder finds has a destination and a source. -/
theorem two_le_block {b : List Byte} (hk : findAddrBlock b ≠ 0) : 2 ≤ (imagesOf (findAddrBlock b) b).length := by
  rw [imagesOf_length]
  exact (findAddrBlock_spec rfl hk).1

/-- FRAME_CLASSIFY directly after a builder that ended OK: the class of every frame the builder can make (R154). -/
theorem exec_frameClassify_of_builds {s u : State} {build : List AddrImage → List Byte → Built} {c : FrameClass}
    (h : Builds s build u)
    (hb : ∀ l info, 2 ≤ l.length → (build l info).frame.valid = true ∧ classify (build l info).frame = c) :
    exec .frameClassify (u.setCode .ok) = .next { u.setCode .ok with resClass := c.regs } := by
  obtain ⟨hk, r, rfl, rfl⟩ := h
  obtain ⟨hvalid, hclass⟩ := hb _ (s.inBytes.drop (7 * findAddrBlock s.inBytes)) (two_le_block hk)
  rw [exec_frameClassify_of_valid hvalid, ← hclass]
  rfl

/-! ### The classes of R148, case by case -/

/-- A U control byte's class has its type, whether or not R93 lists it. -/
theorem classifyU_regs (cr : BitVec 2) (c0 : Byte) : (classifyU cr c0).regs =
    { ftype := uTypeOf c0, cr := cr, pf := c0.getLsbD 4, nrV := false, nsV := false, nr := 0, ns := 0 } := rfl

theorem classify_of_no_addrs {f : Frame} (ha : f.addrs = []) : classify f = notAx25Class 0 := by
  simp only [classify, ha]
  rfl

section
variable {f : Frame} {d t : AddrImage} {as : List AddrImage} (ha : f.addrs = d :: t :: as)
include ha

theorem classify_of_no_control (hr : f.rest = []) : classify f = notAx25Class (crPair (d :: t :: as)) := by
  simp only [classify, ha, hr]

theorem classify_of_u {c0 : Byte} {more : List Byte} (hr : f.rest = c0 :: more) (h0 : c0.getLsbD 0 = true)
    (h1 : c0.getLsbD 1 = true) : classify f = classifyU (crPair (d :: t :: as)) c0 := by
  simp only [classify, ha, hr, h0, h1, Bool.and_self, if_true]

theorem classify_of_i8 {c0 : Byte} {more : List Byte} (hr : f.rest = c0 :: more) (hm : f.mod128 = false)
    (h0 : c0.getLsbD 0 = false) :
    classify f = classify8 (crPair (d :: t :: as)) .iFrame c0 (some ((c0.extractLsb' 1 3).setWidth 7)) := by
  simp only [classify, ha, hr, hm, h0, Bool.false_and, Bool.false_eq_true, if_false, if_true]

theorem classify_of_s8 {c0 : Byte} {more : List Byte} (hr : f.rest = c0 :: more) (hm : f.mod128 = false)
    (h0 : c0.getLsbD 0 = true) (h1 : c0.getLsbD 1 = false) :
    classify f = classify8 (crPair (d :: t :: as)) (FrameType.ofSs (c0.extractLsb' 2 2)) c0 none := by
  simp only [classify, ha, hr, hm, h0, h1, Bool.and_false, Bool.false_eq_true, Bool.true_eq_false, if_false]

theorem classify_of_i128 {c0 c1 : Byte} {more : List Byte} (hr : f.rest = c0 :: c1 :: more) (hm : f.mod128 = true)
    (h0 : c0.getLsbD 0 = false) :
    classify f = classify128 (crPair (d :: t :: as)) .iFrame c1 (some (c0.extractLsb' 1 7)) := by
  simp only [classify, ha, hr, hm, h0, Bool.false_and, Bool.false_eq_true, if_false, if_true]

theorem classify_of_s128 {c0 c1 : Byte} {more : List Byte} (hr : f.rest = c0 :: c1 :: more) (hm : f.mod128 = true)
    (h0 : c0.getLsbD 0 = true) (h1 : c0.getLsbD 1 = false) :
    classify f = classify128 (crPair (d :: t :: as)) (FrameType.ofSs (c0.extractLsb' 2 2)) c1 none := by
  simp only [classify, ha, hr, hm, h0, h1, Bool.and_false, Bool.false_eq_true, Bool.true_eq_false, if_false, if_true]

/-- An I or S field of modulo 128 that ends after its first byte. -/
theorem classify_of_cut128 {c0 : Byte} (hr : f.rest = [c0]) (hm : f.mod128 = true)
    (h : c0.getLsbD 0 = false ∨ c0.getLsbD 1 = false) : classify f = notAx25Class (crPair (d :: t :: as)) := by
  have hnotU : (c0.getLsbD 0 && c0.getLsbD 1) = false := Bool.and_eq_false_iff.mpr h
  simp only [classify, ha, hr, hm, hnotU, Bool.false_eq_true, if_false, if_true, ite_self]

end

end Sys2Proof.Machine
end

section
/-! SUPPORT. The words of the statements about frames beside the model's functions: frame-type codes, C bits, control fields, and
the DIAG bits of a builder (30_encoding.md R90 to R95, 41_frame.md R148, R150, 60_exceptions.md R283). -/

namespace Sys2Proof.Claim

open Sys2Proof.Machine

/-! ### Frame types by code -/

theorem uTypeOf_of_value {c0 : Byte} {k : Nat} (hk : k < 9) (h : c0 &&& 0xEF = uValues.getD k 0) :
    uTypeOf c0 = FrameType.ofCode (BitVec.ofNat 4 k) := by
  have htable : ∀ k, k < 9 → (FrameType.uTypes.find? fun t => t.uctl == uValues.getD k 0).getD .uUnknown =
      FrameType.ofCode (BitVec.ofNat 4 k) := by decide
  rw [uTypeOf, h, htable k hk]

theorem uTypeOf_of_no_value {c0 : Byte} (h : c0 &&& 0xEF ∉ uValues) : uTypeOf c0 = .uUnknown := by
  rw [uTypeOf]
  generalize c0 &&& 0xEF = x at h
  revert x
  decide

/-- The S types follow S_RR, whose code is 9. -/
theorem ofSs_eq_ofCode (x : BitVec 2) : FrameType.ofSs x = FrameType.ofCode (9 + (0#2 ++ x)) := by
  revert x
  decide

/-- A three-bit sequence number in the seven bits of RES_CLASS. -/
theorem setWidth_eq_append (x : BitVec 3) : x.setWidth 7 = 0#4 ++ x := by
  revert x
  decide

/-- The U types by code (R90, R93): control value, PID, information and the C bits of R151. -/
theorem ofCode_u {sel : BitVec 4} (h : sel.toNat ≤ 8) :
    FrameType.ofCode sel ∈ FrameType.uTypes ∧ (FrameType.ofCode sel).uctl = uValues.getD sel.toNat 0 ∧
      (FrameType.ofCode sel).hasPid = decide (sel = 6) ∧
      (FrameType.ofCode sel).mayCarryInfo = decide (sel.toNat ∈ [5, 6, 7, 8]) ∧
      ∀ cr, crIllegal (FrameType.ofCode sel) cr =
        decide ((sel.toNat ∈ [0, 1, 2] ∧ cr = false) ∨ (sel.toNat ∈ [3, 4, 5] ∧ cr = true)) := by
  revert sel
  decide

/-- The S types by code (R90, R94): SS code, information and the C bits of R152. -/
theorem ofCode_s {sel : BitVec 4} (h9 : 9 ≤ sel.toNat) (h12 : sel.toNat ≤ 12) :
    FrameType.ofCode sel ∈ [FrameType.sRr, .sRnr, .sRej, .sSrej] ∧ (FrameType.ofCode sel).ss.toNat = sel.toNat - 9 ∧
      (FrameType.ofCode sel).mayCarryInfo = decide (sel = 12) ∧
      ∀ cr, crIllegal (FrameType.ofCode sel) cr = decide (sel = 12 ∧ cr = true) := by
  revert sel
  decide

/-! ### What a builder writes (R150) -/

theorem setBit_seven (b : Byte) (v : Bool) : setBit b 7 v = withTop b v := by
  revert b v
  decide

/-- Step 2 and step 7: the C bits go to the first two images. -/
theorem builtFrame_eq {l : List AddrImage} (h : 2 ≤ l.length) (cr m : Bool) (rest : List Byte) :
    builtFrame l cr m rest = frameOf m (cBits cr l) rest := by
  match l, h with
  | d :: t :: as, _ =>
    have hrest : as.mapIdx (fun _ a => a) = as := by simp [List.mapIdx_eq_zipIdx_map]
    simp [builtFrame, frameOf, setCBits, cBits, AddrImage.withBit7, setBit_seven, List.mapIdx_cons, hrest]

theorem substPid_eq (pid : Byte) : substPid pid = pidUsed pid := by
  simp [substPid, pidUsed, pidBad, Config.pidNoL3]

theorem pidBad_eq (pid : Byte) : pidBad pid = decide (pid = 0x00 ∨ pid = 0xFF) := by
  revert pid
  decide

theorem maskSeq_toNat_eq (m : Bool) (n : BitVec 7) : (maskSeq m n).toNat = seqUsed m n := maskSeq_toNat m n

theorem maskSeq_eq_ofNat (m : Bool) (n : BitVec 7) : maskSeq m n = BitVec.ofNat 7 (seqUsed m n) := by
  rw [← maskSeq_toNat_eq, BitVec.ofNat_toNat, BitVec.setWidth_eq]

theorem uControl_eq (ft : FrameType) (pf : Bool) : uControl ft pf = ft.uctl ||| (if pf then 0x10 else 0x00) := by
  cases pf <;> rfl

/-- The modulo-8 control bytes of an S and an I field as numbers (R94). -/
theorem sControl8_eq (ft : FrameType) (pf : Bool) (x : BitVec 3) :
    sControl ft pf (x.setWidth 7) false = [sByte (x.setWidth 7).toNat pf ft.ss.toNat] := by
  unfold sControl sByte
  generalize ft.ss = ss
  revert ss pf x
  decide

theorem iControl8_eq (pf : Bool) (x y : BitVec 3) :
    iControl pf (x.setWidth 7) (y.setWidth 7) false = [iByte (x.setWidth 7).toNat pf (y.setWidth 7).toNat] := by
  revert pf x y
  decide

/-- The modulo-128 control bytes as numbers (R95): an S field's first, an I field's first, and the second of both. -/
theorem ss_byte_eq (ss : BitVec 2) : ss.setWidth 8 <<< 2 ||| 0b01#8 = BitVec.ofNat 8 (4 * ss.toNat + 1) := by
  revert ss
  decide

theorem seq_byte_eq (n : BitVec 7) : n.setWidth 8 <<< 1 = BitVec.ofNat 8 (2 * n.toNat) := by
  revert n
  decide

theorem seq_pf_byte_eq (n : BitVec 7) (pf : Bool) :
    n.setWidth 8 <<< 1 ||| bitByte pf = BitVec.ofNat 8 (2 * n.toNat + num pf) := by
  revert n pf
  decide

/-- The S control field as numbers, in either modulo. -/
theorem sControl_maskSeq (ft : FrameType) (pf : Bool) (nr : BitVec 7) (m : Bool) :
    sControl ft pf (maskSeq m nr) m =
      if m then [BitVec.ofNat 8 (4 * ft.ss.toNat + 1), BitVec.ofNat 8 (2 * seqUsed m nr + num pf)]
      else [sByte (seqUsed m nr) pf ft.ss.toNat] := by
  rw [← maskSeq_toNat_eq]
  cases m
  · obtain ⟨x, hx⟩ := maskSeq_narrow_exists nr
    rw [hx]
    exact sControl8_eq ft pf x
  · rw [← ss_byte_eq, ← seq_pf_byte_eq]
    rfl

/-- The I control field as numbers, in either modulo. -/
theorem iControl_maskSeq (pf : Bool) (nr ns : BitVec 7) (m : Bool) :
    iControl pf (maskSeq m nr) (maskSeq m ns) m =
      if m then [BitVec.ofNat 8 (2 * seqUsed m ns), BitVec.ofNat 8 (2 * seqUsed m nr + num pf)]
      else [iByte (seqUsed m nr) pf (seqUsed m ns)] := by
  rw [← maskSeq_toNat_eq, ← maskSeq_toNat_eq]
  cases m
  · obtain ⟨x, hx⟩ := maskSeq_narrow_exists nr
    obtain ⟨y, hy⟩ := maskSeq_narrow_exists ns
    rw [hx, hy]
    exact iControl8_eq pf x y
  · rw [← seq_byte_eq, ← seq_pf_byte_eq]
    rfl

/-- Steps 4 and 5: information only where the type may carry it, and at most MAX_INFO_LEN bytes. -/
theorem builtInfo_eq {p : Params} {ft : FrameType} {c : Prop} [Decidable c] (h : ft.mayCarryInfo = decide c)
    (info : List Byte) : builtInfo p ft info = if c then info.take p.maxInfoLen else [] := by
  by_cases hc : c
  · rw [if_pos hc, builtInfo_take (by simp [h, hc])]
  · simp [builtInfo, h, hc]

/-! ### The DIAG bits (R283) -/

theorem diagIf_eq_bitWhen (c : Prop) [Decidable c] {b : DiagBit} {n : Nat} (hn : b.mask = BitVec.ofNat 6 (2 ^ n)) :
    diagIf (decide c) b = bitWhen c n := by
  simp [diagIf, bitWhen, hn]

/-- Steps 4 and 5: INFO_DISCARDED or INFO_TRUNCATED. -/
theorem infoDiag_eq {p : Params} {ft : FrameType} {c : Prop} [Decidable c] (h : ft.mayCarryInfo = decide c)
    (info : List Byte) :
    infoDiag p ft info = bitWhen (¬ c ∧ info ≠ []) 1 ||| bitWhen (c ∧ p.maxInfoLen < info.length) 2 := by
  unfold infoDiag infoOver
  by_cases hc : c
  · simp [h, hc, diagIf, bitWhen, DiagBit.mask]
  · simp [h, hc, diagIf, bitWhen, DiagBit.mask]

/-! ### Built frames with their DIAG bits (R151 to R153) -/

section
variable (p : Params) (cr pf m : Bool) {l : List AddrImage} (hl : 2 ≤ l.length) (info : List Byte)
include hl

theorem buildU_eq {sel : BitVec 4} (h : sel.toNat ≤ 8) (pid : Byte) :
    buildU p (FrameType.ofCode sel) cr pf pid m l info =
      ⟨frameOf m (cBits cr l)
        ([uValues.getD sel.toNat 0 ||| (if pf then 0x10 else 0x00)] ++ (if sel = 6 then [pidUsed pid] else [])
          ++ (if sel.toNat ∈ [5, 6, 7, 8] then info.take p.maxInfoLen else [])),
        bitWhen (sel = 6 ∧ (pid = 0x00 ∨ pid = 0xFF)) 0
          ||| bitWhen (sel.toNat ∉ [5, 6, 7, 8] ∧ info ≠ []) 1
          ||| bitWhen (sel.toNat ∈ [5, 6, 7, 8] ∧ p.maxInfoLen < info.length) 2
          ||| bitWhen ((sel.toNat ∈ [0, 1, 2] ∧ cr = false) ∨ (sel.toNat ∈ [3, 4, 5] ∧ cr = true)) 3⟩ := by
  obtain ⟨-, hvalue, hpid, hcarry, hcr⟩ := ofCode_u h
  rw [buildU, builtFrame_eq hl, uControl_eq, hvalue, hpid, substPid_eq, builtInfo_eq hcarry, infoDiag_eq hcarry, hcr, pidBad_eq,
    ← Bool.decide_and, diagIf_eq_bitWhen _ (b := .crIllegal) (n := 3) rfl,
    diagIf_eq_bitWhen _ (b := .pidSubst) (n := 0) rfl]
  simp only [decide_eq_true_eq]
  congr 1
  ac_rfl

theorem buildS_eq {sel : BitVec 4} (h9 : 9 ≤ sel.toNat) (h12 : sel.toNat ≤ 12) (nr : BitVec 7) :
    buildS p (FrameType.ofCode sel) cr pf nr m l info =
      ⟨frameOf m (cBits cr l)
        ((if m then [BitVec.ofNat 8 (4 * (sel.toNat - 9) + 1), BitVec.ofNat 8 (2 * seqUsed m nr + num pf)]
            else [sByte (seqUsed m nr) pf (sel.toNat - 9)])
          ++ (if sel = 12 then info.take p.maxInfoLen else [])),
        bitWhen (sel ≠ 12 ∧ info ≠ []) 1
          ||| bitWhen (sel = 12 ∧ p.maxInfoLen < info.length) 2
          ||| bitWhen (sel = 12 ∧ cr = true) 3
          ||| bitWhen (m = false ∧ 8 ≤ nr.toNat) 4⟩ := by
  obtain ⟨-, hss, hcarry, hcr⟩ := ofCode_s h9 h12
  rw [buildS, builtFrame_eq hl, sControl_maskSeq, hss, builtInfo_eq hcarry, infoDiag_eq hcarry, hcr, seqBad_iff,
    diagIf_eq_bitWhen _ (b := .seqMasked) (n := 4) rfl, diagIf_eq_bitWhen _ (b := .crIllegal) (n := 3) rfl]
  simp only [ne_eq]
  congr 1
  ac_rfl

theorem buildI_eq (nr ns : BitVec 7) (pid : Byte) :
    buildI p cr pf nr ns pid m l info =
      ⟨frameOf m (cBits cr l)
        ((if m then [BitVec.ofNat 8 (2 * seqUsed m ns), BitVec.ofNat 8 (2 * seqUsed m nr + num pf)]
            else [iByte (seqUsed m nr) pf (seqUsed m ns)])
          ++ [pidUsed pid] ++ info.take p.maxInfoLen),
        bitWhen (pid = 0x00 ∨ pid = 0xFF) 0
          ||| bitWhen (p.maxInfoLen < info.length) 2
          ||| bitWhen (m = false ∧ (8 ≤ nr.toNat ∨ 8 ≤ ns.toNat)) 4⟩ := by
  have hcarry : FrameType.iFrame.mayCarryInfo = true := rfl
  have hinfo : infoDiag p .iFrame info = bitWhen (p.maxInfoLen < info.length) 2 :=
    diagIf_eq_bitWhen _ rfl
  have hseq : (seqBad m nr || seqBad m ns) = decide (m = false ∧ (8 ≤ nr.toNat ∨ 8 ≤ ns.toNat)) := by
    rw [seqBad_iff, seqBad_iff, ← Bool.decide_or]
    exact decide_eq_decide.mpr and_or_left.symm
  rw [buildI, builtFrame_eq hl, iControl_maskSeq, substPid_eq, builtInfo_take hcarry, hinfo, hseq, pidBad_eq,
    diagIf_eq_bitWhen _ (b := .seqMasked) (n := 4) rfl, diagIf_eq_bitWhen _ (b := .pidSubst) (n := 0) rfl]
  congr 1
  ac_rfl

end

end Sys2Proof.Claim
end

section
/-! The statements about housekeeping and frames (41_frame.md), each assembled from the lemmas above. -/

namespace Sys2Proof.Proofs

open Sys2Proof.Machine Sys2Proof.Claim

/-- Settles O21: each command is one record update. -/
theorem nopAndDiagClear : Obligations.NopAndDiagClear :=
  fun _ => ⟨rfl, rfl⟩

/-- Settles O22: the written bytes read back (`Memory.writeBytes_spec`), and the next command reads them (`inBytes_of_xfer`). -/
theorem xferCopiesTheOutput : Obligations.XferCopiesTheOutput := by
  intro s hw hcap hmax
  refine ⟨_, rfl, rfl, fun i => ?_, inBytes_of_xfer rfl hw hcap (by omega)⟩
  refine ((Memory.writeBytes_spec s.params.bufCap s.bufOut s.bufIn 0 hw).2.2 i).trans ?_
  have hrange : (0 ≤ i ∧ i < 0 + s.bufOut.length ∧ i < s.params.bufCap) ↔ i < s.bufOut.length := by omega
  simp only [hrange, Nat.sub_zero]

/-- Settles O30, by the two directions `findAddrBlock_spec` and `findAddrBlock_of_marker`. -/
theorem addressBlockIsFoundByItsMarker : Obligations.AddressBlockIsFoundByItsMarker := by
  refine fun s => ⟨fun k hk => ⟨fun h => ?_, fun ⟨h2, h10, hfits, hmarker, hfirst⟩ => ?_⟩, findAddrBlock_of_no_marker⟩
  · obtain ⟨h2, h10, hfits, hbit⟩ := findAddrBlock_spec h (by omega)
    refine ⟨h2, h10, hfits, ?_, fun j hj => ?_⟩
    · rw [hbit _ (by omega), decide_eq_true (by omega)]
    · rw [hbit _ (by omega), decide_eq_false (by omega)]
  · exact findAddrBlock_of_marker h2 h10 hfits hmarker hfirst

/-- Settles O31: the two length checks, and what the loaded frame holds (`loadFrame_bytes`). -/
theorem frameLoadOutcomes : Obligations.FrameLoadOutcomes := by
  have hload : ∀ (s : State), loadable s.params s.inBytes.length = true ↔
      s.params.minPacketLen ≤ s.bufInLen.toNat ∧ s.bufInLen.toNat ≤ s.params.maxPacketLen := by
    simp [loadable]
  intro s m128
  dsimp only [exec]
  refine ⟨fun h => ?_, fun hf hmin hmax =>
    ⟨loadFrame s.inBytes m128, ?_, rfl, rfl, loadFrame_naddr _ _, loadFrame_bytes _ _⟩⟩
  · rcases Nat.lt_or_ge s.params.bufCap s.bufInLen.toNat with hover | hf
    · exact withInput_over hover _
    · refine (withInput_fits hf _).trans (if_neg fun hl => ?_)
      obtain ⟨hmin, hmax⟩ := (hload s).mp hl
      rcases h with h | h | h
      · exact h hf
      · omega
      · omega
  · exact (withInput_fits hf _).trans (if_pos ((hload s).mpr ⟨hmin, hmax⟩))

/-- Settles O32: the packed bytes are `Pack`'s (`packed_eq`), as many as FRAME_LEN (`pack_length`). -/
theorem framePackOutcomes : Obligations.FramePackOutcomes := by
  intro s
  refine ⟨fun hv => if_neg (by simp [hv]), fun hv => ?_⟩
  rw [packed_eq, pack_length]
  exact ⟨exec_framePack_of_valid hv, rfl⟩

/-- Settles O33: a loaded frame packs to the string it was loaded from (`pack_loadFrame`). -/
theorem loadThenPackIsIdentity : Obligations.LoadThenPackIsIdentity := by
  intro s t m128 ht hok
  obtain ⟨_, ⟨-, rfl⟩, rfl⟩ := (execFrameLoad_ends m128 s).good_of_ok ht hok
  exact ⟨_, exec_framePack_of_valid rfl, rfl, pack_loadFrame s.inBytes m128⟩

/-- Settles O34, by the cases of R148 (`classify_of_u` and its kind). -/
theorem frameClassifyOutcomes : Obligations.FrameClassifyOutcomes := by
  intro s gives notAx25
  have hgives : s.frame.valid = true → ∀ {c : FrameClass} {r : ResClass}, classify s.frame = c → c.regs = r → gives r := by
    rintro hv _ _ rfl rfl
    exact exec_frameClassify_of_valid hv
  refine ⟨fun hv => if_neg (by simp [hv]), fun hv ha => ?_, fun d t as hv ha => ⟨fun hr => ?_, fun c0 more hr h0 h1 => ?_,
    fun c0 more hr hm h0 => ?_, fun c0 more hr hm h0 h1 => ?_, fun c0 c1 more hr hm h0 => ?_,
    fun c0 c1 more hr hm h0 h1 => ?_, fun c0 hr hm h => ?_⟩⟩
  · exact hgives hv (classify_of_no_addrs ha) rfl
  · exact hgives hv (classify_of_no_control ha hr) rfl
  · refine ⟨fun k hk hc => ?_, fun hc => ?_⟩ <;> refine hgives hv (classify_of_u ha hr h0 h1) ?_
    · rw [classifyU_regs, uTypeOf_of_value hk hc]
      rfl
    · rw [classifyU_regs, uTypeOf_of_no_value hc]
      rfl
  · refine hgives hv (classify_of_i8 ha hr hm h0) ?_
    rw [← setWidth_eq_append, ← setWidth_eq_append]
    rfl
  · refine hgives hv (classify_of_s8 ha hr hm h0 h1) ?_
    rw [← setWidth_eq_append, ← ofSs_eq_ofCode]
    rfl
  · exact hgives hv (classify_of_i128 ha hr hm h0) rfl
  · refine hgives hv (classify_of_s128 ha hr hm h0 h1) ?_
    rw [← ofSs_eq_ofCode]
    rfl
  · exact hgives hv (classify_of_cut128 ha hr hm h) rfl

/-- Settles O35: the checks in their order, and what `buildU` makes in numbers (`buildU_eq`). -/
theorem buildUOutcomes : Obligations.BuildUOutcomes := by
  intro s sel cr pf pid m128
  dsimp only [exec]
  refine ⟨fun h => withInput_over (Nat.lt_of_not_le h) _, fun hf h8 => ?_, fun hf h8 hk => ?_, fun hf h8 hk => ?_⟩ <;>
    refine (withInput_fits hf _).trans ?_
  · exact if_pos h8
  · exact (if_neg (Nat.not_lt.mpr h8)).trans (buildFrom_no_block hk _)
  · refine (if_neg (Nat.not_lt.mpr h8)).trans ((buildFrom_block hk (buildU_eq _ _ _ _ (two_le_block hk) _ h8 _)).trans ?_)
    simp only [BitVec.or_assoc]

/-- Settles O36: the checks in their order, and what `buildS` makes in numbers (`buildS_eq`). -/
theorem buildSOutcomes : Obligations.BuildSOutcomes := by
  intro s sel cr pf nr m128
  dsimp only [exec]
  refine ⟨fun h => withInput_over (Nat.lt_of_not_le h) _, fun hf h => ?_, fun hf h9 h12 hk => ?_, fun hf h9 h12 hk => ?_⟩ <;>
    refine (withInput_fits hf _).trans ?_
  · exact if_pos h
  · exact (if_neg (by omega)).trans (buildFrom_no_block hk _)
  · refine (if_neg (by omega)).trans ((buildFrom_block hk (buildS_eq _ _ _ _ (two_le_block hk) _ h9 h12 _)).trans ?_)
    simp only [BitVec.or_assoc]

/-- Settles O37: the checks in their order, and what `buildI` makes in numbers (`buildI_eq`). -/
theorem buildIOutcomes : Obligations.BuildIOutcomes := by
  intro s cr pf nr ns pid m128
  dsimp only [exec]
  refine ⟨fun h => withInput_over (Nat.lt_of_not_le h) _, fun hf hk => ?_, fun hf hk => ?_⟩ <;>
    refine (withInput_fits hf _).trans ?_
  · exact buildFrom_no_block hk _
  · refine (buildFrom_block hk (buildI_eq _ _ _ _ (two_le_block hk) _ _ _ _)).trans ?_
    simp only [BitVec.or_assoc]

/-- Settles O38: every frame a builder makes classifies as its type (`classify_buildU`, `classify_buildS`, `classify_buildI`). -/
theorem builtFrameClassifiesBack : Obligations.BuiltFrameClassifiesBack := by
  intro s t cr pf m128
  refine ⟨fun sel pid ht hok => ?_, fun sel nr ht hok => ?_, fun nr ns pid ht hok => ?_⟩
  · obtain ⟨u, ⟨h8, hu⟩, rfl⟩ := (execBuildU_ends sel cr pf pid m128 s).good_of_ok ht hok
    exact exec_frameClassify_of_builds hu fun l info hl => ⟨rfl, classify_buildU _ (ofCode_u h8).1 _ _ _ _ hl info⟩
  · obtain ⟨u, ⟨h9, h12, hu⟩, rfl⟩ := (execBuildS_ends sel cr pf nr m128 s).good_of_ok ht hok
    rw [← maskSeq_eq_ofNat]
    exact exec_frameClassify_of_builds hu fun l info hl => ⟨rfl, classify_buildS _ (ofCode_s h9 h12).1 _ _ _ _ hl info⟩
  · obtain ⟨u, hu, rfl⟩ := (execBuildI_ends cr pf nr ns pid m128 s).good_of_ok ht hok
    rw [← maskSeq_eq_ofNat, ← maskSeq_eq_ofNat]
    exact exec_frameClassify_of_builds hu fun l info hl => ⟨rfl, classify_buildI _ _ _ _ _ _ _ hl info⟩

end Sys2Proof.Proofs
end

section
/-! SUPPORT. The residue of the frame check sequence (42_fcs.md R186): after any string, exactly its two FCS bytes bring the register to
0xF0B8. And FCS_CHECK past its length checks (R184). -/

namespace Sys2Proof.Machine

/-! ### The residue -/

/-- A register with the complement of its own low byte put in keeps only its high byte, over a low byte of ones. -/
theorem xor_complement_low (c : BitVec 16) :
    c ^^^ ((c ^^^ 0xFFFF).setWidth 8).setWidth 16 = (c.extractLsb' 8 8).setWidth 16 <<< 8 ^^^ 0x00FF := by
  refine BitVec.eq_of_getLsbD_eq fun i hi => ?_
  interval_cases i <;> simp

/-- A high byte and its complement, moved down to the low byte, are a byte of ones. -/
theorem high_xor_complement_high (c : BitVec 16) :
    (c.extractLsb' 8 8).setWidth 16 ^^^ (((c ^^^ 0xFFFF) >>> 8).setWidth 8).setWidth 16 = 0x00FF := by
  refine BitVec.eq_of_getLsbD_eq fun i hi => ?_
  interval_cases i <;> simp

/-- A register that takes its own FCS bytes forgets what it held: both of its bytes cancel. -/
theorem foldl_crcByte_fcsBytes (c : BitVec 16) : (fcsBytes (c ^^^ 0xFFFF)).foldl crcByte c = 0xF0B8 := by
  have hlow : crcByte c ((c ^^^ 0xFFFF).setWidth 8) =
      (c.extractLsb' 8 8).setWidth 16 ^^^ Nat.repeat crcShift 8 0x00FF := by
    rw [crcByte, xor_complement_low, crcRepeat_xor, crcRepeat_high]
  have hhigh : crcByte (crcByte c ((c ^^^ 0xFFFF).setWidth 8)) (((c ^^^ 0xFFFF) >>> 8).setWidth 8) =
      Nat.repeat crcShift 8 (0x00FF ^^^ Nat.repeat crcShift 8 0x00FF) := by
    rw [hlow, crcByte, BitVec.xor_assoc, BitVec.xor_comm (Nat.repeat _ _ _), ← BitVec.xor_assoc, high_xor_complement_high]
  have hones : Nat.repeat crcShift 8 0x00FF = 0x0F78 := by decide
  rw [fcsBytes_eq]
  exact hhigh.trans (by rw [hones]; decide)

/-- The register that two bytes lead to tells both of them: only the first can change its high byte (`crcRepeat_low`). -/
theorem crcByte_pair_injective {c : BitVec 16} {l h l' h' : Byte} (e : crcByte (crcByte c l) h = crcByte (crcByte c l') h') :
    l = l' ∧ h = h' := by
  have hmix : Nat.repeat crcShift 8 (l.setWidth 16) ^^^ h.setWidth 16 =
      Nat.repeat crcShift 8 (l'.setWidth 16) ^^^ h'.setWidth 16 := by
    have := crcRepeat_injective 8 e
    rwa [crcByte, crcByte, crcRepeat_xor, crcRepeat_xor, BitVec.xor_assoc, BitVec.xor_assoc, BitVec.xor_right_inj] at this
  have hl : l = l' := by
    have hsum : Nat.repeat crcShift 8 ((l ^^^ l').setWidth 16) = (h ^^^ h').setWidth 16 := by
      rw [← BitVec.xor_eq_zero_iff] at hmix ⊢
      rw [BitVec.setWidth_xor, crcRepeat_xor, BitVec.setWidth_xor, ← hmix]
      ac_rfl
    refine BitVec.xor_eq_zero_iff.mp (crcRepeat_low ?_)
    rw [hsum]
    refine BitVec.eq_of_getLsbD_eq fun i hi => ?_
    simp
  subst hl
  simpa using congrArg (BitVec.setWidth 8) ((BitVec.xor_right_inj _).mp hmix)

/-- The register of a string is the residue exactly where the string ends with the FCS bytes of what comes before them. -/
theorem fcsReg_eq_residue_iff {b : List Byte} {lo hi : Byte} :
    fcsReg (b ++ [lo, hi]) = 0xF0B8 ↔ [lo, hi] = fcsBytes (fcs b) := by
  have hres := foldl_crcByte_fcsBytes (fcsReg b)
  refine ⟨fun h => ?_, fun h => ?_⟩
  · rw [← hres, fcsReg_append] at h
    obtain ⟨rfl, rfl⟩ := crcByte_pair_injective h
    rfl
  · rw [h, fcsReg_append]
    exact hres

/-! ### FCS_CHECK (R184) -/

theorem exec_fcsCheck_of_short {s : State} (h : s.params.bufCap < s.bufInLen.toNat ∨ s.bufInLen.toNat < 2) :
    exec .fcsCheck s = .next (s.setCode .badLen) := by
  dsimp only [exec]
  rcases Nat.lt_or_ge s.params.bufCap s.bufInLen.toNat with hover | hf
  · exact withInput_over hover _
  · exact (withInput_fits hf _).trans (if_pos (by rw [inBytes_length]; omega))

theorem exec_fcsCheck_of_pair {s : State} {b : List Byte} {lo hi : Byte} (hf : s.bufInLen.toNat ≤ s.params.bufCap)
    (hb : s.inBytes = b ++ [lo, hi]) :
    exec .fcsCheck s = if [lo, hi] = fcsBytes (fcs b) then ok { s with fcs := fcs b } else fail .fcsMismatch s := by
  dsimp only [exec]
  rw [execFcsCheck, withInput_fits hf, hb]
  simp

end Sys2Proof.Machine
end

section
/-! The statements about the frame check sequence (42_fcs.md), each assembled from the lemmas above. -/

namespace Sys2Proof.Proofs

open Sys2Proof.Machine Sys2Proof.Claim

/-- Settles O39: the length checks, and the FCS bytes low-order byte first (`fcsBytes_eq`). -/
theorem fcsCalcAndGenOutcomes : Obligations.FcsCalcAndGenOutcomes := by
  intro s
  dsimp only [exec]
  refine ⟨fun h => ⟨withInput_over (Nat.lt_of_not_le h) _, withInput_over (Nat.lt_of_not_le h) _⟩,
    fun hf => withInput_fits hf _, fun hf hcap => (withInput_fits hf _).trans (if_pos hcap), fun hf hcap => ?_⟩
  rw [← fcsBytes_eq]
  exact (withInput_fits hf _).trans (if_neg (Nat.not_lt.mpr hcap))

/-- Settles O40: too short a string (`exec_fcsCheck_of_short`), or a string and two bytes (`exec_fcsCheck_of_pair`). -/
theorem fcsCheckOutcomes : Obligations.FcsCheckOutcomes := by
  intro s
  refine ⟨fun h => exec_fcsCheck_of_short (h.imp_left Nat.lt_of_not_le), fun b lo hi hf hb => ?_⟩
  rw [exec_fcsCheck_of_pair hf hb, fcsBytes_eq]
  refine ⟨fun hlo hhi => if_pos (by rw [hlo, hhi]), fun h => if_neg ?_⟩
  rintro ⟨⟩
  exact h ⟨rfl, rfl⟩

/-- Settles O41: the packed bytes are `Pack`'s (`packed_eq`), and leave room for the FCS (`pack_length_le`). -/
theorem framePackFcsOutcomes : Obligations.FramePackFcsOutcomes := by
  intro s
  rw [packed_eq]
  refine ⟨fun hv => if_neg (by simp [hv]), fun hv => ?_, pack_length_le⟩
  rw [← fcsBytes_eq]
  exact if_pos hv

/-- Settles O42: the residue comes from `fcsReg_eq_residue_iff`, the rest from running the loop. -/
theorem fcsResidueAndCheckValue : Obligations.FcsResidueAndCheckValue := by
  have hres : ∀ s, fcsReg (s ++ [(fcs s).setWidth 8, (fcs s >>> 8).setWidth 8]) = 0xF0B8 :=
    fun s => fcsReg_eq_residue_iff.mpr (fcsBytes_eq _).symm
  refine ⟨rfl, fun s b => ?_, fun _ => rfl, fun s => ⟨hres s, ?_⟩, by simp [fcs, fcsReg, crcByte, crcShift, Nat.repeat]⟩
  · rw [fcsReg_append]
    rfl
  · rw [fcs, hres]
    rfl

/-- Settles O43: the check compares the last two bytes with the FCS of the rest, and so does the residue
(`fcsReg_eq_residue_iff`). -/
theorem fcsCheckPassesExactlyTheResidue : Obligations.FcsCheckPassesExactlyTheResidue := by
  intro s hf h2
  obtain ⟨b, lo, hi, hb⟩ : ∃ b lo hi, s.inBytes = b ++ [lo, hi] := by
    have hlast : (s.inBytes.drop (s.inBytes.length - 2)).length = 2 := by
      rw [List.length_drop, inBytes_length]
      omega
    obtain ⟨lo, hi, h⟩ := List.length_eq_two.mp hlast
    exact ⟨_, lo, hi, by rw [← h, List.take_append_drop]⟩
  rw [exec_fcsCheck_of_pair hf hb, hb, fcsReg_eq_residue_iff]
  split
  · next h => exact iff_of_true ⟨_, rfl, rfl⟩ h
  · next h => exact iff_of_false (by simp) h

end Sys2Proof.Proofs
end

section
/-! SUPPORT. HDR as bytes and bit planes (43_il2p_header.md R200 to R205), and what each header command ends with (R210 to
R214). -/

namespace Sys2Proof.Machine

/-! ### Bytes, bit planes and characters of HDR -/

/-- Bit w-1-k of `GetPlane` is bit p of byte f+k: the most significant bit stands first (R201). -/
theorem getPlane_getLsbD_msbFirst (h : Hdr) (p f : Nat) {w k : Nat} (hk : k < w) :
    (getPlane h p f w).getLsbD (w - 1 - k) = (hdrByte h (f + k)).getLsbD p := by
  have hbyte : f + w - 1 - (w - 1 - k) = f + k := by omega
  rw [getPlane_getLsbD, hbyte, decide_eq_true (by omega), Bool.true_and, hdrBit_eq]

/-- A header made of thirteen bytes holds these bytes. -/
theorem hdrOfBytes_toList {b : List Byte} (hb : b.length = 13) : (hdrOfBytes b).toList = b := by
  match b, hb with
  | [_, _, _, _, _, _, _, _, _, _, _, _, _], _ => rfl

theorem hdrBit_zeroHdr (j p : Nat) : hdrBit zeroHdr j p = false := by
  have hbyte : hdrByte zeroHdr j = 0 := by
    by_cases hj : j < 13
    · interval_cases j <;> rfl
    · simp [hdrByte, Vector.getD, hj]
  rw [hdrBit_eq, hbyte]
  exact BitVec.getLsbD_zero

/-- A payload byte count of at most 1023 fits the ten bits of COUNT (R202). -/
theorem ofNat_count_toNat {n : Nat} (h : n ≤ 1023) : (BitVec.ofNat 10 n).toNat = n :=
  Nat.mod_eq_of_lt (by omega)

/-- The six characters of a header at HDR[base..base+6) (R204). -/
def hdrChars (h : Hdr) (base : Nat) : List Byte :=
  (List.range 6).map fun j => unsix ((hdrByte h (base + j)).extractLsb' 0 6)

@[simp] theorem hdrChars_length (h : Hdr) (base : Nat) : (hdrChars h base).length = 6 := rfl

theorem hdrChars_getD (h : Hdr) (base : Nat) {j : Nat} (hj : j < 6) :
    (hdrChars h base).getD j 0 = unsix ((hdrByte h (base + j)).extractLsb' 0 6) := by
  simp [hdrChars, List.getD_eq_getElem?_getD, hj]

theorem hdrCall_eq_cons (h : Hdr) (base : Nat) :
    hdrCall h base = (hdrChars h base).getD 0 0 :: stripBlanks ((hdrChars h base).drop 1) :=
  hdrCall_eq (hdrChars_length h base) fun _ hj => (hdrChars_getD h base hj).symm

theorem unsix_eq_blank_iff (v : BitVec 6) : unsix v = blankChar ↔ v = 0 := by
  revert v
  decide

/-! ### Every way the header encodes answer -/

section
variable {f : Frame} {m : Bool}

theorem hdr1Enc_of_invalid (hv : f.valid = false) : hdr1Enc f m = .error .noFrame := if_pos hv

theorem hdr1Enc_of_refused (hv : f.valid = true) (hr : type1Refused f = true) : hdr1Enc f m = .error .notEncodable := by
  simp [hdr1Enc, hv, hr]

theorem hdr1Enc_of_long (hv : f.valid = true) (hr : type1Refused f = false) (hl : 1023 < (infoOf f).length) :
    hdr1Enc f m = .error .tooLong := by
  simp [hdr1Enc, hv, hr, hl]

theorem hdr1Enc_of_fits (hv : f.valid = true) (hr : type1Refused f = false) (hl : (infoOf f).length ≤ 1023) :
    hdr1Enc f m = .ok (type1Header f m, (infoOf f).length) := by
  simp [hdr1Enc, hv, hr, hl]

theorem hdr0Enc_of_invalid (hv : f.valid = false) : hdr0Enc f m = .error .noFrame := if_pos hv

theorem hdr0Enc_of_short (hv : f.valid = true) (hl : f.len < 14) : hdr0Enc f m = .error .badLen := by
  simp [hdr0Enc, hv, hl]

theorem hdr0Enc_of_long (hv : f.valid = true) (hl : 1023 < f.len) : hdr0Enc f m = .error .tooLong := by
  have h14 : ¬ f.len < 14 := by omega
  simp [hdr0Enc, hv, h14, hl]

theorem hdr0Enc_of_fits (hv : f.valid = true) (h14 : 14 ≤ f.len) (hl : f.len ≤ 1023) :
    hdr0Enc f m = .ok (putTrailer zeroHdr m false f.len) := by
  have hnot14 : ¬ f.len < 14 := by omega
  have hnot1023 : ¬ 1023 < f.len := by omega
  simp [hdr0Enc, hv, hnot14, hnot1023]

end

/-! ### The ends of the header commands -/

theorem exec_hdr1Enc_of_error {s : State} {m : Bool} {c : StatusCode} (h : hdr1Enc s.frame m = .error c) :
    exec (.hdr1Enc m) s = .next { s with code := c } := by
  simp only [exec, execHdr1Enc, h]
  rfl

theorem exec_hdr1Enc_of_ok {s : State} {m : Bool} {h : Hdr} {n : Nat} (e : hdr1Enc s.frame m = .ok (h, n)) :
    exec (.hdr1Enc m) s = .next { s with
      code := .ok, hdr := h, resInfoLen := BitVec.ofNat 11 n,
      resHdr := { hdrType := true, maxFec := m, count := BitVec.ofNat 10 n } } := by
  simp only [exec, execHdr1Enc, e]
  rfl

theorem exec_hdr0Enc_of_error {s : State} {m : Bool} {c : StatusCode} (h : hdr0Enc s.frame m = .error c) :
    exec (.hdr0Enc m) s = .next { s with code := c } := by
  simp only [exec, execHdr0Enc, h]
  rfl

theorem exec_hdr0Enc_of_ok {s : State} {m : Bool} {h : Hdr} (e : hdr0Enc s.frame m = .ok h) :
    exec (.hdr0Enc m) s = .next { s with
      code := .ok, hdr := h, resInfoLen := 0,
      resHdr := { hdrType := false, maxFec := m, count := BitVec.ofNat 10 s.frame.len } } := by
  simp only [exec, execHdr0Enc, e]
  rfl

/-- HDR_ATTR where RES_HDR already shows what it reads of HDR, and STATUS is OK (R212). -/
theorem exec_hdrAttr_self {s : State} (hok : s.code = .ok) (h : s.resHdr = hdrAttrs s.hdr) : exec .hdrAttr s = .next s := by
  dsimp only [exec, execHdrAttr, ok, State.setCode]
  rw [← h, ← hok]

theorem exec_hdr1Dec_of_notType1 {s : State} (h : hdr1Dec s.params s.hdr = .notType1) :
    exec .hdr1Dec s = .next { s with code := .hdrReject } := by
  simp only [exec, execHdr1Dec, h]
  rfl

theorem exec_hdr1Dec_of_badCall {s : State} (h : hdr1Dec s.params s.hdr = .badCall) :
    exec .hdr1Dec s = .next { s with code := .hdrReject, diag := s.diag ||| diagIf (decide (s.corrHdr = 0)) .hdrSuspicious } := by
  simp only [exec, execHdr1Dec, h]
  rfl

theorem exec_hdr1Dec_of_built {s : State} {r : Built} (h : hdr1Dec s.params s.hdr = .built r) :
    exec .hdr1Dec s = .next { s with code := .ok, frame := r.frame, diag := s.diag ||| r.diag } := by
  simp only [exec, execHdr1Dec, h]
  rfl

theorem exec_hdrClarify_of_short {s : State} (h : s.params.bufCap < s.bufInLen.toNat ∨ s.bufInLen.toNat < 15) :
    exec .hdrClarify s = .next (s.setCode .badLen) := by
  dsimp only [exec]
  rcases Nat.lt_or_ge s.params.bufCap s.bufInLen.toNat with hover | hf
  · exact withInput_over hover _
  · have hshort : s.inBytes.length < 15 := by rw [inBytes_length]; omega
    exact (withInput_fits hf _).trans (if_pos hshort)

section
variable {s : State} (hf : s.bufInLen.toNat ≤ s.params.bufCap) (h15 : 15 ≤ s.bufInLen.toNat)
include hf h15

theorem exec_hdrClarify_of_fail (hd : rsDecode 2 (s.inBytes.take 15) = none) :
    exec .hdrClarify s = .next { s with code := .fecFail, corrHdr := 0xFF } := by
  have hlong : ¬ s.inBytes.length < 15 := by rw [inBytes_length]; omega
  simp only [exec, execHdrClarify, withInput_fits hf, Config.il2pHdrLen, Config.il2pHdrParity, Nat.reduceAdd,
    hlong, if_false, hd]
  rfl

theorem exec_hdrClarify_of_decoded {c : List Byte} {n : Nat} (hd : rsDecode 2 (s.inBytes.take 15) = some (c, n)) :
    exec .hdrClarify s = .next { s with
      code := .ok, hdr := hdrOfBytes (descramble (c.take 13)), corrHdr := BitVec.ofNat 8 n,
      resHdr := hdrAttrs (hdrOfBytes (descramble (c.take 13))) } := by
  have hlong : ¬ s.inBytes.length < 15 := by rw [inBytes_length]; omega
  simp only [exec, execHdrClarify, withInput_fits hf, Config.il2pHdrLen, Config.il2pHdrParity, Nat.reduceAdd,
    hlong, if_false, hd]
  rfl

end

end Sys2Proof.Machine
end

section
/-! SUPPORT. Headers in the words of the statements: the calls HDR1_DEC reads and what it makes of a header class by class
(43_il2p_header.md R213), and the bits and subfields HDR1_ENC and HDR0_ENC write (R209 to R211). -/

namespace Sys2Proof.Claim

open Sys2Proof.Machine

/-! ### The calls of a header (R213) -/

theorem hdrCall_of_hdrCallIs {h : Hdr} {base : Nat} {call : List Byte} (hc : hdrCallIs h base call) :
    hdrCall h base = call := by
  obtain ⟨k, h1, h6, hblanks, hlast, rfl⟩ := hc
  have hget : ∀ j, j < 5 → ((hdrChars h base).drop 1).getD j 0 = unsix ((hdrByte h (base + (1 + j))).extractLsb' 0 6) := by
    intro j hj
    rw [List.getD_eq_getElem?_getD, List.getElem?_drop, ← List.getD_eq_getElem?_getD, hdrChars_getD _ _ (by omega)]
  have hlen : ((hdrChars h base).drop 1).length = 5 := rfl
  have htail : stripBlanks ((hdrChars h base).drop 1) = ((hdrChars h base).drop 1).take (k - 1) := by
    refine stripBlanks_eq_take (by omega) (fun j hj hj5 => ?_) (or_iff_not_imp_left.mpr fun hk => ?_)
    · rw [hget _ (by omega), unsix_eq_blank_iff]
      exact hblanks _ (by omega) (by omega)
    · have hindex : 1 + (k - 1 - 1) = k - 1 := by omega
      rw [hget _ (by omega), ne_eq, unsix_eq_blank_iff, hindex]
      exact hlast.resolve_left (by omega)
  have hcall : (List.range k).map (fun j => unsix ((hdrByte h (base + j)).extractLsb' 0 6)) = (hdrChars h base).take k := by
    rw [hdrChars, ← List.map_take, List.take_range, Nat.min_eq_left h6]
  rw [hdrCall_eq_cons, htail]
  refine Eq.trans ?_ hcall.symm
  obtain ⟨n, rfl⟩ := Nat.exists_eq_add_of_le' h1
  rfl

/-- No call begins with a blank. -/
theorem callOk_head_ne_blank {c : Byte} {s : List Byte} (h : callOk (c :: s)) : c ≠ blankChar := by
  rintro rfl
  exact absurd (h.2 blankChar (List.mem_cons_self ..)) (by decide)

/-- Where HDR1_DEC accepts a call, the character it always keeps is no blank, so the call is the characters without trailing
blanks (R213). -/
theorem hdrCall_of_callOk {h : Hdr} {base : Nat} (hc : callOk (hdrCall h base)) :
    hdrCall h base = stripBlanks (hdrChars h base) := by
  rw [hdrCall_eq_cons] at hc ⊢
  exact (stripBlanks_cons (callOk_head_ne_blank hc) _).symm

theorem callOk_hdrCall_iff (h : Hdr) (base : Nat) :
    callOk (hdrCall h base) ↔ stripBlanks (hdrChars h base) ≠ [] ∧ callOk (stripBlanks (hdrChars h base)) := by
  refine ⟨fun hc => ?_, fun ⟨hne, hc⟩ => ?_⟩
  · rw [← hdrCall_of_callOk hc]
    exact ⟨by simp [hdrCall_eq_cons], hc⟩
  · obtain ⟨c, s, hs⟩ := List.exists_cons_of_ne_nil hne
    have hpad := (stripBlanks_spec (hdrChars h base)).1
    rw [hs] at hc hpad
    have hhead : (hdrChars h base).getD 0 0 = c := by rw [← hpad]; rfl
    have hchars : hdrChars h base = c :: (hdrChars h base).drop 1 := by rw [← hpad]; rfl
    rw [hdrCall_eq_cons, hhead, ← stripBlanks_cons (callOk_head_ne_blank hc), ← hchars, hs]
    exact hc

/-- Without its trailing blanks an image's call has k characters as R122 counts them (log 12). -/
theorem callLength_addrDecodeCall (a : AddrImage) : callLength a.chars (addrDecodeCall a).length := by
  obtain ⟨hpad, hlast⟩ := stripBlanks_spec a.chars
  change addrDecodeCall a ++ List.replicate (6 - (addrDecodeCall a).length) blankChar = a.chars at hpad
  change addrDecodeCall a = [] ∨ (addrDecodeCall a).getLast? ≠ some blankChar at hlast
  refine ⟨stripBlanks_length_le a.chars, fun j hj h6 => ?_, or_iff_not_imp_left.mpr fun h0 hblank => ?_⟩
  · rw [← hpad, List.getD_eq_getElem?_getD, List.getElem?_append_right hj, List.getElem?_replicate, if_pos (by omega)]
    rfl
  · have hlt : (addrDecodeCall a).length - 1 < (addrDecodeCall a).length := by omega
    refine hlast.elim (fun hnil => h0 (congrArg List.length hnil)) fun hne => hne ?_
    rw [← hpad, List.getD_append _ _ _ _ hlt, List.getD_eq_getElem _ _ hlt] at hblank
    rw [List.getLast?_eq_getElem?, List.getElem?_eq_getElem hlt, hblank]
    rfl

/-- The calls of a frame are decodable exactly where each, as ADDR_DECODE reads it, is a nonempty valid call. -/
theorem callsDecodable_iff (f : Frame) :
    callsDecodable f ↔ ∀ a ∈ f.addrs, addrDecodeCall a ≠ [] ∧ callOk (addrDecodeCall a) := by
  refine forall₂_congr fun a _ => ⟨fun ⟨k, hk, h0, hok⟩ => ?_, fun ⟨hne, hok⟩ => ?_⟩
  · rw [← addrDecodeCall_of_callLength hk] at hok
    refine ⟨fun hnil => ?_, hok⟩
    have hk6 : k ≤ a.chars.length := hk.1
    have := congrArg List.length ((addrDecodeCall_of_callLength hk).symm.trans hnil)
    rw [List.length_take, List.length_nil] at this
    omega
  · have hk := callLength_addrDecodeCall a
    refine ⟨_, hk, by simpa using hne, ?_⟩
    rwa [← addrDecodeCall_of_callLength hk]

/-- The characters of a call encoded again are those it was read from (R123). -/
theorem addrEncode_addrDecodeCall_chars {a : AddrImage} (h : callOk (addrDecodeCall a)) (ssid : BitVec 4) (bit7 last : Bool) :
    (addrEncode (addrDecodeCall a) ssid bit7 last).chars = a.chars := by
  rw [addrEncode_chars ((validCall_iff _).mpr h)]
  exact (stripBlanks_spec a.chars).1

/-! ### HDR1_DEC (R213) -/

theorem callOk_hdrCall_iff_all (h : Hdr) (base : Nat) :
    callOk (hdrCall h base) ↔ (hdrCall h base).all isCallChar = true := by
  have hlen : (hdrCall h base).length ≤ Config.callMax := by
    have := stripBlanks_length_le ((hdrChars h base).drop 1)
    rw [List.length_drop, hdrChars_length] at this
    rw [hdrCall_eq_cons, List.length_cons]
    exact Nat.succ_le_succ this
  rw [← validCall_iff, validCall, decide_eq_true hlen, Bool.true_and]

theorem hdrImages_eq (h : Hdr) (dst src : List Byte) (c : Bool) :
    hdrImages h dst src c = [addrEncode dst ((hdrByte h 12).extractLsb' 4 4) c false,
      addrEncode src ((hdrByte h 12).extractLsb' 0 4) (!c) true] := by
  rw [hdrImages, ofBytes_addrOctets, ofBytes_addrOctets]

theorem setCBits_hdrImages (h : Hdr) (dst src : List Byte) (c : Bool) :
    setCBits c (hdrImages h dst src c) = hdrImages h dst src c := by
  rw [hdrImages_eq, setCBits_addrEncode]

theorem hdr1Dec_of_type0 (p : Params) {h : Hdr} (ht : hdrType h = false) : hdr1Dec p h = .notType1 := by
  simp [hdr1Dec, ht]

theorem hdr1Dec_of_badCall (p : Params) {h : Hdr} (ht : hdrType h = true)
    (hc : ¬ (callOk (hdrCall h 0) ∧ callOk (hdrCall h 6))) : hdr1Dec p h = .badCall := by
  rw [callOk_hdrCall_iff_all, callOk_hdrCall_iff_all, ← Bool.and_eq_true] at hc
  exact (if_pos ht).trans (if_neg hc)

section
variable (p : Params) {h : Hdr} (ht : hdrType h = true) (hd : callOk (hdrCall h 0)) (hs : callOk (hdrCall h 6))
include ht hd hs

theorem hdr1Dec_of_ui (hui : hdrUi h = true) : hdr1Dec p h =
    .built (buildU p .uUi ((hdrCtl7 h).getLsbD 2) ((hdrCtl7 h).getLsbD 6) (pidDec (hdrPid4 h)) false
      (hdrImages h (hdrCall h 0) (hdrCall h 6) ((hdrCtl7 h).getLsbD 2)) []) := by
  rw [callOk_hdrCall_iff_all] at hd hs
  simp only [hdr1Dec, ht, hd, hs, hui, Bool.and_self, if_true, hdrImages_eq]

theorem hdr1Dec_of_s (hui : hdrUi h = false) (h0 : hdrPid4 h = 0) : hdr1Dec p h =
    .built (buildS p (FrameType.ofSs ((hdrCtl7 h).extractLsb' 0 2)) ((hdrCtl7 h).getLsbD 2) ((hdrCtl7 h).getLsbD 6)
      (((hdrCtl7 h).extractLsb' 3 3).setWidth 7) false
      (hdrImages h (hdrCall h 0) (hdrCall h 6) ((hdrCtl7 h).getLsbD 2)) []) := by
  rw [callOk_hdrCall_iff_all] at hd hs
  simp only [hdr1Dec, ht, hd, hs, hui, h0, Bool.and_self, if_true, Bool.false_eq_true, if_false, hdrImages_eq]

theorem hdr1Dec_of_u (hui : hdrUi h = false) (h1 : hdrPid4 h = 1) : hdr1Dec p h =
    .built (buildU p (uTypeOfOp ((hdrCtl7 h).extractLsb' 3 3)) ((hdrCtl7 h).getLsbD 2) ((hdrCtl7 h).getLsbD 6) 0xF0 false
      (hdrImages h (hdrCall h 0) (hdrCall h 6) ((hdrCtl7 h).getLsbD 2)) []) := by
  have hne : (1 : BitVec 4) ≠ 0 := by decide
  rw [callOk_hdrCall_iff_all] at hd hs
  simp only [hdr1Dec, ht, hd, hs, hui, h1, hne, Bool.and_self, if_true, Bool.false_eq_true, if_false, hdrImages_eq]

theorem hdr1Dec_of_i (hui : hdrUi h = false) (h0 : hdrPid4 h ≠ 0) (h1 : hdrPid4 h ≠ 1) : hdr1Dec p h =
    .built (buildI p true ((hdrCtl7 h).getLsbD 6) (((hdrCtl7 h).extractLsb' 3 3).setWidth 7)
      (((hdrCtl7 h).extractLsb' 0 3).setWidth 7) (pidDec (hdrPid4 h)) false
      (hdrImages h (hdrCall h 0) (hdrCall h 6) true) []) := by
  rw [callOk_hdrCall_iff_all] at hd hs
  simp only [hdr1Dec, ht, hd, hs, hui, h0, h1, Bool.and_self, if_true, Bool.false_eq_true, if_false, hdrImages_eq]

end

/-! ### What the builders make of the images of a header (R150 to R153) -/

theorem diagIf_false (b : DiagBit) : diagIf false b = 0 := rfl

theorem diagIf_crIllegal (v : Bool) : diagIf v .crIllegal = bitWhen (v = true) 3 := rfl

section
variable (p : Params) (h : Hdr) (dst src : List Byte) (c pf : Bool)

theorem buildU_hdrImages (ft : FrameType) {pid : Byte} (hp : pidBad pid = false) :
    buildU p ft c pf pid false (hdrImages h dst src c) [] =
      ⟨frameOf false (hdrImages h dst src c) (uControl ft pf :: if ft.hasPid then [pid] else []),
        bitWhen (crIllegal ft c = true) 3⟩ := by
  simp [buildU, builtFrame, frameOf, setCBits_hdrImages, substPid, hp, diagIf_false, diagIf_crIllegal]

theorem buildS_hdrImages (ft : FrameType) (nr : BitVec 3) :
    buildS p ft c pf (nr.setWidth 7) false (hdrImages h dst src c) [] =
      ⟨frameOf false (hdrImages h dst src c) [sByte nr.toNat pf ft.ss.toNat], bitWhen (crIllegal ft c = true) 3⟩ := by
  have hctl := sControl8_eq ft pf nr
  rw [BitVec.toNat_setWidth_of_le (by decide)] at hctl
  simp [buildS, builtFrame, frameOf, setCBits_hdrImages, diagIf_false, diagIf_crIllegal, seqBad_narrow, hctl]

theorem buildI_hdrImages (nr ns : BitVec 3) {pid : Byte} (hp : pidBad pid = false) :
    buildI p c pf (nr.setWidth 7) (ns.setWidth 7) pid false (hdrImages h dst src c) [] =
      ⟨frameOf false (hdrImages h dst src c) [iByte nr.toNat pf ns.toNat, pid], 0⟩ := by
  have hctl := iControl8_eq pf nr ns
  rw [BitVec.toNat_setWidth_of_le (by decide), BitVec.toNat_setWidth_of_le (by decide)] at hctl
  simp [buildI, builtFrame, frameOf, setCBits_hdrImages, substPid, hp, diagIf_false, seqBad_narrow, hctl]

end

/-- The U types by IL2P opcode (R208): control value, PID and the C bits of 41_frame.md R151. -/
theorem uTypeOfOp_spec (op : BitVec 3) :
    (uTypeOfOp op).uctl = ([0x2F, 0x43, 0x0F, 0x63, 0x87, 0x03, 0xAF, 0xE3] : List Byte).getD op.toNat 0 ∧
      (uTypeOfOp op).hasPid = decide (op.toNat = 5) ∧
      ∀ cr, crIllegal (uTypeOfOp op) cr =
        ((decide (op.toNat < 2) && !cr) || (decide (2 ≤ op.toNat) && decide (op.toNat ≤ 4) && cr)) := by
  revert op
  decide

/-- The S types by SS code: the code, and the C bits of 41_frame.md R152. -/
theorem ofSs_spec (x : BitVec 2) :
    (FrameType.ofSs x).ss = x ∧ ∀ cr, crIllegal (FrameType.ofSs x) cr = (decide (x.toNat = 3) && cr) := by
  revert x
  decide

/-! ### The subfields HDR1_ENC writes (R209), class by class -/

/-- The class of a frame that takes a type-1 header is in one of the four rows of R209. -/
theorem type1Encodable_class {f : Frame} (h : type1Encodable f) :
    (classify f).ftype ∈ [FrameType.sRr, .sRnr, .sRej, .sSrej] ∨
      ((classify f).ftype ∈ FrameType.uTypes ∧ (classify f).ftype ≠ .uSabme ∧ (classify f).ftype ≠ .uUi) ∨
      (classify f).ftype = .uUi ∨ (classify f).ftype = .iFrame := by
  obtain ⟨-, -, -, hclass, -, -⟩ := h
  revert hclass
  cases (classify f).ftype <;> decide

/-- The sequence numbers of an S frame in modulo 8. -/
theorem classify_seq_of_s {f : Frame} (hm : f.mod128 = false) (h : (classify f).ftype ∈ [FrameType.sRr, .sRnr, .sRej, .sSrej]) :
    ∃ x : BitVec 3, (classify f).nr = some (x.setWidth 7) ∧ (classify f).ns = none := by
  obtain ⟨n, hnr, hns⟩ := (classify_shape f).1 h
  obtain ⟨x, hx⟩ := (classify_narrow hm).1
  rw [hnr, Option.getD_some] at hx
  exact ⟨x, hx ▸ hnr, hns⟩

/-- The sequence numbers of an I frame in modulo 8. -/
theorem classify_seq_of_i {f : Frame} (hm : f.mod128 = false) (h : (classify f).ftype = .iFrame) :
    ∃ x y : BitVec 3, (classify f).nr = some (x.setWidth 7) ∧ (classify f).ns = some (y.setWidth 7) := by
  obtain ⟨n, m, hnr, hns⟩ := (classify_shape f).2.1 h
  obtain ⟨⟨x, hx⟩, y, hy⟩ := classify_narrow hm
  rw [hnr, Option.getD_some] at hx
  rw [hns, Option.getD_some] at hy
  exact ⟨x, y, hx ▸ hnr, hy ▸ hns⟩

/-- A U frame has none. -/
theorem classify_seq_of_u {f : Frame} (h : (classify f).ftype ∈ FrameType.uTypes) :
    (classify f).nr = none ∧ (classify f).ns = none := by
  refine (classify_shape f).2.2 ?_
  revert h
  cases (classify f).ftype <;> decide

/-- The PID of a UI or I frame that takes a type-1 header, and its code (R206). -/
theorem pid_of_type1Encodable {f : Frame} (he : type1Encodable f) (h : (classify f).ftype ∈ [FrameType.uUi, .iFrame]) :
    ∃ p v, pidField f = some p ∧ pidEncoded p = some v ∧ ((pidOf f).bind pidEnc).getD 0 = v ∧ v ≠ 0 ∧ v ≠ 1 := by
  have hpid := pidOf_eq (type1Encodable_isAx25 he)
  obtain ⟨-, -, -, -, hcode, -⟩ := he
  obtain ⟨p, v, hp, hv⟩ := hcode h
  rw [← pidEnc_eq] at hv
  exact ⟨p, v, hp, by rw [← pidEnc_eq, hv], by rw [hpid, hp, Option.bind_some, hv, Option.getD_some], pidEnc_ne hv⟩

theorem pidField_of_no_pid {f : Frame} (he : type1Encodable f) (h : (classify f).ftype ∉ [FrameType.uUi, .iFrame]) :
    pidField f = none := by
  rw [← classify_hasPid_iff] at h
  rw [← pidOf_eq (type1Encodable_isAx25 he), pidOf, if_neg h]

section
variable {f : Frame} {d : AddrImage} {as : List AddrImage} (ha : f.addrs = d :: as)
include ha

theorem type1Fields_of_s (h : (classify f).ftype ∈ [FrameType.sRr, .sRnr, .sRej, .sSrej]) :
    type1Fields f = (false, (0 : BitVec 4), bit7w (classify f).pf <<< 6 ||| (classify f).nr.getD 0 <<< 3 ||| bit7w d.bit7 <<< 2
      ||| (classify f).ftype.ss.setWidth 7) := by
  unfold type1Fields
  simp only [ha]
  revert h
  cases (classify f).ftype <;> simp

theorem type1Fields_of_u (h : (classify f).ftype ∈ FrameType.uTypes) (hui : (classify f).ftype ≠ .uUi) :
    type1Fields f = (false, (1 : BitVec 4), bit7w (classify f).pf <<< 6 ||| (uOp (classify f).ftype).setWidth 7 <<< 3
      ||| bit7w d.bit7 <<< 2) := by
  unfold type1Fields
  simp only [ha]
  revert h hui
  cases (classify f).ftype <;> simp [FrameType.uTypes]

theorem type1Fields_of_ui (h : (classify f).ftype = .uUi) :
    type1Fields f = (true, ((pidOf f).bind pidEnc).getD 0, bit7w (classify f).pf <<< 6 ||| (5#3).setWidth 7 <<< 3
      ||| bit7w d.bit7 <<< 2) := by
  simp only [type1Fields, ha, h]
  rfl

end

theorem type1Fields_of_i {f : Frame} (h : (classify f).ftype = .iFrame) :
    type1Fields f = (false, ((pidOf f).bind pidEnc).getD 0, bit7w (classify f).pf <<< 6
      ||| (classify f).nr.getD 0 <<< 3 ||| (classify f).ns.getD 0) := by
  simp only [type1Fields, h]

/-! ### The subfields as numbers (R209) -/

theorem ctlS_toNat (pf cr : Bool) (nr : BitVec 3) (ss : BitVec 2) :
    (bit7w pf <<< 6 ||| nr.setWidth 7 <<< 3 ||| bit7w cr <<< 2 ||| ss.setWidth 7).toNat =
      64 * num pf + 8 * (nr.setWidth 7).toNat + 4 * num cr + ss.toNat := by
  revert pf cr nr ss
  decide

theorem ctlU_toNat (pf cr : Bool) (op : BitVec 3) :
    (bit7w pf <<< 6 ||| op.setWidth 7 <<< 3 ||| bit7w cr <<< 2).toNat = 64 * num pf + 8 * op.toNat + 4 * num cr := by
  revert pf cr op
  decide

theorem ctlI_toNat (pf : Bool) (nr ns : BitVec 3) :
    (bit7w pf <<< 6 ||| nr.setWidth 7 <<< 3 ||| ns.setWidth 7).toNat =
      64 * num pf + 8 * (nr.setWidth 7).toNat + (ns.setWidth 7).toNat := by
  revert pf nr ns
  decide

theorem ss_of_index {ft : FrameType} {op : Nat} (h : ft = [FrameType.sRr, .sRnr, .sRej, .sSrej].getD op .notAx25) (hop : op < 4) :
    ft ∈ [FrameType.sRr, .sRnr, .sRej, .sSrej] ∧ ft.ss.toNat = op := by
  subst h
  revert op
  decide

theorem uOp_of_index {ft : FrameType} {op : Nat}
    (h : ft = [FrameType.uSabm, .uDisc, .uDm, .uUa, .uFrmr, .uUi, .uXid, .uTest].getD op .notAx25) (hop : op < 8)
    (h5 : op ≠ 5) :
    ft ∈ FrameType.uTypes ∧ ft ≠ .uUi ∧ (uOp ft).toNat = op := by
  subst h
  revert op
  decide

theorem type1Subfields_type1Fields {f : Frame} {d t : AddrImage} (he : type1Encodable f) (ha : f.addrs = [d, t]) :
    type1Subfields f d (type1Fields f).1 (type1Fields f).2.1.toNat (type1Fields f).2.2.toNat := by
  have hm : f.mod128 = false := he.2.1
  refine ⟨fun op h hop => ?_, fun op h hop h5 => ?_, fun h => ?_, fun h => ?_, fun h => ?_⟩
  · obtain ⟨hs, hss⟩ := ss_of_index h hop
    obtain ⟨x, hnr, -⟩ := classify_seq_of_s hm hs
    rw [type1Fields_of_s ha hs, hnr, Option.getD_some, ctlS_toNat, hss]
    exact ⟨rfl, rfl, rfl⟩
  · obtain ⟨hu, hne, hcode⟩ := uOp_of_index h hop h5
    rw [type1Fields_of_u ha hu hne, ctlU_toNat, hcode]
    exact ⟨rfl, rfl, rfl⟩
  · rw [type1Fields_of_ui ha h, ctlU_toNat]
    exact ⟨rfl, rfl⟩
  · obtain ⟨x, y, hnr, hns⟩ := classify_seq_of_i hm h
    rw [type1Fields_of_i h, hnr, hns, Option.getD_some, Option.getD_some, ctlI_toNat]
    exact ⟨rfl, rfl⟩
  · obtain ⟨p, v, hp, hv, hcode, -⟩ := pid_of_type1Encodable he h
    refine ⟨p, v, hp, hv, ?_⟩
    simp only [List.mem_cons, List.not_mem_nil, or_false] at h
    rcases h with h | h
    · rw [type1Fields_of_ui ha h, hcode]
    · rw [type1Fields_of_i h, hcode]

/-! ### The headers of the two encodes (R210, R211) -/

theorem six_toNat {c : Byte} (h : 0x20 ≤ c.toNat ∧ c.toNat ≤ 0x5F) : ((six c).extractLsb' 0 6).toNat = c.toNat - 0x20 := by
  revert c
  decide

theorem chars_getD_mem (a : AddrImage) {j : Nat} (hj : j < 6) : a.chars.getD j 0 ∈ a.chars := by
  rw [List.getD_eq_getElem _ _ (show j < a.chars.length from hj)]
  exact List.getElem_mem _

section
variable {f : Frame} {d t : AddrImage} (he : type1Encodable f) (ha : f.addrs = [d, t]) (m : Bool)
include he ha

theorem type1Encodable_sixbit : (∀ j, j < 6 → 0x20 ≤ (d.chars.getD j 0).toNat ∧ (d.chars.getD j 0).toNat ≤ 0x5F) ∧
    ∀ j, j < 6 → 0x20 ≤ (t.chars.getD j 0).toNat ∧ (t.chars.getD j 0).toNat ≤ 0x5F := by
  obtain ⟨-, -, hsix, -⟩ := he
  rw [ha] at hsix
  exact ⟨fun j hj => hsix d (by simp) _ (chars_getD_mem d hj), fun j hj => hsix t (by simp) _ (chars_getD_mem t hj)⟩

theorem isType1Header_type1Header (hlen : (infoOf f).length ≤ 1023) : isType1Header f d t m (type1Header f m) := by
  obtain ⟨hd, ht⟩ := type1Encodable_sixbit he ha
  obtain ⟨hlow, h12⟩ := hdrByte_type1Header f m
  obtain ⟨hdst, hsrc, hssids⟩ := hdrByte_type1Chars ha
  have hsub := type1Subfields_type1Fields he ha
  rw [← hdrUi_type1Header f m, ← hdrPid4_type1Header f m, ← hdrCtl7_type1Header f m] at hsub
  refine ⟨fun j hj => ?_, fun j hj => ?_, h12.trans hssids, hdrFec_type1Header f m, hdrType_type1Header f m, ?_, hsub⟩
  · rw [hlow, hdst j hj, six_toNat (hd j hj)]
  · rw [hlow, hsrc j hj, six_toNat (ht j hj)]
  · rw [hdrCount_type1Header, ← infoOf_eq (type1Encodable_isAx25 he)]
    exact ofNat_count_toNat hlen

/-- The characters of the header are those of the frame's addresses (R204, R205). -/
theorem hdrChars_type1Header : hdrChars (type1Header f m) 0 = d.chars ∧ hdrChars (type1Header f m) 6 = t.chars := by
  obtain ⟨hd, ht⟩ := type1Encodable_sixbit he ha
  obtain ⟨hlow, -⟩ := hdrByte_type1Header f m
  obtain ⟨hdst, hsrc, -⟩ := hdrByte_type1Chars ha
  have hsix : ∀ c : Byte, 0x20 ≤ c.toNat ∧ c.toNat ≤ 0x5F → unsix ((six c).extractLsb' 0 6) = c :=
    fun c hc => unsix_six (by simpa [isSixbit] using hc)
  have hlist : ∀ a : AddrImage, a.chars = (List.range 6).map fun j => a.chars.getD j 0 := fun _ => rfl
  rw [hlist d, hlist t]
  refine ⟨List.map_congr_left fun j hj => ?_, List.map_congr_left fun j hj => ?_⟩ <;> rw [List.mem_range] at hj
  · rw [hlow, Nat.zero_add, hdst j hj, hsix _ (hd j hj)]
  · rw [hlow, hsrc j hj, hsix _ (ht j hj)]

end

theorem isType0Header_putTrailer {l : Nat} (hl : l ≤ 1023) (m : Bool) :
    isType0Header l m (putTrailer zeroHdr m false l) := by
  refine ⟨hdrFec_putTrailer .., hdrType_putTrailer .., ?_, fun j q _ hq => ?_, ?_⟩
  · rw [hdrCount_putTrailer]
    exact ofNat_count_toNat hl
  · rw [hdrBit_putTrailer, if_neg (by omega), hdrBit_zeroHdr]
  · rw [hdrBit_putTrailer, if_neg (by omega), hdrBit_zeroHdr]

end Sys2Proof.Claim
end

section
/-! SUPPORT. HDR1_DEC of a header HDR1_ENC made: what comes back of the frame (43_il2p_header.md R216). -/

namespace Sys2Proof.Claim

open Sys2Proof.Machine

/-! ### What a decoded frame keeps -/

/-- What a frame HDR1_DEC makes keeps of the frame its header was made of, beside the addresses (R216). -/
def KeepsType1 (f r : Frame) : Prop :=
  (classify r).ftype = (classify f).ftype ∧ (classify r).pf = (classify f).pf ∧ (classify r).nr = (classify f).nr ∧
    (classify r).ns = (classify f).ns ∧ infoField r = [] ∧ pidField r = ((pidField f).bind pidEncoded).map pidDecoded

/-- The same of a frame known by its class, its information and its PID. -/
theorem KeepsType1.of_class {f r : Frame} {c : FrameClass} (he : type1Encodable f) (hc : classify r = c)
    (hft : c.ftype = (classify f).ftype) (hpf : c.pf = (classify f).pf) (hnr : c.nr = (classify f).nr)
    (hns : c.ns = (classify f).ns) (hinfo : infoOf r = [])
    (hpid : pidOf r = ((pidField f).bind pidEncoded).map pidDecoded) : KeepsType1 f r := by
  subst hc
  have hx : (classify r).ftype ≠ .notAx25 := hft ▸ type1Encodable_isAx25 he
  exact ⟨hft, hpf, hnr, hns, infoOf_eq hx ▸ hinfo, pidOf_eq hx ▸ hpid⟩

section
variable (p : Params) (cr : Bool) {f : Frame} (he : type1Encodable f) {l : List AddrImage} (hl : 2 ≤ l.length)
include he hl

theorem keepsType1_buildS (hs : (classify f).ftype ∈ [FrameType.sRr, .sRnr, .sRej, .sSrej]) {x : BitVec 3}
    (hnr : (classify f).nr = some (x.setWidth 7)) (hns : (classify f).ns = none) :
    KeepsType1 f (buildS p (classify f).ftype cr (classify f).pf (x.setWidth 7) false l []).frame := by
  obtain ⟨hinfo, hpid⟩ := infoOf_buildS p hs cr (classify f).pf (x.setWidth 7) false hl []
  have hno : pidField f = none := by
    refine pidField_of_no_pid he ?_
    revert hs
    cases (classify f).ftype <;> decide
  refine .of_class he (classify_buildS p hs cr _ _ false hl []) rfl rfl
    ((congrArg some (maskSeq_narrow x)).trans hnr.symm) hns.symm (hinfo.trans (builtInfo_nil ..)) ?_
  rw [hpid, hno]
  rfl

theorem keepsType1_buildU (hu : (classify f).ftype ∈ FrameType.uTypes) {pid : Byte} (hbad : pidBad pid = false)
    (hpid : (classify f).ftype = .uUi → ((pidField f).bind pidEncoded).map pidDecoded = some pid) :
    KeepsType1 f (buildU p (classify f).ftype cr (classify f).pf pid false l []).frame := by
  obtain ⟨hinfo, hp⟩ := infoOf_buildU p hu cr (classify f).pf pid false hl []
  obtain ⟨hnr, hns⟩ := classify_seq_of_u hu
  refine .of_class he (classify_buildU p hu cr _ pid false hl []) rfl rfl hnr.symm hns.symm
    (hinfo.trans (builtInfo_nil ..)) ?_
  by_cases hui : (classify f).ftype = .uUi
  · rw [hp, hpid hui, hui, substPid, hbad]
    rfl
  · have hhas : (classify f).ftype ∉ [FrameType.uUi, .iFrame] := by
      revert hu hui
      cases (classify f).ftype <;> decide
    have hno : (classify f).ftype.hasPid = false := by
      rw [← classify_hasPid, ← Bool.not_eq_true, classify_hasPid_iff]
      exact hhas
    rw [hp, pidField_of_no_pid he hhas, hno]
    rfl

theorem keepsType1_buildI (hi : (classify f).ftype = .iFrame) {x y : BitVec 3}
    (hnr : (classify f).nr = some (x.setWidth 7)) (hns : (classify f).ns = some (y.setWidth 7)) {pid : Byte}
    (hbad : pidBad pid = false) (hpid : ((pidField f).bind pidEncoded).map pidDecoded = some pid) :
    KeepsType1 f (buildI p cr (classify f).pf (x.setWidth 7) (y.setWidth 7) pid false l []).frame := by
  obtain ⟨hinfo, hp⟩ := infoOf_buildI p cr (classify f).pf (x.setWidth 7) (y.setWidth 7) pid false hl []
  refine .of_class he (classify_buildI p cr _ _ _ pid false hl []) hi.symm rfl
    ((congrArg some (maskSeq_narrow x)).trans hnr.symm) ((congrArg some (maskSeq_narrow y)).trans hns.symm)
    (hinfo.trans (builtInfo_nil ..)) ?_
  rw [hp, hpid, substPid, hbad]
  rfl

end

/-- The calls of a header of HDR1_ENC are accepted exactly where those of the frame are decodable. -/
theorem callsDecodable_iff_hdrCall {f : Frame} {d t : AddrImage} (he : type1Encodable f) (ha : f.addrs = [d, t]) (m : Bool) :
    callsDecodable f ↔ callOk (hdrCall (type1Header f m) 0) ∧ callOk (hdrCall (type1Header f m) 6) := by
  obtain ⟨hd, ht⟩ := hdrChars_type1Header he ha m
  rw [callsDecodable_iff, callOk_hdrCall_iff, callOk_hdrCall_iff, hd, ht, ha]
  exact List.forall_mem_cons.trans (and_congr_right' List.forall_mem_singleton)

/-- The images of a header of HDR1_ENC whose calls are decodable: the frame's calls and SSIDs (R204). -/
theorem hdrImages_type1Header {f : Frame} {d t : AddrImage} (he : type1Encodable f) (ha : f.addrs = [d, t])
    (hc : callsDecodable f) (m c : Bool) :
    hdrImages (type1Header f m) (hdrCall (type1Header f m) 0) (hdrCall (type1Header f m) 6) c =
      [addrEncode (addrDecodeCall d) d.ssid c false, addrEncode (addrDecodeCall t) t.ssid (!c) true] := by
  obtain ⟨hd, ht⟩ := hdrChars_type1Header he ha m
  obtain ⟨hdok, htok⟩ := (callsDecodable_iff_hdrCall he ha m).mp hc
  have hsplit : ∀ x y : BitVec 4, (x ++ y).extractLsb' 4 4 = x ∧ (x ++ y).extractLsb' 0 4 = y := by decide
  rw [hdrImages_eq, hdrCall_of_callOk hdok, hdrCall_of_callOk htok, hd, ht, (hdrByte_type1Header f m).2,
    (hdrByte_type1Chars ha).2.2, (hsplit _ _).1, (hsplit _ _).2]
  rfl

/-- HDR1_DEC of the header HDR1_ENC makes of the frame `f` from `t` to `d`: a frame that keeps what `KeepsType1` says, between f's
calls and SSIDs, with C bit `c` at the destination and its complement at the source (R216). -/
def DecodesBack (p : Params) (f : Frame) (d t : AddrImage) (m c : Bool) : Prop :=
  ∃ r, hdr1Dec p (type1Header f m) = .built r ∧ KeepsType1 f r.frame ∧
    r.frame.addrs = [addrEncode (addrDecodeCall d) d.ssid c false, addrEncode (addrDecodeCall t) t.ssid (!c) true]

section
variable (p : Params) {f : Frame} {d t : AddrImage} (he : type1Encodable f) (ha : f.addrs = [d, t])
  (hc : callsDecodable f) (m : Bool)
include he ha hc

theorem decodesBack_of_s (hs : (classify f).ftype ∈ [FrameType.sRr, .sRnr, .sRej, .sSrej]) :
    DecodesBack p f d t m d.bit7 := by
  obtain ⟨x, hnr, hns⟩ := classify_seq_of_s he.2.1 hs
  obtain ⟨hdok, htok⟩ := (callsDecodable_iff_hdrCall he ha m).mp hc
  have hfields := type1Fields_of_s ha hs
  rw [hnr, Option.getD_some] at hfields
  obtain ⟨hpf, hcr, hmid, hss⟩ := ctlS_spec (classify f).pf d.bit7 x (classify f).ftype.ss
  have hdec := hdr1Dec_of_s p (hdrType_type1Header f m) hdok htok (by rw [hdrUi_type1Header, hfields])
    (by rw [hdrPid4_type1Header, hfields])
  rw [hdrCtl7_type1Header, hfields, hpf, hcr, hmid, hss, ofSs_ss hs, hdrImages_type1Header he ha hc] at hdec
  exact ⟨_, hdec, keepsType1_buildS p _ he le_rfl hs hnr hns, setCBits_addrEncode ..⟩

theorem decodesBack_of_u (hu : (classify f).ftype ∈ FrameType.uTypes) (hsabme : (classify f).ftype ≠ .uSabme)
    (hui : (classify f).ftype ≠ .uUi) : DecodesBack p f d t m d.bit7 := by
  obtain ⟨hdok, htok⟩ := (callsDecodable_iff_hdrCall he ha m).mp hc
  have hfields := type1Fields_of_u ha hu hui
  obtain ⟨hpf, hcr, hmid⟩ := ctlU_spec (classify f).pf d.bit7 (uOp (classify f).ftype)
  have hdec := hdr1Dec_of_u p (hdrType_type1Header f m) hdok htok (by rw [hdrUi_type1Header, hfields])
    (by rw [hdrPid4_type1Header, hfields])
  rw [hdrCtl7_type1Header, hfields, hpf, hcr, hmid, uTypeOfOp_uOp hu hsabme, hdrImages_type1Header he ha hc] at hdec
  exact ⟨_, hdec, keepsType1_buildU p _ he le_rfl hu (by decide) fun h => absurd h hui, setCBits_addrEncode ..⟩

theorem decodesBack_of_ui (hui : (classify f).ftype = .uUi) : DecodesBack p f d t m d.bit7 := by
  obtain ⟨q, v, hq, hv, hcode, -⟩ := pid_of_type1Encodable he (by rw [hui]; decide)
  obtain ⟨hdok, htok⟩ := (callsDecodable_iff_hdrCall he ha m).mp hc
  have hfields := type1Fields_of_ui ha hui
  rw [hcode] at hfields
  obtain ⟨hpf, hcr, -⟩ := ctlU_spec (classify f).pf d.bit7 5#3
  have hdec := hdr1Dec_of_ui p (hdrType_type1Header f m) hdok htok (by rw [hdrUi_type1Header, hfields])
  rw [hdrCtl7_type1Header, hdrPid4_type1Header, hfields, hpf, hcr, ← hui, hdrImages_type1Header he ha hc] at hdec
  refine ⟨_, hdec, keepsType1_buildU p _ he le_rfl (by rw [hui]; decide) (pidDec_ok v) fun _ => ?_,
    setCBits_addrEncode ..⟩
  rw [hq, Option.bind_some, hv, Option.map_some, pidDec_eq]

theorem decodesBack_of_i (hi : (classify f).ftype = .iFrame) : DecodesBack p f d t m true := by
  obtain ⟨x, y, hnr, hns⟩ := classify_seq_of_i he.2.1 hi
  obtain ⟨q, v, hq, hv, hcode, hv0, hv1⟩ := pid_of_type1Encodable he (by rw [hi]; decide)
  obtain ⟨hdok, htok⟩ := (callsDecodable_iff_hdrCall he ha m).mp hc
  have hfields := type1Fields_of_i hi
  rw [hcode, hnr, hns, Option.getD_some, Option.getD_some] at hfields
  obtain ⟨hpf, hmid, hlow⟩ := ctlI_spec (classify f).pf x y
  have hpid4 : hdrPid4 (type1Header f m) = v := by rw [hdrPid4_type1Header, hfields]
  have hdec := hdr1Dec_of_i p (hdrType_type1Header f m) hdok htok (by rw [hdrUi_type1Header, hfields])
    (hpid4 ▸ hv0) (hpid4 ▸ hv1)
  rw [hdrCtl7_type1Header, hpid4, hfields, hpf, hmid, hlow, hdrImages_type1Header he ha hc] at hdec
  refine ⟨_, hdec, keepsType1_buildI p _ he le_rfl hi hnr hns (pidDec_ok v) ?_, setCBits_addrEncode ..⟩
  rw [hq, Option.bind_some, hv, Option.map_some, pidDec_eq]

/-- Whatever its class, the frame comes back with F's C bit at the destination, but 1 for an I frame. -/
theorem decodesBack : DecodesBack p f d t m (d.bit7 || decide ((classify f).ftype = .iFrame)) := by
  have hnotI : (classify f).ftype ≠ .iFrame → (d.bit7 || decide ((classify f).ftype = .iFrame)) = d.bit7 := fun h => by
    rw [decide_eq_false h, Bool.or_false]
  rcases type1Encodable_class he with hs | ⟨hu, hsabme, hui⟩ | hui | hi
  · rw [hnotI fun h => absurd hs (by rw [h]; decide)]
    exact decodesBack_of_s p he ha hc m hs
  · rw [hnotI fun h => absurd hu (by rw [h]; decide)]
    exact decodesBack_of_u p he ha hc m hu hsabme hui
  · rw [hnotI (by rw [hui]; decide)]
    exact decodesBack_of_ui p he ha hc m hui
  · rw [decide_eq_true hi, Bool.or_true]
    exact decodesBack_of_i p he ha hc m hi

end

end Sys2Proof.Claim
end

section
/-! The statements about the IL2P header (43_il2p_header.md), each assembled from the lemmas above. -/

namespace Sys2Proof.Proofs

open Sys2Proof.Machine Sys2Proof.Claim

/-- Settles O44: a plane is read most significant bit first (`getPlane_getLsbD_msbFirst`), and HDR_ATTR is one record update. -/
theorem headerFieldsAndHdrAttr : Obligations.HeaderFieldsAndHdrAttr := by
  intro s
  exact ⟨fun _ hk => getPlane_getLsbD_msbFirst _ 7 2 hk, fun _ hk => getPlane_getLsbD_msbFirst _ 6 1 hk,
    fun _ hk => getPlane_getLsbD_msbFirst _ 6 5 hk, rfl, rfl, rfl, rfl⟩

/-- Settles O45: the checks in their order (`type1Encodable_iff`), and every bit of the header (`isType1Header_type1Header`). -/
theorem hdr1EncOutcomes : Obligations.Hdr1EncOutcomes := by
  intro s m
  dsimp only
  refine ⟨fun hv => exec_hdr1Enc_of_error (hdr1Enc_of_invalid hv), fun hv he => ?_, fun hv he hl => ?_,
    fun d t hv ha he hl => ?_⟩
  · rw [type1Encodable_iff, Bool.not_eq_false] at he
    exact exec_hdr1Enc_of_error (hdr1Enc_of_refused hv he)
  · rw [← infoOf_eq (type1Encodable_isAx25 he)] at hl
    exact exec_hdr1Enc_of_error (hdr1Enc_of_long hv ((type1Encodable_iff _).mp he) hl)
  · rw [← infoOf_eq (type1Encodable_isAx25 he)] at hl ⊢
    exact ⟨_, exec_hdr1Enc_of_ok (hdr1Enc_of_fits hv ((type1Encodable_iff _).mp he) hl), isType1Header_type1Header he ha m hl⟩

/-- Settles O46: the two length checks, and every bit of the header (`isType0Header_putTrailer`). -/
theorem hdr0EncOutcomes : Obligations.Hdr0EncOutcomes := by
  intro s m
  exact ⟨fun hv => exec_hdr0Enc_of_error (hdr0Enc_of_invalid hv), fun hv hl => exec_hdr0Enc_of_error (hdr0Enc_of_short hv hl),
    fun hv hl => exec_hdr0Enc_of_error (hdr0Enc_of_long hv hl),
    fun hv h14 hl => ⟨_, exec_hdr0Enc_of_ok (hdr0Enc_of_fits hv h14 hl), isType0Header_putTrailer hl m⟩⟩

/-- Settles O47: an encode writes to RES_HDR the fields it puts in HDR, so HDR_ATTR reads them back (`exec_hdrAttr_self`). -/
theorem encodedHeaderAttributes : Obligations.EncodedHeaderAttributes := by
  intro s t m
  refine ⟨fun ht hok => ?_, fun ht hok => ?_⟩
  · obtain ⟨u, ⟨henc, rfl⟩, rfl⟩ := (execHdr1Enc_ends m s).good_of_ok ht hok
    obtain ⟨-, href, hlen, -⟩ := hdr1Enc_ok henc
    rw [← infoOf_eq (type1Encodable_isAx25 ((type1Encodable_iff _).mpr href))]
    refine ⟨hdrType_type1Header .., ?_, exec_hdrAttr_self rfl ?_⟩
    · rw [State.setCode_hdr, hdrCount_type1Header]
      exact ofNat_count_toNat hlen
    · simp [hdrAttrs]
  · obtain ⟨u, ⟨henc, rfl⟩, rfl⟩ := (execHdr0Enc_ends m s).good_of_ok ht hok
    obtain ⟨-, -, hlen, -⟩ := hdr0Enc_ok henc
    refine ⟨hdrType_putTrailer .., ?_, exec_hdrAttr_self rfl ?_⟩
    · rw [State.setCode_hdr, hdrCount_putTrailer]
      exact ofNat_count_toNat hlen
    · simp [hdrAttrs]

/-- Settles O48: the calls of the header are those it reads (`hdrCall_of_hdrCallIs`), and each class is a builder's frame
(`hdr1Dec_of_ui` and its kind, `buildU_hdrImages` and its kind). -/
theorem hdr1DecOutcomes : Obligations.Hdr1DecOutcomes := by
  intro s
  dsimp only
  refine ⟨fun ht => exec_hdr1Dec_of_notType1 (hdr1Dec_of_type0 _ ht), fun dst src ht hdst hsrc hbad => ?_,
    fun dst src ht hdst hsrc hd hs => ?_⟩
  · rw [← hdrCall_of_hdrCallIs hdst, ← hdrCall_of_hdrCallIs hsrc] at hbad
    rw [exec_hdr1Dec_of_badCall (hdr1Dec_of_badCall _ ht hbad), diagIf_eq_bitWhen _ (n := 5) rfl]
  · obtain rfl := hdrCall_of_hdrCallIs hdst
    obtain rfl := hdrCall_of_hdrCallIs hsrc
    refine ⟨fun hui => ?_, fun hui h0 => ?_, fun hui h1 => ?_, fun hui h2 => ?_⟩
    · rw [exec_hdr1Dec_of_built (hdr1Dec_of_ui _ ht hd hs hui), buildU_hdrImages _ _ _ _ _ _ _ (pidDec_ok _), uControl_eq,
        pidDec_eq]
      rfl
    · obtain ⟨hss, hcr⟩ := ofSs_spec ((hdrCtl7 s.hdr).extractLsb' 0 2)
      rw [exec_hdr1Dec_of_built (hdr1Dec_of_s _ ht hd hs hui h0), buildS_hdrImages, hss, hcr]
    · obtain ⟨hctl, hpid, hcr⟩ := uTypeOfOp_spec ((hdrCtl7 s.hdr).extractLsb' 3 3)
      rw [exec_hdr1Dec_of_built (hdr1Dec_of_u _ ht hd hs hui h1), buildU_hdrImages _ _ _ _ _ _ _ (by decide), uControl_eq,
        hctl, hpid, hcr]
      simp only [decide_eq_true_eq]
      rfl
    · have hpid : ∀ v : BitVec 4, 2 ≤ v.toNat → v ≠ 0 ∧ v ≠ 1 := by decide
      obtain ⟨h0, h1⟩ := hpid _ h2
      rw [exec_hdr1Dec_of_built (hdr1Dec_of_i _ ht hd hs hui h0 h1), buildI_hdrImages _ _ _ _ _ _ _ _ (pidDec_ok _),
        pidDec_eq]
      rfl

/-- Settles O49: the length checks, then what `RsDecode` answers; it corrects at most one symbol (`rsDecode_spec`). -/
theorem hdrClarifyOutcomes : Obligations.HdrClarifyOutcomes := by
  intro s
  refine ⟨fun h => exec_hdrClarify_of_short (h.imp_left Nat.lt_of_not_le),
    fun hf h15 hd => exec_hdrClarify_of_fail hf h15 hd, fun c n hf h15 hd => ?_⟩
  obtain ⟨hlen, hn⟩ := rsDecode_spec hd
  have hheader : (descramble (c.take 13)).length = 13 := by
    rw [descramble_length, List.length_take, hlen, List.length_take, inBytes_length]
    omega
  exact ⟨_, hdrOfBytes_toList hheader, hn, exec_hdrClarify_of_decoded hf h15 hd⟩

/-- Settles O50: the command is one record update, and scrambling keeps the length. -/
theorem hdrEmitOutcome : Obligations.HdrEmitOutcome := by
  intro s
  exact ⟨rfl, by simp⟩

/-- Settles O51: XFER hands the protected header to HDR_CLARIFY (`inBytes_of_xfer`), and a protected string decodes back with no
correction (`rsDecode_protect`). -/
theorem emittedHeaderClarifiesBack : Obligations.EmittedHeaderClarifiesBack := by
  intro s t u hs ht hu
  have hinv : t.Inv := (exec_keeps ht).inv hs
  have hout : t.bufOut = protect 2 (hdrBytes s.hdr) := by
    cases ht
    rfl
  have hin : u.inBytes = protect 2 (hdrBytes s.hdr) :=
    (inBytes_of_xfer hu hinv.bufInWf hinv.bufOutCap (by simp [hout])).trans hout
  have hlen : u.bufInLen.toNat = 15 := by
    rw [← inBytes_length, hin]
    simp
  have hfits : u.bufInLen.toNat ≤ u.params.bufCap := by
    have := Params.bounds ((exec_keeps hu).inv hinv).params
    omega
  obtain ⟨hdec, hback⟩ := rsDecode_protect (k := 2) (d := hdrBytes s.hdr) (by decide) (by simp)
  rw [hdrBytes_length] at hback
  have htake : u.inBytes.take 15 = protect 2 (hdrBytes s.hdr) := by
    rw [hin, List.take_of_length_le (by simp)]
  rw [← htake] at hdec
  refine ⟨_, exec_hdrClarify_of_decoded hfits hlen.ge hdec, rfl, ?_, rfl⟩
  rw [htake, hback, hdrOfBytes_hdrBytes]

/-- Settles O52: the header has the frame's characters (`callsDecodable_iff_hdrCall`), and what is built of them keeps the frame
(`decodesBack`). -/
theorem type1HeaderDecodesBack : Obligations.Type1HeaderDecodesBack := by
  intro s t m d a ht hok ha
  obtain ⟨u, ⟨henc, rfl⟩, rfl⟩ := (execHdr1Enc_ends m s).good_of_ok ht hok
  obtain ⟨-, href, -⟩ := hdr1Enc_ok henc
  have he := (type1Encodable_iff s.frame).mpr href
  refine ⟨fun hc => ?_, fun hc => ?_⟩
  · rw [callsDecodable_iff_hdrCall he ha m] at hc
    exact ⟨_, exec_hdr1Dec_of_badCall (hdr1Dec_of_badCall _ (hdrType_type1Header s.frame m) hc), rfl⟩
  · obtain ⟨r, hr, ⟨hft, hpf, hnr, hns, hinfo, hpid⟩, haddrs⟩ := decodesBack s.params he ha hc m
    obtain ⟨hvalid, hmod, -⟩ := hdr1Dec_built hr
    have hcalls := (callsDecodable_iff s.frame).mp hc
    rw [ha, List.forall_mem_cons, List.forall_mem_singleton] at hcalls
    obtain ⟨⟨-, hd⟩, -, hs⟩ := hcalls
    refine ⟨_, _, _, exec_hdr1Dec_of_built hr, rfl, hvalid, hmod, haddrs, addrEncode_addrDecodeCall_chars hd ..,
      addrEncode_addrDecodeCall_chars hs .., ?_⟩
    simp only [addrEncode_ssid, addrEncode_rsv, addrEncode_bit7, true_and]
    exact ⟨hft, hpf, hnr, hns, hinfo, hpid⟩

end Sys2Proof.Proofs
end

section
/-! SUPPORT. The formulas of R241, that its block count is the least (44_il2p_plan.md R242), where its blocks start (R243), and the
payload IL2P_ENCODE plans for (45_il2p_frame.md R261). -/

namespace Sys2Proof.Machine

/-! ### The formulas of R241 -/

/-- The block count R241 computes for n bytes. -/
def planBlocks (n : Nat) (maxFec : Bool) : Nat := (n + (planBlockData maxFec - 1)) / planBlockData maxFec

theorem planBlocks_eq (n : Nat) (m : Bool) : planBlocks n m = if m then (n + 238) / 239 else (n + 246) / 247 := by
  cases m <;> rfl

theorem planBlockData_pos (m : Bool) : 0 < planBlockData m := by
  cases m <;> decide

/-- The block count is ceil(n / planBlockData): fewer blocks of that size leave bytes over. -/
theorem lt_planBlocks_iff {b n : Nat} {m : Bool} : b < planBlocks n m ↔ b * planBlockData m < n := by
  have hpos := planBlockData_pos m
  rw [planBlocks, Nat.lt_iff_add_one_le, Nat.le_div_iff_mul_le hpos, Nat.add_mul, Nat.one_mul]
  omega

/-- R241 for a payload that is not empty. -/
theorem planFor_of_ne_zero {n : Nat} (hn : n ≠ 0) (m : Bool) : planFor n m = {
    smallSize := n / planBlocks n m, largeSize := n / planBlocks n m + 1,
    smallCount := planBlocks n m - (n - planBlocks n m * (n / planBlocks n m)),
    largeCount := n - planBlocks n m * (n / planBlocks n m), parity := planParity (n / planBlocks n m) m } :=
  if_neg hn

/-- The large blocks are n mod BLOCK_COUNT many, so they and the small ones make up the block count. -/
theorem planFor_blocks {n : Nat} (hn : n ≠ 0) (m : Bool) : (planFor n m).blocks = planBlocks n m := by
  have hpos : 0 < planBlocks n m := lt_planBlocks_iff.mpr (by omega)
  have hlarge := Nat.mod_lt n hpos
  rw [Nat.mod_eq_sub_mul_div] at hlarge
  rw [planFor_of_ne_zero hn]
  exact Nat.sub_add_cancel hlarge.le

/-! ### Parity (R242) -/

theorem planParity_mem (k : Nat) : planParity k false ∈ [2, 4, 6, 8] := by
  simp only [planParity, Bool.false_eq_true, if_false]
  split_ifs <;> simp

/-- A block of the size the block count is made for fills a codeword (R242: 247 + 8 and 239 + 16). -/
theorem planBlockData_add_planParity {k : Nat} {m : Bool} (h : planBlockData m ≤ k) :
    planBlockData m + planParity k m = 255 := by
  cases m with
  | true => rfl
  | false =>
    have h247 : 247 ≤ k := h
    have h61 : ¬ k ≤ 61 := by omega
    have h123 : ¬ k ≤ 123 := by omega
    have h185 : ¬ k ≤ 185 := by omega
    simp [planParity, planBlockData, h61, h123, h185]

/-- With fewer blocks the largest block and its parity are longer than a codeword (R242, invariant 4). -/
theorem codeword_lt_of_fewer_blocks {b n : Nat} {m : Bool} (hb : 0 < b) (h : b < planBlocks n m) :
    255 < (n + (b - 1)) / b + planParity (n / b) m := by
  have hlt : b * planBlockData m < n := lt_planBlocks_iff.mp h
  have hsmall : planBlockData m ≤ n / b := (Nat.le_div_iff_mul_le hb).mpr (by rw [Nat.mul_comm]; exact hlt.le)
  have hlarge : planBlockData m + 1 ≤ (n + (b - 1)) / b := by
    rw [Nat.le_div_iff_mul_le hb, Nat.add_mul, Nat.one_mul, Nat.mul_comm]
    omega
  have hfull := planBlockData_add_planParity hsmall
  omega

/-! ### Where the blocks start (R243) -/

/-- A block starts behind those before it. -/
theorem start_eq_sum (p : Plan) (i : Nat) : p.start i = ((List.range i).map p.size).sum := by
  induction i with
  | zero => rfl
  | succ i ih => simp [Plan.start, List.range_succ, ih]

/-- The blocks in order cover the payload. -/
theorem start_blocks {n : Nat} (h : n ≤ 1023) (m : Bool) : (planFor n m).start (planFor n m).blocks = n :=
  (start_eq_sum _ _).trans (sizes_sum h m)

/-! ### The payload of IL2P_ENCODE (R261) -/

/-- The header IL2P_ENCODE chooses counts the bytes of the payload it chooses. -/
theorem hdrCount_il2pChoose {f : Frame} {m : Bool} {r : Il2pChoice} (h : il2pChoose f m = .ok r) :
    (hdrCount r.hdr).toNat = r.body.length := by
  have hle := il2pChoose_body_le h
  rcases il2pChoose_cases f m with ⟨c, -, e⟩ | ⟨hd, n, henc, e⟩ | ⟨-, hd, henc, e⟩ <;> rw [h] at e <;> cases e
  · obtain ⟨-, -, -, rfl, -⟩ := hdr1Enc_ok henc
    rw [hdrCount_type1Header]
    exact ofNat_count_toNat hle
  · obtain ⟨-, -, -, rfl⟩ := hdr0Enc_ok henc
    rw [pack_length] at hle ⊢
    rw [hdrCount_putTrailer]
    exact ofNat_count_toNat hle

end Sys2Proof.Machine
end

section
/-! The statements about the planner (44_il2p_plan.md), each assembled from the lemmas above. -/

namespace Sys2Proof.Proofs

open Sys2Proof.Machine Sys2Proof.Claim

/-- Settles O53: the registers are the fields of R241's plan (`planFor_of_ne_zero`), with its block count (`planFor_blocks`). -/
theorem planOutcome : Obligations.PlanOutcome := by
  intro s count m
  refine ⟨fun h0 => ?_, fun h0 => ?_⟩
  · subst h0
    rfl
  · have hn : count.toNat ≠ 0 := fun h => h0 (BitVec.eq_of_toNat_eq h)
    dsimp only [exec, execPlan, ok, State.setCode, Plan.regs]
    rw [planFor_blocks hn, planFor_of_ne_zero hn, planBlocks_eq]
    rfl

/-- Settles O54: the bounds of every plan (`planFor_bounds`), that no smaller count does (`codeword_lt_of_fewer_blocks`), and the
cover (`start_blocks`). -/
theorem planInvariants : Obligations.PlanInvariants := by
  intro n m h1 h2
  have hn : n ≠ 0 := by omega
  obtain ⟨hpos, h5, hlarge, -, hsmallFits, hlargeFits, hsum, -⟩ := planFor_bounds h1 h2 m
  refine ⟨hsum, hlarge, hlargeFits, hsmallFits, fun b hb hlt => ?_, hpos, h5, fun hm => ?_, fun hm => ?_, fun _ _ => rfl,
    start_blocks h2 m⟩
  · rw [planFor_blocks hn] at hlt
    exact codeword_lt_of_fewer_blocks hb hlt
  · subst hm
    rw [planFor_of_ne_zero hn]
    exact planParity_mem _
  · subst hm
    rw [planFor_of_ne_zero hn]
    rfl

/-- Settles O57: the output is the on-air frame of a payload of at most 1023 bytes (`onAir_length`), which the header counts
(`hdrCount_il2pChoose`). -/
theorem onAirLength : Obligations.OnAirLength := by
  intro s t m hs ht hok
  obtain ⟨u, ⟨r, hr, rfl⟩, rfl⟩ := (execIl2pEncode_ends m s).good_of_ok ht hok
  have hbody := il2pChoose_body_le hr
  have hpay := payLen_le hbody m
  have hcap := Params.bounds hs.params
  dsimp only [il2pSent, State.setCode_bufOut, State.setCode_hdr, State.setCode_params, State.putOut_bufOut,
    State.putOut_hdr, State.putOut_params]
  rw [hdrCount_il2pChoose hr, onAir_length r.hdr hbody]
  omega

/-- Settles O55, by computing the plans. -/
theorem planWorkedExamples : Obligations.PlanWorkedExamples := by
  unfold Obligations.PlanWorkedExamples
  decide

end Sys2Proof.Proofs
end

section
/-! SUPPORT. The blocks of an on-air frame by their index (45_il2p_frame.md R260, R262), and every way IL2P_ENCODE and IL2P_DECODE
answer (R261, R262). -/

namespace Sys2Proof.Claim

open Sys2Proof.Machine

/-! ### Blocks by index -/

section
variable (plan : Plan) (b : List Byte)

/-- The blocks from index i on, encoded from where block i starts. -/
theorem onAirBlocks_range' (n i : Nat) :
    onAirBlocks plan.parity ((List.range' i n).map plan.size) (b.drop (plan.start i)) =
      (List.range' i n).flatMap fun j => protectedBytes plan.parity (block plan b j) := by
  induction n generalizing i with
  | zero => rfl
  | succ n ih =>
    rw [List.range'_succ, List.map_cons, List.flatMap_cons, onAirBlocks, List.drop_drop]
    exact congrArg _ (ih (i + 1))

/-- The on-air frame of the statements is the model's. -/
theorem onAirBytes_eq (h : Hdr) : onAirBytes h plan b = onAir h plan b := by
  have hblocks := onAirBlocks_range' plan b plan.blocks 0
  rw [← List.range_eq_range'] at hblocks
  exact congrArg _ hblocks.symm

/-- Where block i + 1 stands behind the codeword of block i. -/
theorem drop_codeword (i : Nat) : (b.drop (15 + plan.start i + i * plan.parity)).drop (plan.size i + plan.parity) =
    b.drop (15 + plan.start (i + 1) + (i + 1) * plan.parity) := by
  rw [List.drop_drop, Plan.start, Nat.add_mul, Nat.one_mul]
  congr 1
  omega

/-- One uncorrectable block from index i on, and there is no payload. -/
theorem decodeBlocks_range'_of_uncorrectable (n i : Nat)
    (h : ∃ j ∈ List.range' i n, rsDecode plan.parity (codeword plan b j) = none) :
    decodeBlocks plan.parity ((List.range' i n).map plan.size) (b.drop (15 + plan.start i + i * plan.parity)) = none := by
  induction n generalizing i with
  | zero => simp at h
  | succ n ih =>
    rw [List.range'_succ, List.exists_mem_cons_iff] at h
    rw [List.range'_succ, List.map_cons, decodeBlocks, drop_codeword]
    rcases h with h | h
    · rw [codeword] at h
      rw [h]
    · rw [ih (i + 1) h]
      split <;> rfl

/-- Where `RsDecode` answers for every block from index i on, the payload is what the blocks hold, and the corrections add up. -/
theorem decodeBlocks_range'_of_decoded {w : Nat → List Byte} {m : Nat → Nat} (n i : Nat)
    (h : ∀ j ∈ List.range' i n, rsDecode plan.parity (codeword plan b j) = some (w j, m j)) :
    decodeBlocks plan.parity ((List.range' i n).map plan.size) (b.drop (15 + plan.start i + i * plan.parity)) =
      some ((List.range' i n).flatMap fun j => descramble ((w j).take (plan.size j)), ((List.range' i n).map m).sum) := by
  induction n generalizing i with
  | zero => rfl
  | succ n ih =>
    rw [List.range'_succ, List.forall_mem_cons] at h
    obtain ⟨hfirst, hrest⟩ := h
    rw [codeword] at hfirst
    rw [List.range'_succ, List.map_cons, decodeBlocks, drop_codeword, hfirst, ih (i + 1) hrest]
    rfl

theorem decodeBlocks_of_uncorrectable (h : ∃ j, j < plan.blocks ∧ rsDecode plan.parity (codeword plan b j) = none) :
    decodeBlocks plan.parity plan.sizes (b.drop 15) = none := by
  have hall := decodeBlocks_range'_of_uncorrectable plan b plan.blocks 0
  simp only [← List.range_eq_range', List.mem_range, Plan.start, Nat.zero_mul, Nat.add_zero] at hall
  exact hall h

theorem decodeBlocks_of_decoded {w : Nat → List Byte} {m : Nat → Nat}
    (h : ∀ j, j < plan.blocks → rsDecode plan.parity (codeword plan b j) = some (w j, m j)) :
    decodeBlocks plan.parity plan.sizes (b.drop 15) =
      some ((List.range plan.blocks).flatMap fun j => descramble ((w j).take (plan.size j)),
        ((List.range plan.blocks).map m).sum) := by
  have hall := decodeBlocks_range'_of_decoded plan b (w := w) (m := m) plan.blocks 0
  simp only [← List.range_eq_range', List.mem_range, Plan.start, Nat.zero_mul, Nat.add_zero] at hall
  exact hall h

end

/-! ### Type-1 headers, refused and with good calls (R210, R213) -/

theorem hdr1Enc_of_not_encodable {f : Frame} (hv : f.valid = true) (he : ¬ type1Encodable f) (m : Bool) :
    hdr1Enc f m = .error .notEncodable :=
  hdr1Enc_of_refused hv (by rwa [type1Encodable_iff, Bool.not_eq_false] at he)

/-- Where both calls are good HDR1_DEC builds a frame. -/
theorem hdr1Dec_of_callOk (p : Params) {h : Hdr} {dst src : List Byte} (ht : hdrType h = true) (hdst : hdrCallIs h 0 dst)
    (hsrc : hdrCallIs h 6 src) (hd : callOk dst) (hs : callOk src) : ∃ r, hdr1Dec p h = .built r := by
  obtain rfl := hdrCall_of_hdrCallIs hdst
  obtain rfl := hdrCall_of_hdrCallIs hsrc
  cases hui : hdrUi h with
  | true => exact ⟨_, hdr1Dec_of_ui p ht hd hs hui⟩
  | false =>
    by_cases h0 : hdrPid4 h = 0
    · exact ⟨_, hdr1Dec_of_s p ht hd hs hui h0⟩
    · by_cases h1 : hdrPid4 h = 1
      · exact ⟨_, hdr1Dec_of_u p ht hd hs hui h1⟩
      · exact ⟨_, hdr1Dec_of_i p ht hd hs hui h0 h1⟩

end Sys2Proof.Claim

namespace Sys2Proof.Machine

/-! ### What IL2P_ENCODE chooses and sends (R261) -/

section
variable {f : Frame} {m : Bool}

theorem il2pChoose_of_type1 {h : Hdr} {n : Nat} (h1 : hdr1Enc f m = .ok (h, n)) :
    il2pChoose f m = .ok { hdr := h, type1 := true, body := infoOf f, ilen := n } := by
  simp only [il2pChoose, h1]

/-- Only NOT_ENCODABLE falls back to type 0. -/
theorem il2pChoose_of_error {c : StatusCode} (h1 : hdr1Enc f m = .error c) (hc : c ≠ .notEncodable) :
    il2pChoose f m = .error c := by
  rw [il2pChoose, h1]
  split
  · next e => cases e
  · next e =>
    cases e
    exact absurd rfl hc
  · next e =>
    cases e
    rfl

theorem il2pChoose_of_type0 {h : Hdr} (h1 : hdr1Enc f m = .error .notEncodable) (h0 : hdr0Enc f m = .ok h) :
    il2pChoose f m = .ok { hdr := h, type1 := false, body := pack f, ilen := 0 } := by
  simp only [il2pChoose, h1, h0]

theorem il2pChoose_of_type0_error {c : StatusCode} (h1 : hdr1Enc f m = .error .notEncodable)
    (h0 : hdr0Enc f m = .error c) : il2pChoose f m = .error c := by
  simp only [il2pChoose, h1, h0]

end

theorem exec_il2pEncode_of_error {s : State} {m : Bool} {c : StatusCode} (h : il2pChoose s.frame m = .error c) :
    exec (.il2pEncode m) s = .next { s with code := c } := by
  simp only [exec, execIl2pEncode, h]
  rfl

theorem exec_il2pEncode_of_ok {s : State} {m : Bool} {r : Il2pChoice} (h : il2pChoose s.frame m = .ok r) :
    exec (.il2pEncode m) s = .next ((il2pSent s m r).setCode .ok) := by
  simp only [exec, execIl2pEncode, h]
  rfl

/-! ### The payload part of IL2P_DECODE (R262) -/

section
variable {s : State} {h : Hdr} {b : List Byte} {mh : Nat} {fin : State → List Byte → Host.Outcome State Fault Refusal}

theorem il2pPayload_of_none
    (hd : decodeBlocks (planFor (hdrCount h).toNat (hdrFec h)).parity (planFor (hdrCount h).toNat (hdrFec h)).sizes (b.drop 15) =
      none) :
    il2pPayload s h b mh fin = .next { s with code := .fecFail, corrHdr := BitVec.ofNat 8 mh, corrPay := 0xFF } := by
  rcases il2pPayload_cases s h b mh fin with ⟨-, e⟩ | ⟨p, mp, hp, -⟩
  · exact e
  · rw [hd] at hp
    cases hp

theorem il2pPayload_of_some {p : List Byte} {mp : Nat}
    (hd : decodeBlocks (planFor (hdrCount h).toNat (hdrFec h)).parity (planFor (hdrCount h).toNat (hdrFec h)).sizes (b.drop 15) =
      some (p, mp)) :
    il2pPayload s h b mh fin = fin (il2pCommit s h (planFor (hdrCount h).toNat (hdrFec h)) mh mp) p := by
  rcases il2pPayload_cases s h b mh fin with ⟨hn, -⟩ | ⟨q, mq, hq, e⟩
  · rw [hd] at hn
    cases hn
  · rw [hd] at hq
    cases hq
    exact e

end

/-! ### The header part of IL2P_DECODE (R262) -/

theorem exec_il2pDecode_of_short {s : State} (h : s.params.bufCap < s.bufInLen.toNat ∨ s.bufInLen.toNat < 15) (m128 : Bool) :
    exec (.il2pDecode m128) s = .next { s with code := .badLen } := by
  dsimp only [exec]
  rcases Nat.lt_or_ge s.params.bufCap s.bufInLen.toNat with hover | hf
  · exact withInput_over hover _
  · have hshort : s.inBytes.length < 15 := by rw [inBytes_length]; omega
    exact (withInput_fits hf _).trans (if_pos hshort)

theorem exec_il2pDecode_of_fail {s : State} (hf : s.bufInLen.toNat ≤ s.params.bufCap) (h15 : 15 ≤ s.bufInLen.toNat)
    (hd : rsDecode 2 (s.inBytes.take 15) = none) (m128 : Bool) :
    exec (.il2pDecode m128) s = .next { s with code := .fecFail, corrHdr := 0xFF, corrPay := 0xFF } := by
  have hlong : ¬ s.inBytes.length < 15 := by rw [inBytes_length]; omega
  simp only [exec, execIl2pDecode, withInput_fits hf, Config.il2pHdrLen, Config.il2pHdrParity, Nat.reduceAdd,
    hlong, if_false, hd]
  rfl

/-- BUF_IN is within BUF_CAP and begins with a codeword that decodes to the header `h`, with `mh` corrections. -/
structure HeaderDecodes (s : State) (h : Hdr) (mh : Nat) : Prop where
  fits   : s.bufInLen.toNat ≤ s.params.bufCap
  long   : 15 ≤ s.bufInLen.toNat
  header : ∃ c, rsDecode 2 (s.inBytes.take 15) = some (c, mh) ∧ hdrOfBytes (descramble (c.take 13)) = h

/-- What IL2P_DECODE goes on to do with a header whose payload BUF_IN holds whole. -/
def il2pBehindHeader (m128 : Bool) (s : State) (h : Hdr) (mh : Nat) : Host.Outcome State Fault Refusal :=
  if hdrType h then
    match hdr1Dec s.params h with
    | .notType1 => fail .hdrReject s
    | .badCall => rejectCall s (decide (mh = 0))
    | .built r => il2pPayload s h s.inBytes mh fun t p =>
        ok ({ t with frame := { r.frame with rest := r.frame.rest ++ p } }.addDiag r.diag)
  else il2pPayload s h s.inBytes mh fun t p =>
    if loadable s.params (hdrCount h).toNat then ok { t with frame := loadFrame p m128 } else fail .badLen s

section
variable {s : State} {h : Hdr} {mh : Nat} (hh : HeaderDecodes s h mh) (m128 : Bool)
include hh

theorem exec_il2pDecode_of_header : exec (.il2pDecode m128) s =
    if s.bufInLen.toNat < 15 + payLen (hdrCount h).toNat (hdrFec h) then fail .badLen s else il2pBehindHeader m128 s h mh := by
  obtain ⟨hf, h15, c, hd, hc⟩ := hh
  have hlong : ¬ s.bufInLen.toNat < 15 := by omega
  simp only [exec, execIl2pDecode, withInput_fits hf, inBytes_length, Config.il2pHdrLen, Config.il2pHdrParity,
    Nat.reduceAdd, hlong, if_false, hd, hc]
  rfl

theorem exec_il2pDecode_of_cut (hcut : ¬ 15 + payLen (hdrCount h).toNat (hdrFec h) ≤ s.bufInLen.toNat) :
    exec (.il2pDecode m128) s = .next { s with code := .badLen } :=
  (exec_il2pDecode_of_header hh m128).trans (if_pos (Nat.lt_of_not_le hcut))

variable (hwhole : 15 + payLen (hdrCount h).toNat (hdrFec h) ≤ s.bufInLen.toNat)
include hwhole

theorem exec_il2pDecode_of_whole : exec (.il2pDecode m128) s = il2pBehindHeader m128 s h mh :=
  (exec_il2pDecode_of_header hh m128).trans (if_neg (Nat.not_lt.mpr hwhole))

theorem exec_il2pDecode_of_badCall (ht : hdrType h = true) (hr : hdr1Dec s.params h = .badCall) :
    exec (.il2pDecode m128) s =
      .next { s with code := .hdrReject, diag := s.diag ||| diagIf (decide (mh = 0)) .hdrSuspicious } := by
  rw [exec_il2pDecode_of_whole hh m128 hwhole, il2pBehindHeader, if_pos ht, hr]
  rfl

/-- A type-1 header with good calls: the payload is appended to the frame HDR1_DEC makes. -/
theorem exec_il2pDecode_of_built (ht : hdrType h = true) {r : Built} (hr : hdr1Dec s.params h = .built r) :
    exec (.il2pDecode m128) s = il2pPayload s h s.inBytes mh fun t p =>
      ok ({ t with frame := { r.frame with rest := r.frame.rest ++ p } }.addDiag r.diag) := by
  rw [exec_il2pDecode_of_whole hh m128 hwhole, il2pBehindHeader, if_pos ht, hr]

/-- A type-0 header: the payload is loaded as FRAME_LOAD would. -/
theorem exec_il2pDecode_of_type0 (ht : hdrType h = false) :
    exec (.il2pDecode m128) s = il2pPayload s h s.inBytes mh fun t p =>
      if loadable s.params (hdrCount h).toNat then ok { t with frame := loadFrame p m128 } else fail .badLen s := by
  rw [exec_il2pDecode_of_whole hh m128 hwhole, il2pBehindHeader, if_neg (by simp [ht])]

end

end Sys2Proof.Machine
end

section
/-! SUPPORT. The IL2P round trip (45_il2p_frame.md R263): what IL2P_DECODE finds in an output of IL2P_ENCODE, and when a type-1 frame
comes back as it was (43_il2p_header.md R216). -/

namespace Sys2Proof.Machine

/-! ### An output of IL2P_ENCODE at the receiver -/

/-- The header IL2P_ENCODE chooses says which FEC level the payload has. -/
theorem hdrFec_il2pChoose {f : Frame} {m : Bool} {r : Il2pChoice} (h : il2pChoose f m = .ok r) : hdrFec r.hdr = m := by
  rcases il2pChoose_cases f m with ⟨c, -, e⟩ | ⟨hd, n, henc, e⟩ | ⟨-, hd, henc, e⟩ <;> rw [h] at e <;> cases e
  · obtain ⟨-, -, -, rfl, -⟩ := hdr1Enc_ok henc
    exact hdrFec_type1Header f m
  · obtain ⟨-, -, -, rfl⟩ := hdr0Enc_ok henc
    exact hdrFec_putTrailer ..

theorem protect_hdrBytes_length (h : Hdr) : (protect Config.il2pHdrParity (hdrBytes h)).length = 15 := by
  simp [Config.il2pHdrParity]

section
variable {s t u : State} {m : Bool} {r : Il2pChoice} (hs : s.Inv) (hr : il2pChoose s.frame m = .ok r)
  (ht : exec (.il2pEncode m) s = .next t) (hu : exec .xfer t = .next u)
include hr ht hu

theorem params_of_sent : u.params = s.params := by
  rw [exec_il2pEncode_of_ok hr] at ht
  cases ht
  cases hu
  rfl

include hs

theorem inBytes_of_sent : u.inBytes = onAir r.hdr (planFor r.body.length m) r.body := by
  have hinv : t.Inv := (exec_keeps ht).inv hs
  have hout : t.bufOut = onAir r.hdr (planFor r.body.length m) r.body := by
    rw [exec_il2pEncode_of_ok hr] at ht
    cases ht
    rfl
  have hbody := il2pChoose_body_le hr
  have hlen : t.bufOut.length < 4096 := by
    rw [hout, onAir_length r.hdr hbody]
    have := payLen_le hbody m
    omega
  exact (inBytes_of_xfer hu hinv.bufInWf hinv.bufOutCap hlen).trans hout

/-- The receiver has as many bytes as the header announces. -/
theorem bufInLen_of_sent : u.bufInLen.toNat = 15 + payLen (hdrCount r.hdr).toNat (hdrFec r.hdr) := by
  rw [← inBytes_length, inBytes_of_sent hs hr ht hu, onAir_length r.hdr (il2pChoose_body_le hr), hdrCount_il2pChoose hr,
    hdrFec_il2pChoose hr]

theorem headerDecodes_of_sent : HeaderDecodes u r.hdr 0 := by
  have hlen := bufInLen_of_sent hs hr ht hu
  have hpay : payLen (hdrCount r.hdr).toNat (hdrFec r.hdr) ≤ 1103 := by
    rw [hdrCount_il2pChoose hr]
    exact payLen_le (il2pChoose_body_le hr) _
  have hcap := Params.bounds ((exec_keeps hu).inv ((exec_keeps ht).inv hs)).params
  obtain ⟨hdec, hback⟩ := rsDecode_protect (k := 2) (d := hdrBytes r.hdr) (by decide) (by simp)
  rw [hdrBytes_length] at hback
  refine ⟨by omega, by omega, protect 2 (hdrBytes r.hdr), ?_, by rw [hback, hdrOfBytes_hdrBytes]⟩
  rw [inBytes_of_sent hs hr ht hu, onAir, List.take_left' (protect_hdrBytes_length r.hdr), hdec]

/-- The payload comes back with no correction. -/
theorem decodeBlocks_of_sent : decodeBlocks (planFor (hdrCount r.hdr).toNat (hdrFec r.hdr)).parity
    (planFor (hdrCount r.hdr).toNat (hdrFec r.hdr)).sizes (u.inBytes.drop 15) = some (r.body, 0) := by
  have hdrop : u.inBytes.drop 15 =
      onAirBlocks (planFor r.body.length m).parity (planFor r.body.length m).sizes r.body := by
    rw [inBytes_of_sent hs hr ht hu, onAir]
    exact List.drop_left' (protect_hdrBytes_length r.hdr)
  rw [hdrop, hdrCount_il2pChoose hr, hdrFec_il2pChoose hr]
  exact decodeBlocks_onAir (il2pChoose_body_le hr) m

/-- A type-1 frame whose calls HDR1_DEC accepts decodes to its frame with the payload appended (R263). -/
theorem exec_il2pDecode_of_sent_type1 (ht1 : hdrType r.hdr = true) {g : Built} (hg : hdr1Dec s.params r.hdr = .built g)
    (m128 : Bool) : exec (.il2pDecode m128) u = .next (({ il2pCommit u r.hdr (planFor (hdrCount r.hdr).toNat (hdrFec r.hdr)) 0 0 with
      frame := { g.frame with rest := g.frame.rest ++ r.body } }.addDiag g.diag).setCode .ok) := by
  rw [← params_of_sent hr ht hu] at hg
  rw [exec_il2pDecode_of_built (headerDecodes_of_sent hs hr ht hu) m128 (bufInLen_of_sent hs hr ht hu).ge ht1 hg,
    il2pPayload_of_some (decodeBlocks_of_sent hs hr ht hu)]
  rfl

/-- A type-0 frame of a loadable length decodes to what FRAME_LOAD makes of the payload (R263). -/
theorem exec_il2pDecode_of_sent_type0 (ht0 : hdrType r.hdr = false) (hl : loadable s.params r.body.length = true)
    (m128 : Bool) : exec (.il2pDecode m128) u = .next ({ il2pCommit u r.hdr (planFor (hdrCount r.hdr).toNat (hdrFec r.hdr)) 0 0 with
      frame := loadFrame r.body m128 }.setCode .ok) := by
  rw [← params_of_sent hr ht hu, ← hdrCount_il2pChoose hr] at hl
  rw [exec_il2pDecode_of_type0 (headerDecodes_of_sent hs hr ht hu) m128 (bufInLen_of_sent hs hr ht hu).ge ht0,
    il2pPayload_of_some (decodeBlocks_of_sent hs hr ht hu), if_pos hl]
  rfl

end

/-! ### Addresses that come back -/

/-- Two images with the same characters and even call octets differ in octet 6 at most (30_encoding.md R92). -/
theorem AddrImage.eq_of_chars {a b : AddrImage} (ha : a.callEven) (hb : b.callEven) (hc : a.chars = b.chars) :
    a = { b with a6 := a.a6 } := by
  have hoctet : ∀ x : Byte, x.getLsbD 0 = false → (x >>> 1) <<< 1 = x := by decide
  have heq : ∀ {x y : Byte}, x.getLsbD 0 = false → y.getLsbD 0 = false → x >>> 1 = y >>> 1 → x = y := fun hx hy h => by
    rw [← hoctet _ hx, h, hoctet _ hy]
  simp only [AddrImage.callEven, List.forall_mem_cons] at ha hb
  obtain ⟨ha0, ha1, ha2, ha3, ha4, ha5, -⟩ := ha
  obtain ⟨hb0, hb1, hb2, hb3, hb4, hb5, -⟩ := hb
  simp only [AddrImage.chars, List.cons.injEq] at hc
  obtain ⟨h0, h1, h2, h3, h4, h5, -⟩ := hc
  cases a
  simp only [AddrImage.mk.injEq]
  exact ⟨heq ha0 hb0 h0, heq ha1 hb1 h1, heq ha2 hb2 h2, heq ha3 hb3 h3, heq ha4 hb4 h4, heq ha5 hb5 h5, trivial⟩

/-- Octet 6 encoded again, under either marker. -/
theorem flagsOctet_eq_iff (x : Byte) (v : Bool) :
    (flagsOctet (x.extractLsb' 1 4) v false = x &&& 0xFE ↔ v = x.getLsbD 7 ∧ x.extractLsb' 5 2 = 0b11) ∧
      (flagsOctet (x.extractLsb' 1 4) v true = x ||| 0x01 ↔ v = x.getLsbD 7 ∧ x.extractLsb' 5 2 = 0b11) := by
  revert x v
  decide

end Sys2Proof.Machine

namespace Sys2Proof.Claim

open Sys2Proof.Machine

/-- An address encoded again is the one its call and SSID were read from, but for the marker, exactly where the C bit and the
reserved bits are as before. -/
theorem addrEncode_addrDecodeCall_eq_iff {a : AddrImage} (hok : callOk (addrDecodeCall a)) (he : a.callEven) (v : Bool) :
    (addrEncode (addrDecodeCall a) a.ssid v false = { a with a6 := a.a6 &&& 0xFE } ↔
      v = a.a6.getLsbD 7 ∧ a.a6.extractLsb' 5 2 = 0b11) ∧
    (addrEncode (addrDecodeCall a) a.ssid v true = { a with a6 := a.a6 ||| 0x01 } ↔
      v = a.a6.getLsbD 7 ∧ a.a6.extractLsb' 5 2 = 0b11) := by
  have hoctet6 : ∀ (last : Bool) (b : Byte), addrEncode (addrDecodeCall a) a.ssid v last = { a with a6 := b } ↔
      flagsOctet a.ssid v last = b := fun last b => by
    have heq := AddrImage.eq_of_chars (addrEncode_callEven (addrDecodeCall a) a.ssid v last) he
      (addrEncode_addrDecodeCall_chars hok a.ssid v last)
    rw [heq, AddrImage.mk.injEq]
    simp [addrEncode]
  obtain ⟨hclear, hset⟩ := flagsOctet_eq_iff a.a6 v
  exact ⟨(hoctet6 false _).trans hclear, (hoctet6 true _).trans hset⟩

/-! ### REST in modulo 8 -/

/-- In modulo 8 REST is the control byte, the PID if there is one, and the information (R149). -/
theorem rest_eq_fields {f : Frame} (hm : f.mod128 = false) (hne : f.rest ≠ []) :
    f.rest = f.rest.getD 0 0 :: ((pidField f).toList ++ infoField f) := by
  obtain ⟨c0, more, hr⟩ := List.exists_cons_of_ne_nil hne
  have hlen : controlLength f = 1 := by simp [controlLength, hm]
  rw [pidField, infoField, hlen, hr]
  cases pidFollows f with
  | false => rfl
  | true => cases more <;> rfl

/-- The modulo-8 control byte of a class (30_encoding.md R93, R94). -/
def controlByte (ft : FrameType) (pf : Bool) (nr ns : Option (BitVec 7)) : Byte :=
  if ft ∈ FrameType.uTypes then uControl ft pf
  else if ft = .iFrame then iByte (nr.getD 0).toNat pf (ns.getD 0).toNat
  else sByte (nr.getD 0).toNat pf ft.ss.toNat

/-- Every control byte of a U, I or S field is that of its class. -/
theorem controlByte_spec (c : Byte) :
    (c.getLsbD 0 = true → c.getLsbD 1 = true → uTypeOf c ≠ .uUnknown →
      controlByte (uTypeOf c) (c.getLsbD 4) none none = c) ∧
    (c.getLsbD 0 = false → controlByte .iFrame (c.getLsbD 4) (some ((c.extractLsb' 5 3).setWidth 7))
      (some ((c.extractLsb' 1 3).setWidth 7)) = c) ∧
    (c.getLsbD 0 = true → c.getLsbD 1 = false → controlByte (FrameType.ofSs (c.extractLsb' 2 2)) (c.getLsbD 4)
      (some ((c.extractLsb' 5 3).setWidth 7)) none = c) := by
  revert c
  decide

section
variable {f : Frame} {d t : AddrImage} {as : List AddrImage} (ha : f.addrs = d :: t :: as)
include ha

theorem rest_ne_nil_of_isAx25 (hx : (classify f).ftype ≠ .notAx25) : f.rest ≠ [] :=
  fun hr => hx (by rw [classify_of_no_control ha hr]; rfl)

/-- In modulo 8 the class of a frame determines its control byte, but for an unknown U frame. -/
theorem control_eq_controlByte (hm : f.mod128 = false) (hu : (classify f).ftype ≠ .uUnknown) (hne : f.rest ≠ []) :
    f.rest.getD 0 0 = controlByte (classify f).ftype (classify f).pf (classify f).nr (classify f).ns := by
  obtain ⟨c0, more, hr⟩ := List.exists_cons_of_ne_nil hne
  obtain ⟨hU, hI, hS⟩ := controlByte_spec c0
  cases h0 : c0.getLsbD 0 with
  | false =>
    rw [classify_of_i8 ha hr hm h0, hr]
    exact (hI h0).symm
  | true =>
    cases h1 : c0.getLsbD 1 with
    | false =>
      rw [classify_of_s8 ha hr hm h0 h1, hr]
      exact (hS h0 h1).symm
    | true =>
      rw [classify_of_u ha hr h0 h1] at hu ⊢
      rw [hr]
      exact (hU h0 h1 hu).symm

end

/-! ### A type-1 frame that comes back -/

/-- The PIDs that come back (R206, R207): 0x20 and the rows with a code of their own. -/
theorem pidEncoded_decoded_iff (p : Byte) :
    (pidEncoded p).map pidDecoded = some p ↔ p = 0x20 ∨ p ∈ pidRows.map Prod.fst := by
  revert p
  decide

theorem option_toList_inj {α : Type} {o o' : Option α} : o.toList = o'.toList ↔ o = o' := by
  cases o <;> cases o' <;> simp

section
variable {f g : Frame} {d t d' t' : AddrImage} (he : type1Encodable f) (ha : f.addrs = [d, t]) (hg : g.mod128 = false)
  (hga : g.addrs = [d', t']) (hk : KeepsType1 f g)
include he ha hg hga hk

/-- REST comes back exactly where the PID does. -/
theorem rest_append_infoField_eq_iff :
    g.rest ++ infoField f = f.rest ↔ ∀ p, pidField f = some p → p = 0x20 ∨ p ∈ pidRows.map Prod.fst := by
  obtain ⟨-, hm, -, hclass, -⟩ := he
  obtain ⟨hft, hpf, hnr, hns, hinfo, hpid⟩ := hk
  simp only [List.mem_cons, List.not_mem_nil, or_false, not_or] at hclass
  obtain ⟨-, hu, hx⟩ := hclass
  have hfne := rest_ne_nil_of_isAx25 ha hx
  have hgne := rest_ne_nil_of_isAx25 hga (hft ▸ hx)
  have hgc := control_eq_controlByte hga hg (hft ▸ hu) hgne
  rw [hft, hpf, hnr, hns, ← control_eq_controlByte ha hm hu hfne] at hgc
  have hfr := rest_eq_fields hm hfne
  have hgr := rest_eq_fields hg hgne
  rw [hgc, hinfo, hpid, List.append_nil] at hgr
  have hpids : g.rest ++ infoField f = f.rest ↔ ((pidField f).bind pidEncoded).map pidDecoded = pidField f := by
    generalize f.rest.getD 0 0 = c at hfr hgr
    rw [hgr, hfr, List.cons_append, List.cons_inj_right, List.append_cancel_right_eq, option_toList_inj]
  rw [hpids]
  cases pidField f with
  | none => simp
  | some p => simpa using pidEncoded_decoded_iff p

end

/-- A frame HDR1_DEC made, with the information appended, is the frame its header was made of, but for the markers, exactly under
R216's conditions. -/
theorem decoded_eq_iff_survivesType1 {f g : Frame} {d t : AddrImage} (hf : f.valid = true) (he : type1Encodable f)
    (ha : f.addrs = [d, t]) (hc : callsDecodable f) (heven : f.callsEven) (hgv : g.valid = true) (hgm : g.mod128 = false)
    (hga : g.addrs = [addrEncode (addrDecodeCall d) d.ssid (d.bit7 || decide ((classify f).ftype = .iFrame)) false,
      addrEncode (addrDecodeCall t) t.ssid (!(d.bit7 || decide ((classify f).ftype = .iFrame))) true])
    (hk : KeepsType1 f g) :
    ({ g with rest := g.rest ++ infoField f } : Frame) =
        { f with addrs := [{ d with a6 := d.a6 &&& 0xFE }, { t with a6 := t.a6 ||| 0x01 }] } ↔
      survivesType1 f d t := by
  rw [callsDecodable_iff, ha, List.forall_mem_cons, List.forall_mem_singleton] at hc
  rw [Frame.callsEven_iff, ha, List.forall_mem_cons, List.forall_mem_singleton] at heven
  obtain ⟨⟨-, hdok⟩, -, htok⟩ := hc
  obtain ⟨hdeven, hteven⟩ := heven
  have hdst := (addrEncode_addrDecodeCall_eq_iff hdok hdeven (d.bit7 || decide ((classify f).ftype = .iFrame))).1
  have hsrc := (addrEncode_addrDecodeCall_eq_iff htok hteven (!(d.bit7 || decide ((classify f).ftype = .iFrame)))).2
  have hrest := rest_append_infoField_eq_iff he ha hgm hga hk
  have hm : f.mod128 = false := he.2.1
  have hfields : ∀ {l l' : List AddrImage} {x y : List Byte},
      (⟨g.valid, g.mod128, l, x⟩ : Frame) = ⟨f.valid, f.mod128, l', y⟩ ↔ l = l' ∧ x = y := by
    simp [hgv, hgm, hf, hm]
  -- R263's C bits are those of `f` exactly where R216 says so
  have hbits : ∀ x y i : Bool, (x || i) = x ∧ (!(x || i)) = y ↔ y = !x ∧ (i = true → x = true) := by decide
  have hcs := hbits (d.a6.getLsbD 7) (t.a6.getLsbD 7) (decide ((classify f).ftype = .iFrame))
  rw [decide_eq_true_eq] at hcs
  rw [hfields, hrest, hga, List.cons.injEq, List.cons.injEq, hdst, hsrc, survivesType1, AddrImage.bit7]
  refine ⟨fun ⟨⟨⟨hdc, hdr⟩, ⟨htc, htr⟩, _⟩, hpid⟩ => ?_, fun ⟨hcompl, hi, hpid, hdr, htr⟩ => ?_⟩
  · obtain ⟨hcompl, hi⟩ := hcs.mp ⟨hdc, htc⟩
    exact ⟨hcompl, hi, hpid, hdr, htr⟩
  · obtain ⟨hdc, htc⟩ := hcs.mpr ⟨hcompl, hi⟩
    exact ⟨⟨⟨hdc, hdr⟩, ⟨htc, htr⟩, rfl⟩, hpid⟩

end Sys2Proof.Claim
end

section
/-! The statements about the IL2P commands (45_il2p_frame.md), each assembled from the lemmas above. -/

namespace Sys2Proof.Proofs

open Sys2Proof.Machine Sys2Proof.Claim

/-- Settles O56: the choice follows what the two header encodes answer (`il2pChoose_of_type1` and its kind), and the output is that
of R260 (`onAirBytes_eq`). -/
theorem il2pEncodeOutcomes : Obligations.Il2pEncodeOutcomes := by
  intro s m
  dsimp only
  have hsends : ∀ {r : Il2pChoice}, il2pChoose s.frame m = .ok r →
      exec (.il2pEncode m) s = .next { s with
        code := .ok, hdr := r.hdr, resInfoLen := BitVec.ofNat 11 r.ilen,
        resHdr := { hdrType := r.type1, maxFec := m, count := BitVec.ofNat 10 r.body.length },
        plan := (planFor r.body.length m).regs, outGen := s.outGen + 1,
        bufOut := onAirBytes r.hdr (planFor r.body.length m) r.body } := fun hr => by
    rw [exec_il2pEncode_of_ok hr, onAirBytes_eq]
    rfl
  refine ⟨fun hv => ?_, fun hv he hl => ?_, fun hv he hl => ?_, fun hv he hl => ?_, fun hv he hl => ?_, fun hv he h14 hl => ?_⟩
  · exact exec_il2pEncode_of_error (il2pChoose_of_error (hdr1Enc_of_invalid hv) (by decide))
  · rw [← infoOf_eq (type1Encodable_isAx25 he)] at hl
    exact exec_il2pEncode_of_error
      (il2pChoose_of_error (hdr1Enc_of_long hv ((type1Encodable_iff _).mp he) hl) (by decide))
  · rw [← infoOf_eq (type1Encodable_isAx25 he)] at hl ⊢
    have henc := hdr1Enc_of_fits (m := m) hv ((type1Encodable_iff _).mp he) hl
    refine ⟨_, exec_hdr1Enc_of_ok henc, rfl, ?_⟩
    rw [hsends (il2pChoose_of_type1 henc)]
  · exact exec_il2pEncode_of_error (il2pChoose_of_type0_error (hdr1Enc_of_not_encodable hv he m) (hdr0Enc_of_short hv hl))
  · exact exec_il2pEncode_of_error (il2pChoose_of_type0_error (hdr1Enc_of_not_encodable hv he m) (hdr0Enc_of_long hv hl))
  · have henc := hdr0Enc_of_fits (m := m) hv h14 hl
    refine ⟨_, exec_hdr0Enc_of_ok henc, rfl, ?_⟩
    rw [packed_eq, hsends (il2pChoose_of_type0 (hdr1Enc_of_not_encodable hv he m) henc), pack_length]
    rfl

/-- Settles O58: what the header decodes to (`HeaderDecodes`) and its type decide which check is next, and the blocks are decoded in
order (`decodeBlocks_of_decoded`). -/
theorem il2pDecodeOutcomes : Obligations.Il2pDecodeOutcomes := by
  intro s m128
  dsimp only
  refine ⟨fun h => exec_il2pDecode_of_short (h.imp_left Nat.lt_of_not_le) m128,
    fun hf h15 hd => exec_il2pDecode_of_fail hf h15 hd m128, fun c mh h hf h15 hd hc => ?_⟩
  have hh : HeaderDecodes s h mh := ⟨hf, h15, c, hd, hc ▸ hdrOfBytes_hdrBytes h⟩
  refine ⟨exec_il2pDecode_of_cut hh m128, fun hwhole dst src ht hdst hsrc hbad => ?_,
    fun hwhole dst src hcalls hfail => ?_, fun hwhole w m hblocks => ⟨fun dst src u ht hdst hsrc hd hs hu => ?_,
      fun ht hmin hmax => ⟨loadFrame _ m128, ?_, rfl, rfl, loadFrame_naddr .., loadFrame_bytes ..⟩, fun ht hrange => ?_⟩⟩
  · rw [← hdrCall_of_hdrCallIs hdst, ← hdrCall_of_hdrCallIs hsrc] at hbad
    rw [exec_il2pDecode_of_badCall hh m128 hwhole ht (hdr1Dec_of_badCall _ ht hbad), diagIf_eq_bitWhen _ (n := 5) rfl]
  · have hnone := decodeBlocks_of_uncorrectable _ _ hfail
    cases ht : hdrType h with
    | true =>
      obtain ⟨hdst, hsrc, hd, hs⟩ := hcalls ht
      obtain ⟨r, hr⟩ := hdr1Dec_of_callOk s.params ht hdst hsrc hd hs
      rw [exec_il2pDecode_of_built hh m128 hwhole ht hr, il2pPayload_of_none hnone]
    | false => rw [exec_il2pDecode_of_type0 hh m128 hwhole ht, il2pPayload_of_none hnone]
  · obtain ⟨r, hr⟩ := hdr1Dec_of_callOk s.params ht hdst hsrc hd hs
    rw [exec_hdr1Dec_of_built (s := { s with hdr := h }) hr] at hu
    cases hu
    rw [exec_il2pDecode_of_built hh m128 hwhole ht hr, il2pPayload_of_some (decodeBlocks_of_decoded _ _ hblocks)]
    rfl
  · rw [exec_il2pDecode_of_type0 hh m128 hwhole ht, il2pPayload_of_some (decodeBlocks_of_decoded _ _ hblocks),
      if_pos (by simp [loadable, hmin, hmax])]
    rfl
  · rw [exec_il2pDecode_of_type0 hh m128 hwhole ht, il2pPayload_of_some (decodeBlocks_of_decoded _ _ hblocks),
      if_neg (by simpa [loadable] using hrange)]
    rfl

/-- Settles O59: the receiver finds the header and the payload that were sent, with no correction (`headerDecodes_of_sent`,
`decodeBlocks_of_sent`); what HDR1_DEC makes of a type-1 header is R216's frame (`decodesBack`). -/
theorem il2pRoundTrip : Obligations.Il2pRoundTrip := by
  intro s t u m hs ht hok hu
  obtain ⟨_, ⟨r, hr, rfl⟩, hsent⟩ := (execIl2pEncode_ends m s).good_of_ok ht hok
  have hhdr : t.hdr = r.hdr := by rw [hsent]; rfl
  have hparams : t.params = s.params := by rw [hsent]; rfl
  have hbody := il2pChoose_body_le hr
  rw [hhdr]
  rcases il2pChoose_cases s.frame m with ⟨c, -, e⟩ | ⟨h, n, henc, e⟩ | ⟨-, h, henc, e⟩ <;>
    rw [e] at hr <;> cases hr
  · obtain ⟨hv, href, -, rfl, -⟩ := hdr1Enc_ok henc
    have he := (type1Encodable_iff _).mpr href
    have ht1 := hdrType_type1Header s.frame m
    refine ⟨fun ht0 => absurd (ht1.symm.trans ht0) (by decide), fun _ hc => ?_⟩
    obtain ⟨d, a, ha⟩ := List.length_eq_two.mp he.1
    obtain ⟨g, hg, hkeeps, haddrs⟩ := decodesBack s.params he ha hc m
    obtain ⟨hgv, hgm, -⟩ := hdr1Dec_built hg
    have hgt : hdr1Dec t.params t.hdr = .built g := by rw [hparams, hhdr, hg]
    refine ⟨_, _, exec_hdr1Dec_of_built hgt, rfl, exec_il2pDecode_of_sent_type1 hs e ht hu ht1 hg _, rfl, ?_, rfl, rfl,
      fun d' a' ha' heven => ?_⟩
    · rw [← infoOf_eq (type1Encodable_isAx25 he)]
      rfl
    · rw [ha] at ha'
      cases ha'
      exact infoOf_eq (type1Encodable_isAx25 he) ▸
        decoded_eq_iff_survivesType1 hv he ha hc heven hgv hgm haddrs hkeeps
  · obtain ⟨hv, -, -, rfl⟩ := hdr0Enc_ok henc
    have ht0 : hdrType (putTrailer zeroHdr m false s.frame.len) = false := hdrType_putTrailer ..
    refine ⟨fun _ hmin => ?_, fun ht1 => absurd (ht0.symm.trans ht1) (by decide)⟩
    have hmax := (hs.frame hv).2
    refine ⟨_, exec_il2pDecode_of_sent_type0 hs e ht hu ht0 ?_ _, rfl, ?_, rfl, rfl, rfl⟩
    · rw [pack_length]
      simp [loadable, hmin, hmax]
    · rw [packed_eq, packed_eq]
      exact pack_loadFrame ..

/-- Settles O60: the three ways a failed command can have left the state (`execIl2pDecode_ends`). -/
theorem il2pDecodeErrorTiers : Obligations.Il2pDecodeErrorTiers := by
  intro s t m128 ht hbad
  rcases (execIl2pDecode_ends m128 s).cases ht with ⟨u, -, hu, e⟩ | ⟨u, -, e⟩
  · rw [e]
    rcases hu with ⟨hc, rfl⟩ | ⟨hc, c, rfl⟩ | ⟨hc, b, rfl⟩
    · refine ⟨?_, rfl, rfl, rfl, rfl, fun hfec => ?_⟩
      · rcases hc with hc | hc <;> simp [hc]
      · rcases hc with hc | hc <;> simp [hc] at hfec
    · exact ⟨by simp [hc], rfl, rfl, rfl, rfl, fun _ => rfl⟩
    · exact ⟨by simp [hc], rfl, rfl, rfl, rfl, fun hfec => by simp [hc] at hfec⟩
  · exact absurd (congrArg State.code e) hbad

end Sys2Proof.Proofs
end

section
/-! SUPPORT. How commands fail, and that none gets stuck (60_exceptions.md R280 to R285): the writes a failed command keeps, the common
checks, and the host actions a step leaves to serve. -/

namespace Sys2Proof.Machine

open Claim

/-! ### The writes a failed command keeps (R281) -/

/-- What a command that fails has written beside STATUS.CODE: nothing, or what its rule keeps (60_exceptions.md R281). -/
inductive KeptWrites (s : State) : Instr → StatusCode → State → Prop
  | nothing (i : Instr) (c : StatusCode) : KeptWrites s i c s
  | hdr1DecDiag (b : Bool) : KeptWrites s .hdr1Dec .hdrReject (s.addDiag (diagIf b .hdrSuspicious))
  | il2pDecodeDiag (m128 b : Bool) : KeptWrites s (.il2pDecode m128) .hdrReject (s.addDiag (diagIf b .hdrSuspicious))
  | hdrClarifyCorr : KeptWrites s .hdrClarify .fecFail { s with corrHdr := 0xFF }
  | il2pDecodeCorr (m128 : Bool) (m : BitVec 8) :
    KeptWrites s (.il2pDecode m128) .fecFail { s with corrHdr := m, corrPay := 0xFF }

theorem Ends.imp_bad {o : Host.Outcome State Fault Refusal} {bad bad' : StatusCode → State → Prop} {good : State → Prop}
    (h : Ends o bad good) (hbad : ∀ c u, bad c u → bad' c u) : Ends o bad' fun _ => True := by
  rcases h with ⟨c, u, hc, hb, e⟩ | ⟨u, -, e⟩
  · exact .inl ⟨c, u, hc, hbad c u hb, e⟩
  · exact .inr ⟨u, trivial, e⟩

theorem Ends.nothingKept {o : Host.Outcome State Fault Refusal} {s : State} {good : State → Prop} (h : Ends o (Clean s) good)
    (i : Instr) : Ends o (KeptWrites s i) fun _ => True :=
  h.imp_bad fun c _ hu => hu ▸ .nothing i c

/-- All commands but HDR1_DEC, HDR_CLARIFY and IL2P_DECODE fail with nothing written. -/
theorem exec_ends (i : Instr) (s : State) : Ends (exec i s) (KeptWrites s i) fun _ => True := by
  cases i with
  | nop => exact (execNop_ends s).nothingKept _
  | xfer => exact (execXfer_ends s).nothingKept _
  | diagClear => exact (execDiagClear_ends s).nothingKept _
  | addrEncode => exact (execAddrEncode_ends _ _ _ s).nothingKept _
  | addrDecode => exact (execAddrDecode_ends s).nothingKept _
  | addrRead => exact (execAddrRead_ends _ s).nothingKept _
  | addrSet => exact (execAddrSet_ends _ _ _ s).nothingKept _
  | addrInsert => exact (execAddrInsert_ends _ _ _ s).nothingKept _
  | addrRemove => exact (execAddrRemove_ends _ s).nothingKept _
  | frameLoad => exact (execFrameLoad_ends _ s).nothingKept _
  | framePack => exact (execFramePack_ends s).nothingKept _
  | frameClassify => exact (execFrameClassify_ends s).nothingKept _
  | buildU => exact (execBuildU_ends _ _ _ _ _ s).nothingKept _
  | buildS => exact (execBuildS_ends _ _ _ _ _ s).nothingKept _
  | buildI => exact (execBuildI_ends _ _ _ _ _ _ s).nothingKept _
  | fcsCalc => exact (execFcsCalc_ends s).nothingKept _
  | fcsGen => exact (execFcsGen_ends s).nothingKept _
  | fcsCheck => exact (execFcsCheck_ends s).nothingKept _
  | framePackFcs => exact (execFramePackFcs_ends s).nothingKept _
  | hdr1Enc => exact (execHdr1Enc_ends _ s).nothingKept _
  | hdr0Enc => exact (execHdr0Enc_ends _ s).nothingKept _
  | hdrAttr => exact (execHdrAttr_ends s).nothingKept _
  | hdr1Dec =>
    refine (execHdr1Dec_ends s).imp_bad ?_
    rintro _ _ ⟨rfl, b, rfl⟩
    exact .hdr1DecDiag b
  | hdrClarify =>
    refine (execHdrClarify_ends s).imp_bad ?_
    rintro c _ (rfl | ⟨rfl, rfl⟩)
    · exact .nothing _ c
    · exact .hdrClarifyCorr
  | hdrEmit => exact (execHdrEmit_ends s).nothingKept _
  | plan => exact (execPlan_ends _ _ s).nothingKept _
  | il2pEncode => exact (execIl2pEncode_ends _ s).nothingKept _
  | il2pDecode m128 =>
    refine (execIl2pDecode_ends m128 s).imp_bad ?_
    rintro c _ (⟨-, rfl⟩ | ⟨rfl, m, rfl⟩ | ⟨rfl, b, rfl⟩)
    · exact .nothing _ c
    · exact .il2pDecodeCorr m128 m
    · exact .il2pDecodeDiag m128 b

/-- The state a failed command leaves is that of its kept writes, with the code in STATUS. -/
theorem exec_keptWrites {i : Instr} {s t : State} (h : exec i s = .next t) (hbad : t.code ≠ .ok) :
    ∃ c u, KeptWrites s i c u ∧ t = u.setCode c := by
  rcases (exec_ends i s).cases h with ⟨u, -, hu, e⟩ | ⟨_, -, rfl⟩
  · exact ⟨_, u, hu, e⟩
  · exact absurd rfl hbad

/-- DIAG.HDR_SUSPICIOUS is the only bit a reject can add. -/
theorem diag_eq_of_suspicious {d : BitVec 6} {b : Bool} (h : d ||| diagIf b .hdrSuspicious ≠ d) :
    d ||| diagIf b .hdrSuspicious = d ||| 0b100000 := by
  cases b with
  | false => exact absurd BitVec.or_zero h
  | true => rfl

/-! ### The common checks (R282) -/

/-- A command that reads BUF_IN looks at its length before anything else. -/
theorem exec_readsBufIn_over {i : Instr} {s : State} (hi : readsBufIn i) (hover : s.params.bufCap < s.bufInLen.toNat) :
    exec i s = .next { s with code := .badLen } := by
  cases i with
  | addrEncode | addrDecode | addrSet | addrInsert | frameLoad | buildU | buildS | buildI | fcsCalc | fcsGen | fcsCheck
  | hdrClarify | il2pDecode =>
    dsimp only [exec]
    exact withInput_over hover _
  | _ => exact hi.elim

/-! ### Host actions still to come -/

/-- No command touches the host's actions. -/
theorem exec_host {i : Instr} {s t : State} (h : exec i s = .next t) : t.host = s.host := by
  cases i <;> (have hw : t = _ := exec_writesOnly h; rw [hw])

theorem writeReg_host (s : State) (a : Nat) (v : Word) : (writeReg s a v).host = s.host := by
  rcases writeReg_cases s a v with ⟨-, e⟩ | ⟨-, e⟩ | ⟨_, -, -, e⟩ | ⟨-, -, e⟩ | e <;> rw [e]
  rw [State.setBufInWord_eq]

theorem hostWrite_host {s t : State} {a : Nat} {v : Word} (h : hostWrite s a v = .next t) : t.host = s.host := by
  unfold hostWrite issueWord at h
  split at h
  · cases h
    rfl
  · split at h
    · split at h
      · exact (exec_host h :)
      · rw [fail_next.mp h]
        rfl
    · cases h
      exact writeReg_host s a v

/-- Where every host action has a step, the next one is served, and those still to come have one too (20_memory.md R66). -/
theorem step_of_safe {s : State} (h : s.safe = true) : ∃ t, step s = .next t ∧ t.safe = true := by
  cases hs : s.host with
  | nil => exact ⟨s, by simp only [step, hs], h⟩
  | cons action rest =>
    obtain ⟨hserved, hrest⟩ : action.served = true ∧ rest.all HostAction.served = true := by
      simpa only [State.safe, hs, List.all_cons, Bool.and_eq_true] using h
    cases action with
    | reset => exact ⟨resetInput { s with host := rest }, by simp only [step, hs], hrest⟩
    | read a width =>
      have hf : accessFault a width = none := Option.isNone_iff_eq_none.mp hserved
      exact ⟨hostRead { s with host := rest } a, by simp only [step, hs, hf], hrest⟩
    | write a width v =>
      have hf : accessFault a width = none := Option.isNone_iff_eq_none.mp hserved
      obtain ⟨t, ht⟩ := hostWrite_next { s with host := rest } a v
      refine ⟨t, by simp only [step, hs, hf, ht], ?_⟩
      rw [State.safe, hostWrite_host ht]
      exact hrest

end Sys2Proof.Machine
end

section
/-! The statements about exceptions (60_exceptions.md), each assembled from the lemmas above. -/

namespace Sys2Proof.Proofs

open Sys2Proof.Machine Sys2Proof.Claim

/-- Settles O15: every command ends (`exec_next`), and a step serves the next of the host's actions (`step_of_safe`). -/
theorem everyCommandEnds : Obligations.EveryCommandEnds :=
  ⟨exec_next, fun _ => step_of_safe⟩

/-- Settles O16, by the writes a failed command can have kept (`exec_keptWrites`). -/
theorem failedCommandWritesOnlyStatus : Obligations.FailedCommandWritesOnlyStatus := by
  intro i s t h hbad
  obtain ⟨c, u, hu, rfl⟩ := exec_keptWrites h hbad
  cases hu with
  | nothing => exact ⟨rfl, absurd rfl, absurd rfl, absurd rfl⟩
  | hdr1DecDiag b => exact ⟨rfl, fun hd => ⟨.inl rfl, rfl, diag_eq_of_suspicious hd⟩, absurd rfl, absurd rfl⟩
  | il2pDecodeDiag m128 b =>
    exact ⟨rfl, fun hd => ⟨.inr ⟨m128, rfl⟩, rfl, diag_eq_of_suspicious hd⟩, absurd rfl, absurd rfl⟩
  | hdrClarifyCorr => exact ⟨rfl, absurd rfl, fun _ => ⟨.inl rfl, rfl⟩, absurd rfl⟩
  | il2pDecodeCorr m128 m =>
    exact ⟨rfl, absurd rfl, fun _ => ⟨.inr ⟨m128, rfl⟩, rfl⟩, fun _ => ⟨⟨m128, rfl⟩, rfl, rfl⟩⟩

/-- Settles O19: reading BUF_IN checks its length before all else (`exec_readsBufIn_over`), and each command that
reads FRAME looks at VALID next, as the statement about its outcomes or its header encode says. -/
theorem commonChecksComeFirst : Obligations.CommonChecksComeFirst := by
  refine fun i s => ⟨fun hi hover => exec_readsBufIn_over hi (Nat.lt_of_not_le hover), fun hi hv hfits => ?_⟩
  cases i with
  | addrRead n => exact (addrReadOutcomes s n).1 hv
  | addrSet n ssid hbit => exact (addrSetOutcomes s n ssid hbit).2.1 (hfits trivial) hv
  | addrInsert n ssid hbit => exact (addrInsertOutcomes s n ssid hbit).2.1 (hfits trivial) hv
  | addrRemove n => exact (addrRemoveOutcomes s n).1 hv
  | framePack => exact (framePackOutcomes s).1 hv
  | frameClassify => exact (frameClassifyOutcomes s).1 hv
  | framePackFcs => exact (framePackFcsOutcomes s).1 hv
  | hdr1Enc m => exact exec_hdr1Enc_of_error (hdr1Enc_of_invalid hv)
  | hdr0Enc m => exact exec_hdr0Enc_of_error (hdr0Enc_of_invalid hv)
  | il2pEncode m => exact exec_il2pEncode_of_error (il2pChoose_of_error (hdr1Enc_of_invalid hv) nofun)
  | _ => exact hi.elim

end Sys2Proof.Proofs
end

section
/-! SUPPORT. Commands and the contents of BUF_IN: a command other than XFER sees of them the input string alone (10_state.md R28,
70_reset_and_hazards.md R315). -/

namespace Sys2Proof.Machine

/-- The state with other contents of BUF_IN. -/
def State.withBufIn (s : State) (m : Memory) : State := { s with bufIn := m }

/-- Contents of BUF_IN that agree below BUF_IN_LEN are the same input string. -/
theorem inBytes_withBufIn {s : State} {m : Memory}
    (hm : ∀ k, k < s.bufInLen.toNat → Memory.read m k = Memory.read s.bufIn k) : (s.withBufIn m).inBytes = s.inBytes := by
  refine List.ext_getElem? fun k => ?_
  simp only [State.inBytes, Memory.readBytes_getElem?, State.withBufIn, Nat.zero_add]
  split
  · next hk => rw [hm k hk]
  · rfl

/-- Where the one command ends, the other ends in the same state, but for the contents `m` of BUF_IN. -/
def SameEnd (m : Memory) (o o' : Host.Outcome State Fault Refusal) : Prop :=
  ∀ t, o = .next t → o' = .next (t.withBufIn m)

section
variable {m : Memory}

theorem SameEnd.next (t : State) : SameEnd m (.next t) (.next (t.withBufIn m)) := by
  rintro _ ⟨⟩
  rfl

theorem SameEnd.ok {t : State} : SameEnd m (ok t) (ok (t.withBufIn m)) := .next _

theorem SameEnd.fail {c : StatusCode} {t : State} : SameEnd m (fail c t) (fail c (t.withBufIn m)) := .next _

theorem SameEnd.ite {p : Prop} [Decidable p] {a a' b b' : Host.Outcome State Fault Refusal} (ha : SameEnd m a a')
    (hb : SameEnd m b b') : SameEnd m (if p then a else b) (if p then a' else b') := by
  split
  · exact ha
  · exact hb

variable {s : State}

/-- A command that reads BUF_IN reads its length and the input string (60_exceptions.md R282). -/
theorem SameEnd.input {body body' : List Byte → Host.Outcome State Fault Refusal}
    (hin : (s.withBufIn m).inBytes = s.inBytes) (hbody : ∀ b, SameEnd m (body b) (body' b)) :
    SameEnd m (withInput s body) (withInput (s.withBufIn m) body') := by
  unfold withInput
  rw [hin]
  exact .ite .fail (hbody s.inBytes)

/-- A builder makes the frame of the input string alone (41_frame.md R150). -/
theorem SameEnd.build (b : List Byte) (build : List AddrImage → List Byte → Built) :
    SameEnd m (buildFrom s b build) (buildFrom (s.withBufIn m) b build) :=
  .ite .fail .ok

theorem SameEnd.payload {h : Hdr} {b : List Byte} {mh : Nat} {fin fin' : State → List Byte → Host.Outcome State Fault Refusal}
    (hfin : ∀ t p, SameEnd m (fin t p) (fin' (t.withBufIn m) p)) :
    SameEnd m (il2pPayload s h b mh fin) (il2pPayload (s.withBufIn m) h b mh fin') := by
  unfold il2pPayload
  dsimp only
  cases decodeBlocks (planFor (hdrCount h).toNat (hdrFec h)).parity (planFor (hdrCount h).toNat (hdrFec h)).sizes
      (b.drop (Config.il2pHdrLen + Config.il2pHdrParity)) with
  | none => exact .fail
  | some r => exact hfin _ r.1

/-! ### Commands that branch on what they find -/

theorem execAddrRead_sameEnd (n : BitVec 4) : SameEnd m (execAddrRead n s) (execAddrRead n (s.withBufIn m)) := by
  refine .ite ?_ .fail
  dsimp only [State.withBufIn]
  cases s.frame.addrs[n.toNat]? with
  | none => exact .fail
  | some a => exact .ok

theorem execHdr1Enc_sameEnd (maxFec : Bool) : SameEnd m (execHdr1Enc maxFec s) (execHdr1Enc maxFec (s.withBufIn m)) := by
  dsimp only [execHdr1Enc, State.withBufIn]
  cases hdr1Enc s.frame maxFec with
  | error c => exact .fail
  | ok r => exact .ok

theorem execHdr0Enc_sameEnd (maxFec : Bool) : SameEnd m (execHdr0Enc maxFec s) (execHdr0Enc maxFec (s.withBufIn m)) := by
  dsimp only [execHdr0Enc, State.withBufIn]
  cases hdr0Enc s.frame maxFec with
  | error c => exact .fail
  | ok h => exact .ok

theorem execHdr1Dec_sameEnd : SameEnd m (execHdr1Dec s) (execHdr1Dec (s.withBufIn m)) := by
  dsimp only [execHdr1Dec, State.withBufIn]
  cases hdr1Dec s.params s.hdr with
  | notType1 => exact .fail
  | badCall => exact .fail
  | built r => exact .ok

theorem execIl2pEncode_sameEnd (maxFec : Bool) :
    SameEnd m (execIl2pEncode maxFec s) (execIl2pEncode maxFec (s.withBufIn m)) := by
  dsimp only [execIl2pEncode, State.withBufIn]
  cases il2pChoose s.frame maxFec with
  | error c => exact .fail
  | ok r => exact .ok

section
variable (hin : (s.withBufIn m).inBytes = s.inBytes)
include hin

theorem execAddrSet_sameEnd (n ssid : BitVec 4) (hbit : Bool) :
    SameEnd m (execAddrSet n ssid hbit s) (execAddrSet n ssid hbit (s.withBufIn m)) := by
  refine .input hin fun call => .ite ?_ .fail
  dsimp only [State.withBufIn]
  cases s.frame.addrs[n.toNat]? with
  | none => exact .fail
  | some a => exact .ite .ok .fail

theorem execHdrClarify_sameEnd : SameEnd m (execHdrClarify s) (execHdrClarify (s.withBufIn m)) := by
  refine .input hin fun b => .ite .fail ?_
  cases rsDecode Config.il2pHdrParity (b.take (Config.il2pHdrLen + Config.il2pHdrParity)) with
  | none => exact .fail
  | some r => exact .ok

theorem execIl2pDecode_sameEnd (m128 : Bool) : SameEnd m (execIl2pDecode m128 s) (execIl2pDecode m128 (s.withBufIn m)) := by
  refine .input hin fun b => .ite .fail ?_
  cases rsDecode Config.il2pHdrParity (b.take (Config.il2pHdrLen + Config.il2pHdrParity)) with
  | none => exact .fail
  | some r =>
    refine .ite .fail (.ite ?_ (.payload fun t p => .ite .ok .fail))
    dsimp only [State.withBufIn]
    cases hdr1Dec s.params (hdrOfBytes (descramble (r.1.take Config.il2pHdrLen))) with
    | notType1 => exact .fail
    | badCall => exact .fail
    | built f => exact .payload fun t p => .ok

end

/-- With the same input string every command but XFER ends the same, whatever else BUF_IN holds. -/
theorem exec_sameEnd {i : Instr} (hi : i ≠ .xfer) (hin : (s.withBufIn m).inBytes = s.inBytes) :
    SameEnd m (exec i s) (exec i (s.withBufIn m)) := by
  unfold exec
  cases i with
  | nop | diagClear | hdrAttr | hdrEmit | plan => exact .ok
  | xfer => exact absurd rfl hi
  | addrEncode | addrDecode | frameLoad => exact .input hin fun _ => .ite .ok .fail
  | addrRead n => exact execAddrRead_sameEnd n
  | addrSet n ssid hbit => exact execAddrSet_sameEnd hin n ssid hbit
  | addrInsert => exact .input hin fun _ => .ite (.ite .fail (.ite .fail (.ite .ok .fail))) .fail
  | addrRemove => exact .ite (.ite .fail .ok) .fail
  | framePack | frameClassify | framePackFcs => exact .ite .ok .fail
  | buildU | buildS => exact .input hin fun b => .ite .fail (.build b _)
  | buildI => exact .input hin fun b => .build b _
  | fcsCalc => exact .input hin fun _ => .ok
  | fcsGen => exact .input hin fun _ => .ite .fail .ok
  | fcsCheck => exact .input hin fun _ => .ite .fail (.ite .ok .fail)
  | hdr1Enc maxFec => exact execHdr1Enc_sameEnd maxFec
  | hdr0Enc maxFec => exact execHdr0Enc_sameEnd maxFec
  | hdr1Dec => exact execHdr1Dec_sameEnd
  | hdrClarify => exact execHdrClarify_sameEnd hin
  | il2pEncode maxFec => exact execIl2pEncode_sameEnd maxFec
  | il2pDecode m128 => exact execIl2pDecode_sameEnd hin m128

end

/-! ### The state after reset (70_reset_and_hazards.md R310) -/

theorem readReg_reset {k : Nat} (hk : k < 20) : readReg State.reset (4 * k) = 0 := by
  interval_cases k <;> rfl

theorem hdrByte_reset (i : Nat) : hdrByte State.reset.hdr i = 0 := by
  by_cases hi : i < 13
  · interval_cases i <;> rfl
  · exact hdrByte_of_ge _ (by omega)

end Sys2Proof.Machine
end

section
/-! The statements about reset and hazards (70_reset_and_hazards.md), each assembled from the lemmas above. -/

namespace Sys2Proof.Proofs

open Sys2Proof.Machine Sys2Proof.Claim

/-- Settles O20: contents of BUF_IN that agree below its length are the same input string (`inBytes_withBufIn`), and a command
other than XFER sees no more of BUF_IN (`exec_sameEnd`). -/
theorem bytesAboveTheLengthAreNotRead : Obligations.BytesAboveTheLengthAreNotRead :=
  fun _ _ t _ hi hm h => exec_sameEnd hi (inBytes_withBufIn hm) t h

/-- Settles O11: the registers read 0 (`readReg_reset`), and with no host action waiting the framer is idle. -/
theorem resetValues : Obligations.ResetValues :=
  ⟨fun _ => readReg_reset, rfl, rfl, rfl, rfl, rfl, rfl, hdrByte_reset, rfl⟩

/-- Settles O12: the step of a reset action is the reset input, served with that action taken off the host's list. -/
theorem resetInputResets : Obligations.ResetInputResets := by
  intro s rest hs
  simp only [step, hs, resetInput]

end Sys2Proof.Proofs
end
